-- ==== Sys2Proof/Word.lean ====
section
/-!
DEFINITION. The bit-vector types of the block (30_encoding.md R67, R71; 10_state.md R25; 20_memory.md R44) and
the two two-valued enumerations of its operands. Every value is an unsigned bit vector of its stated width (R8);
bit 0 is the least significant bit.
-/

namespace Sys2Proof

/-- One byte: a data byte, a register number, a composed address byte, a status sample (R8, R44). -/
abbrev Byte := BitVec 8

/-- One command word `CMD32` (R67). -/
abbrev Word := BitVec 32

/-- A 7-bit slave address before composition (R71). -/
abbrev SlaveAddr := BitVec 7

/-- The 2-bit `dir` field: 0 Write, 1 Read, 2 and 3 not directions (R69). -/
abbrev DirField := BitVec 2

/-- A 16-bit bound of the poll counter (R21, R23). -/
abbrev Count := BitVec 16

/-- Acknowledgment Policy, "enumeration {Ack, Nack}" (R12, R70). -/
inductive AckPolicy where
  | ack
  | nack
  deriving DecidableEq, Repr

/-- Transfer Direction, "enumeration {Write, Read}" (R12, R69). -/
inductive Direction where
  | write
  | read
  deriving DecidableEq, Repr

end Sys2Proof
end

