-- ==== Sys2Proof/Config.lean ====
section
/-!
DEFINITION. What the spec leaves open and the model keeps open: the free values (constants without a body, applied to
the counters `reads` and `replies` of the state) and the one reference number of 00_scope.md R7.
-/

namespace Sys2Proof.Config

/-- FREE VALUE. `RSP.data` when `dv` = 0: "**unspecified**" (R25, R122; 93_implementation_defined.md U1, U2), drawn
anew for every response. Log entry 1. -/
opaque freeByte : Nat → BitVec 8

/-- FREE VALUE. What the environment answers to a read for which the state holds no prepared answer: the adapter,
the bus and the slaves are "OPEN: the model quantifies over it" (R7, R13, R143; U4). Log entry 2. -/
opaque freeAnswer : Nat → BitVec 8

/-- The reference value of `POLL_LIMIT` (R7: "Reference value 1000"). Only `State.reset` uses it, as the level of
the input `cfg_poll_limit` before any host has driven it. Log entry 7. -/
def referencePollLimit : BitVec 16 := 1000#16

end Sys2Proof.Config
end

