-- ==== Sys2Proof/Syntax.lean ====
section
/-!
DEFINITION. The nine host commands, one constructor per row of spec/opcode_table.json (30_encoding.md R72), each
with the fields its row reads and no other (R75: a field a command does not read has no effect on it).
-/

namespace Sys2Proof

/-- A host command. `dir` stays the raw 2-bit field, because a command that carries a value that is no direction is
legal and is answered InvalidDirection (R69). -/
inductive Instr where
  /-- `START addr, dir` (R98) -/
  | start (addr : SlaveAddr) (dir : DirField)
  /-- `RSTART addr, dir` (R100) -/
  | rstart (addr : SlaveAddr) (dir : DirField)
  /-- `STOP` (R102) -/
  | stop
  /-- `SEND data` (R108) -/
  | send (data : Byte)
  /-- `RECV ap` (R110) -/
  | recv (ap : AckPolicy)
  /-- `WRREG addr, reg, data` (R116) -/
  | wrreg (addr : SlaveAddr) (reg data : Byte)
  /-- `RDREG addr, reg` (R117) -/
  | rdreg (addr : SlaveAddr) (reg : Byte)
  /-- `WRBYTE addr, data` (R118) -/
  | wrbyte (addr : SlaveAddr) (data : Byte)
  /-- `RDBYTE addr` (R119) -/
  | rdbyte (addr : SlaveAddr)
  deriving DecidableEq, Repr

end Sys2Proof
end

