-- ==== Sys2Proof/WellFormed.lean ====
section
/-!
DEFINITION. Written commands (the assembler lines of 30_encoding.md R81) and the checks a line must pass before it is
a command. A term of `Instr` carries its widths in its types, so every `Instr` is well formed ("All 128 values of
`addr` and all 256 values of `reg` and of `data` are legal", R71; every value of `dir` and `ap` is legal, R69, R70);
what can be ill formed is a written line, whose operands are plain numerals.
-/

namespace Sys2Proof

/-- One assembler line of R81, operands as written. `dir` is W = 0, R = 1, or "the numeral 2 or 3 for an invalid
direction"; `ap` is ACK = 0 or NACK = 1. -/
inductive AsmLine where
  | start (addr dir : Nat)
  | rstart (addr dir : Nat)
  | stop
  | send (data : Nat)
  | recv (ap : Nat)
  | wrreg (addr reg data : Nat)
  | rdreg (addr reg : Nat)
  | wrbyte (addr data : Nat)
  | rdbyte (addr : Nat)
  deriving DecidableEq, Repr

namespace AsmLine

/-- A slave address is 7 bits (R71). -/
def addrOk (n : Nat) : Bool := n < 128

/-- A register number or a data byte is 8 bits (R71). -/
def byteOk (n : Nat) : Bool := n < 256

/-- A direction operand is 0 to 3 (R69, R81). -/
def dirOk (n : Nat) : Bool := n < 4

/-- A policy operand is ACK or NACK (R70, R81). -/
def policyOk (n : Nat) : Bool := n < 2

/-- The line's operands are within the widths of their fields. -/
def wellFormed : AsmLine → Bool
  | .start a d => addrOk a && dirOk d
  | .rstart a d => addrOk a && dirOk d
  | .stop => true
  | .send b => byteOk b
  | .recv p => policyOk p
  | .wrreg a r b => addrOk a && (byteOk r && byteOk b)
  | .rdreg a r => addrOk a && byteOk r
  | .wrbyte a b => addrOk a && byteOk b
  | .rdbyte a => addrOk a

/-- The command a line names, its operands cut to their widths. -/
def command : AsmLine → Instr
  | .start a d => .start (BitVec.ofNat 7 a) (BitVec.ofNat 2 d)
  | .rstart a d => .rstart (BitVec.ofNat 7 a) (BitVec.ofNat 2 d)
  | .stop => .stop
  | .send b => .send (BitVec.ofNat 8 b)
  | .recv p => .recv (if p = 0 then .ack else .nack)
  | .wrreg a r b => .wrreg (BitVec.ofNat 7 a) (BitVec.ofNat 8 r) (BitVec.ofNat 8 b)
  | .rdreg a r => .rdreg (BitVec.ofNat 7 a) (BitVec.ofNat 8 r)
  | .wrbyte a b => .wrbyte (BitVec.ofNat 7 a) (BitVec.ofNat 8 b)
  | .rdbyte a => .rdbyte (BitVec.ofNat 7 a)

/-- A line that passes the checks, as a command; an ill-formed line is refused. -/
def toInstr? (l : AsmLine) : Option Instr := if l.wellFormed then some l.command else none

end AsmLine

end Sys2Proof
end

