-- ==== Sys2Proof/Decode.lean ====
section
/-!
DEFINITION. The command word (30_encoding.md R67 to R75, R79 to R83): its fields, the decoder (total on every 32-bit
word, refusing an illegal word by name), the opcode map as a table of rows, and the encoder of R81.
-/

namespace Sys2Proof

/-! ### Fields (R67) -/

/-- `op`, bits 31:28. -/
def fieldOp (w : Word) : BitVec 4 := w.extractLsb' 28 4

/-- `z1`, bit 27, reserved. -/
def fieldZ1 (w : Word) : BitVec 1 := w.extractLsb' 27 1

/-- `ap`, bit 26. -/
def fieldAp (w : Word) : BitVec 1 := w.extractLsb' 26 1

/-- `dir`, bits 25:24. -/
def fieldDir (w : Word) : DirField := w.extractLsb' 24 2

/-- `z0`, bit 23, reserved. -/
def fieldZ0 (w : Word) : BitVec 1 := w.extractLsb' 23 1

/-- `addr`, bits 22:16. -/
def fieldAddr (w : Word) : SlaveAddr := w.extractLsb' 16 7

/-- `reg`, bits 15:8. -/
def fieldReg (w : Word) : Byte := w.extractLsb' 8 8

/-- `data`, bits 7:0. -/
def fieldData (w : Word) : Byte := w.extractLsb' 0 8

/-- The policy a 1-bit code stands for: 0 is Ack, 1 is Nack (R70). -/
def policyOfCode (c : BitVec 1) : AckPolicy := if c = 0#1 then .ack else .nack

/-- The 1-bit code of a policy (R70). -/
def policyCode : AckPolicy → BitVec 1
  | .ack => 0#1
  | .nack => 1#1

/-! ### Decode (R80) -/

/-- Why a word is illegal (R73, R74). -/
inductive DecodeError where
  /-- bit 27 is 1 (R73) -/
  | reservedBit27
  /-- bit 23 is 1 (R73) -/
  | reservedBit23
  /-- `op` is one of 0x0, 0x6, 0x7, 0xC, 0xD, 0xE, 0xF (R74) -/
  | reservedOpcode (op : BitVec 4)
  deriving DecidableEq, Repr

/-- The command a word selects once its reserved bits are 0, by `op` alone (R68, R72). -/
def decodeOp (w : Word) : Except DecodeError Instr :=
  match (fieldOp w).toNat with
  | 0x1 => .ok (.start (fieldAddr w) (fieldDir w))
  | 0x2 => .ok (.rstart (fieldAddr w) (fieldDir w))
  | 0x3 => .ok .stop
  | 0x4 => .ok (.send (fieldData w))
  | 0x5 => .ok (.recv (policyOfCode (fieldAp w)))
  | 0x8 => .ok (.wrreg (fieldAddr w) (fieldReg w) (fieldData w))
  | 0x9 => .ok (.rdreg (fieldAddr w) (fieldReg w))
  | 0xA => .ok (.wrbyte (fieldAddr w) (fieldData w))
  | 0xB => .ok (.rdbyte (fieldAddr w))
  | _ => .error (.reservedOpcode (fieldOp w))

/-- Decode, total on any 32-bit word (R80): the reserved bits first, then `op`. -/
def decode (w : Word) : Except DecodeError Instr :=
  if fieldZ1 w = 1#1 then .error .reservedBit27
  else if fieldZ0 w = 1#1 then .error .reservedBit23
  else decodeOp w

/-! ### The opcode map (R72) -/

/-- The opcode of a command (R72, column `op`). -/
def Instr.opcode : Instr → BitVec 4
  | .start _ _ => 0x1#4
  | .rstart _ _ => 0x2#4
  | .stop => 0x3#4
  | .send _ => 0x4#4
  | .recv _ => 0x5#4
  | .wrreg _ _ _ => 0x8#4
  | .rdreg _ _ => 0x9#4
  | .wrbyte _ _ => 0xA#4
  | .rdbyte _ => 0xB#4

/-- One row of R72: "a word `w` selects the row when `w & mask == match`". -/
structure OpcodeRow where
  op : BitVec 4
  matchBits : Word
  mask : Word
  deriving DecidableEq, Repr

/-- The nine rows of R72, in its order. -/
def opcodeRows : List OpcodeRow :=
  [ ⟨0x1#4, 0x10000000#32, 0xF8800000#32⟩,
    ⟨0x2#4, 0x20000000#32, 0xF8800000#32⟩,
    ⟨0x3#4, 0x30000000#32, 0xF8800000#32⟩,
    ⟨0x4#4, 0x40000000#32, 0xF8800000#32⟩,
    ⟨0x5#4, 0x50000000#32, 0xF8800000#32⟩,
    ⟨0x8#4, 0x80000000#32, 0xF8800000#32⟩,
    ⟨0x9#4, 0x90000000#32, 0xF8800000#32⟩,
    ⟨0xA#4, 0xA0000000#32, 0xF8800000#32⟩,
    ⟨0xB#4, 0xB0000000#32, 0xF8800000#32⟩ ]

/-- The word selects the row. -/
def OpcodeRow.selects (r : OpcodeRow) (w : Word) : Bool := w &&& r.mask == r.matchBits

/-- The word is a legal command word (R74): some row selects it. -/
def legalWord (w : Word) : Bool := opcodeRows.any (·.selects w)

/-! ### Encode (R81) -/

/-- The formula of R81, bits 27 and 23 being 0. -/
def packCommand (op : BitVec 4) (ap : BitVec 1) (dir : DirField) (addr : SlaveAddr) (reg data : Byte) : Word :=
  (op.setWidth 32 <<< 28) ||| (ap.setWidth 32 <<< 26) ||| (dir.setWidth 32 <<< 24) |||
    (addr.setWidth 32 <<< 16) ||| (reg.setWidth 32 <<< 8) ||| data.setWidth 32

/-- Encode, "with every operand the command does not take set to 0" (R81). -/
def encode : Instr → Word
  | .start a d => packCommand 0x1#4 0 d a 0 0
  | .rstart a d => packCommand 0x2#4 0 d a 0 0
  | .stop => packCommand 0x3#4 0 0 0 0 0
  | .send b => packCommand 0x4#4 0 0 0 0 b
  | .recv p => packCommand 0x5#4 (policyCode p) 0 0 0 0
  | .wrreg a r b => packCommand 0x8#4 0 0 a r b
  | .rdreg a r => packCommand 0x9#4 0 0 a r 0
  | .wrbyte a b => packCommand 0xA#4 0 0 a 0 b
  | .rdbyte a => packCommand 0xB#4 0 0 a 0 0

/-- A written line as a command word; an ill-formed line is refused (R81). -/
def assemble (l : AsmLine) : Option Word := l.toInstr?.map encode

/-- The instruction the decoder reads from a word of `nbits` bits numbered as spec/opcode_table.json numbers them. There
is one length, 32 bits (R79), and the word is presented whole on `cmd_word[31:0]` (R15), so no byte order enters. -/
def decodeTableWord (nbits w : Nat) : Option Instr :=
  match decode (BitVec.ofNat 32 (w % 2 ^ nbits)) with
  | .ok i => some i
  | .error _ => none

end Sys2Proof
end

