-- ==== Sys2Proof/Machine/State.lean ====
section
/-!
DEFINITION. The state of the machine as plain data: the engine's registers (10_state.md R18 to R27), the adapter access of
the present cycle (R17), the input pins (R15), the environment (R13, 20_memory.md R59 to R66), what a run leaves (R38),
and the moves the outside world will make next (R37); the reasons a step can stop; and the state after reset (R32).
-/

namespace Sys2Proof.Machine

/-! ### Enumerations of the data model -/

/-- Bus State, codes in R44 (93 U8: no other value). -/
inductive BusState where
  | unknown
  | idle
  | owner
  | busy
  deriving DecidableEq, Repr

/-- The adapter command set of R45. -/
inductive AdapterCmd where
  | none
  | stop
  | continueReceive
  | nackAndStop
  deriving DecidableEq, Repr

/-- Transaction Outcome (R12, R125), BusBusy "carrying the observed state" (R128). -/
inductive TxOutcome where
  | ok
  | nack
  | busBusy (obs : BusState)
  | invalidDirection
  | sendTimeout
  | receiveTimeout
  deriving DecidableEq, Repr

/-- The five states of the "State machine (per Bus Handle)" (R19). -/
inductive Phase where
  | idle
  | address
  | ackCheck
  | data
  | stop
  deriving DecidableEq, Repr

/-- The two completion flags a wait may await (R88, R91). -/
inductive CompletionFlag where
  | wif
  | rif
  deriving DecidableEq, Repr

/-- How a bounded poll ends (R88); the sample of `Done(s)` stands in the register `S`. -/
inductive PollResult where
  | done
  | expired
  deriving DecidableEq, Repr

/-- What an acknowledgment check judges (R92). -/
inductive AckKind where
  | freshAddress
  | repeatedAddress
  | dataSent
  deriving DecidableEq, Repr

/-- One adapter event with its value (R10, R17): `S?x`, `A!x`, `D!x`, `D?x`, `C!c` of 41_start_stop.md. -/
inductive Event where
  | readStatus (sample : Byte)
  | writeAddr (b : Byte)
  | writeData (b : Byte)
  | readData (b : Byte)
  | command (c : AdapterCmd)
  deriving DecidableEq, Repr

/-- A primitive step with the operands it is run on (R115, R123). -/
inductive Prim where
  | start (addr : SlaveAddr) (dir : DirField)
  | rstart (addr : SlaveAddr) (dir : DirField)
  | stop
  | send (data : Byte)
  | recv (policy : AckPolicy)
  deriving DecidableEq, Repr

/-- Where the engine stands inside the primitive it is executing, at the granularity of R37: what its next engine step
is. MODEL'S OWN bookkeeping, DEDUCED (log entry 4): R20 names (`L.op`, `step`, `phase`, `poll_cnt`) as the sequencer
position, which does not tell a step about to begin from one whose precondition has passed. -/
inductive SeqPos where
  /-- the primitive has made no event yet; also the rest value -/
  | begin
  /-- the precondition has passed; the address or data write is next -/
  | write
  /-- inside a wait -/
  | poll
  /-- the awaited flag of an address or of a sent byte was seen, `phase` is `ACKCHECK`; the acknowledgment check is next -/
  | ackCheck
  /-- the read-complete flag was seen; the data read is next -/
  | dataRead
  /-- the byte is captured; the adapter command of the policy is next -/
  | receiveCommand
  /-- the primitive has made its last event and has this outcome; what follows it is next -/
  | done (o : TxOutcome)
  deriving DecidableEq, Repr

/-! ### Memory of the one slave of `RefBus` -/

/-- A byte memory as a list of (address, byte) pairs, addresses strictly rising, no entry equal to 0x00, which is what
an unlisted address reads as ("`mem` all 0x00", R66). -/
abbrev Memory := List Host.Cell

/-- `pend` of R60: a completion that will show after `k` more status reads. -/
inductive Pend where
  | none
  | w (k : Nat)
  | r (k : Nat)
  deriving DecidableEq, Repr

/-- `mode` of R60. -/
inductive SlaveMode where
  | none
  | rx
  | tx
  deriving DecidableEq, Repr

/-- The state and the parameters of `RefBus` (R60). `lat = none` is `INF`. -/
structure RefBus where
  bus    : BusState
  wif    : Bool
  rif    : Bool
  rxnack : Bool
  dreg   : Byte
  pend   : Pend
  mem    : Memory
  ptr    : Byte
  mode   : SlaveMode
  first  : Bool
  saddr  : SlaveAddr
  lat    : Option Nat
  deriving DecidableEq, Repr

/-- The environment `A` (R13): the adapter, the bus, the slaves and the other masters, as the engine sees it.

`scripted statuses datas` is an environment known only by its answers: the successive answers to the status reads and
to the data reads, then free values. Quantified over, it is every environment R37 admits, since the engine observes an
environment "only by `PA.ReadStatus()` and `PA.ReadData()`" (R30). `refBus` is the reference environment of R59 to R66.
Log entries 2 and 3. -/
inductive Env where
  | scripted (statuses datas : List Byte)
  | refBus (r : RefBus)
  deriving DecidableEq, Repr

/-! ### Ports and the outside world -/

/-- The levels of the engine's inputs at a clock edge (R14, R15). -/
structure Pins where
  rst          : Bool
  cmdValid     : Bool
  cmdWord      : Word
  cfgPollLimit : Count
  deriving DecidableEq, Repr

/-- A call of the host on the adapter, past the engine (R40, R145, R147). `configure` takes the operands of the baud
formula (R148); polarity and timeout mode are "bare names" (93 U19), kept as opaque codes. -/
inductive AdapterCall where
  | configure (systemClock targetBusSpeed ackPolarity timeoutMode : Nat)
  | enable
  | disable
  deriving DecidableEq, Repr

/-- What the host has configured in the adapter (R145, R147). No engine rule reads it. -/
structure AdapterCfg where
  baud        : Option Nat
  ackPolarity : Option Nat
  timeoutMode : Option Nat
  enabled     : Bool
  deriving DecidableEq, Repr

/-- One move of the model (R37): which agent moves next and with what. Plain data in the state says it. Log entry 5. -/
inductive Move where
  /-- the host presents one command (with `rst` low and this level of `cfg_poll_limit`) and the model runs it whole,
  acceptance, events and response, in one step (R38); while the engine is busy the command waits (R15) -/
  | command (word : Word) (limit : Count)
  /-- one engine step of R37 under these input levels -/
  | edge (pins : Pins)
  /-- the environment takes steps of its own, ending in `e` (R13, R37) -/
  | env (e : Env)
  /-- the host uses the adapter directly (R147) -/
  | adapter (call : AdapterCall)
  deriving DecidableEq, Repr

/-! ### The engine -/

/-- The operand latches (R18). -/
structure Latches where
  op   : BitVec 4
  dir  : DirField
  ap   : BitVec 1
  addr : SlaveAddr
  reg  : Byte
  data : Byte
  deriving DecidableEq, Repr

/-- Why a step stops with a fault: never. "the engine has no concept of a fatal error; every failure is reported to
the immediate caller as an outcome value" (R11), and R131 tells a model to treat none of the outcomes as a fault. The type is
closed and empty, so no step can answer a fault. -/
inductive Fault where
  deriving DecidableEq, Repr

/-- Why a step is refused. -/
inductive Refusal where
  /-- Raised by an arm of `exec` for an instruction without a meaning; no arm of this model does. Safe. -/
  | notModelled (mnemonic : String)
  /-- Raised by the host's call `configure` when the baud formula underflows or divides by zero: "the value is
  **undefined**: a model refuses a configuration that violates the obligation" (R148). Safe. -/
  | baudUndefined
  /-- Raised by a call of `configure`, `enable` or `disable` while an operation runs: "outside the source; a model
  refuses it (no claim)" (R147). Safe. -/
  | adapterCallDuringOperation
  deriving DecidableEq, Repr

/-- The whole machine. -/
structure State where
  -- registers of the engine
  /-- `L.op`, `L.dir`, `L.ap`, `L.addr`, `L.reg`, `L.data` (R18) -/
  lat       : Latches
  /-- `phase` (R19), observational only -/
  phase     : Phase
  /-- `step` (R20) -/
  stepIx    : BitVec 2
  /-- `poll_cnt` (R21) -/
  pollCnt   : Count
  /-- `busy` (R22) -/
  busy      : Bool
  /-- `LIMIT` (R23) -/
  limit     : Count
  /-- `RXBYTE` (R24) -/
  rxByte    : Byte
  /-- `RSP` (R25) -/
  rsp       : BitVec 16
  /-- `rsp_valid` (R16) -/
  rspValid  : Bool
  /-- `S` (R26) -/
  sample    : Byte
  /-- `fresh` (R27) -/
  fresh     : Bool
  /-- MODEL'S OWN: the position inside the present primitive (log entry 4) -/
  pos       : SeqPos
  -- ports
  /-- the adapter access of the present cycle, from which every strobe is read (R17) -/
  access    : Option Event
  /-- the levels of the inputs (R14, R15) -/
  pins      : Pins
  -- the outside world
  /-- the environment (R13) -/
  env       : Env
  /-- what the host has configured in the adapter (R145) -/
  cfg       : AdapterCfg
  /-- MODEL'S OWN: the moves still to be made, first move first (R37; log entry 5) -/
  moves     : List Move
  -- what a run leaves (R38)
  /-- every adapter event made, oldest first (R37 a) -/
  trace     : List Event
  /-- every response word written, oldest first (R37 b) -/
  responses : List (BitVec 16)
  -- free values
  /-- MODEL'S OWN: how many adapter reads have been made, the index of the environment's next free answer (log entry 2) -/
  reads     : Nat
  /-- MODEL'S OWN: how many responses have been written, the index of the next free `RSP.data` (log entry 1) -/
  replies   : Nat
  deriving DecidableEq, Repr

/-- The latches after reset, "all 0" (R32). -/
def Latches.reset : Latches := ⟨0, 0, 0, 0, 0, 0⟩

/-- The inputs before any host has driven them: no reset, no command (log entry 7). -/
def Pins.undriven : Pins := ⟨false, false, 0, Config.referencePollLimit⟩

/-- The adapter before the host has configured or enabled it (R145; log entry 6). -/
def AdapterCfg.unconfigured : AdapterCfg := ⟨none, none, none, false⟩

/-- The machine right after reset: every register of the engine at its value of R32, the environment unknown (all its
answers are free values, R143), no move prepared, nothing run yet. -/
def State.reset : State where
  lat       := .reset
  phase     := .idle
  stepIx    := 0
  pollCnt   := 0
  busy      := false
  limit     := 0
  rxByte    := 0
  rsp       := 0
  rspValid  := false
  sample    := 0
  fresh     := false
  pos       := .begin
  access    := none
  pins      := .undriven
  env       := .scripted [] []
  cfg       := .unconfigured
  moves     := []
  trace     := []
  responses := []
  reads     := 0
  replies   := 0

end Sys2Proof.Machine
end

