-- ==== Sys2Proof/Machine/Flags.lean ====
section
/-!
DEFINITION. Every flag and code the spec gives: the fields of a status sample (20_memory.md R44), the codes of R45, R19
and R77, and the fields and the packing of the response word (10_state.md R25, 60_exceptions.md R127).
-/

namespace Sys2Proof.Machine

/-! ### The status sample (R44) -/

/-- Bus State codes: 0 Unknown, 1 Idle, 2 Owner, 3 Busy (R44, R78). -/
def BusState.code : BusState → BitVec 2
  | .unknown => 0#2
  | .idle => 1#2
  | .owner => 2#2
  | .busy => 3#2

/-- The Bus State of a 2-bit code (R44). -/
def BusState.ofCode (c : BitVec 2) : BusState :=
  match c.toNat with
  | 0 => .unknown
  | 1 => .idle
  | 2 => .owner
  | _ => .busy

/-- `s.rif`, bit 7. -/
def rifOf (s : Byte) : Bool := s.getLsbD 7

/-- `s.wif`, bit 6. -/
def wifOf (s : Byte) : Bool := s.getLsbD 6

/-- `s.rxnack`, bit 4. -/
def rxnackOf (s : Byte) : Bool := s.getLsbD 4

/-- `s.bus`, bits 1:0. -/
def busOf (s : Byte) : BusState := BusState.ofCode (s.extractLsb' 0 2)

/-- The awaited flag in a sample (R88: "the poll tests nothing but the awaited flag"). -/
def CompletionFlag.seenIn (f : CompletionFlag) (s : Byte) : Bool :=
  match f with
  | .wif => wifOf s
  | .rif => rifOf s

/-- The status byte with bits 5, 3 and 2 zero, bits 7 down to 0 as R65 writes them. -/
def packStatus (rif wif rxnack : Bool) (bus : BusState) : Byte :=
  BitVec.ofBool rif ++ BitVec.ofBool wif ++ 0#1 ++ BitVec.ofBool rxnack ++ 0#2 ++ bus.code

/-! ### Codes -/

/-- Adapter command codes (R45). -/
def AdapterCmd.code : AdapterCmd → BitVec 2
  | .none => 0#2
  | .stop => 1#2
  | .continueReceive => 2#2
  | .nackAndStop => 3#2

/-- The adapter command of a 2-bit code (R45). -/
def AdapterCmd.ofCode (c : BitVec 2) : AdapterCmd :=
  match c.toNat with
  | 0 => .none
  | 1 => .stop
  | 2 => .continueReceive
  | _ => .nackAndStop

/-- `dbg_phase` codes (R19). -/
def Phase.code : Phase → BitVec 3
  | .idle => 0#3
  | .address => 1#3
  | .ackCheck => 2#3
  | .data => 3#3
  | .stop => 4#3

/-- Outcome codes (R77). -/
def TxOutcome.code : TxOutcome → BitVec 3
  | .ok => 0#3
  | .nack => 1#3
  | .busBusy _ => 2#3
  | .invalidDirection => 3#3
  | .sendTimeout => 4#3
  | .receiveTimeout => 5#3

/-- `RSP.obs`: the observed state for BusBusy, 0 otherwise (R127). -/
def TxOutcome.obsCode : TxOutcome → BitVec 2
  | .busBusy b => b.code
  | _ => 0#2

/-- What stands in `RSP.outcome` beside `illegal` = 1; no outcome (R74, R77). -/
def illegalOutcomeCode : BitVec 3 := 7#3

/-! ### The response word (R25) -/

/-- `RSP.outcome`, bits 2:0. -/
def rspOutcome (r : BitVec 16) : BitVec 3 := r.extractLsb' 0 3

/-- `RSP.obs`, bits 4:3. -/
def rspObs (r : BitVec 16) : BitVec 2 := r.extractLsb' 3 2

/-- `RSP.dv`, bit 5. -/
def rspDv (r : BitVec 16) : Bool := r.getLsbD 5

/-- `RSP.illegal`, bit 6. -/
def rspIllegal (r : BitVec 16) : Bool := r.getLsbD 6

/-- Bit 7, reserved, reads 0. -/
def rspReserved (r : BitVec 16) : Bool := r.getLsbD 7

/-- `RSP.data`, bits 15:8. -/
def rspData (r : BitVec 16) : Byte := r.extractLsb' 8 8

/-- The response word from its fields, bit 7 zero (R25). -/
def packRsp (data : Byte) (illegal dv : Bool) (obs : BitVec 2) (outcome : BitVec 3) : BitVec 16 :=
  data ++ 0#1 ++ BitVec.ofBool illegal ++ BitVec.ofBool dv ++ obs ++ outcome

/-- The response of an operation that returns `o`; `dv` says whether it returns a byte (R127). -/
def outcomeRsp (o : TxOutcome) (dv : Bool) (data : Byte) : BitVec 16 := packRsp data false dv o.obsCode o.code

/-- The response of an illegal word (R74, R134). -/
def illegalRsp (data : Byte) : BitVec 16 := packRsp data true false 0#2 illegalOutcomeCode

end Sys2Proof.Machine
end

