-- ==== Sys2Proof/Machine/Operands.lean ====
section
/-!
DEFINITION. Every operand form: the direction field (30_encoding.md R69), the composed byte (40_ack_poll_timeout.md R87),
which flag a wait awaits (R91), the adapter command of a policy (R45, R113), and the step table of the commands
(43_composites.md R123).
-/

namespace Sys2Proof.Machine

/-- The direction a 2-bit field names; 2 and 3 "are **not directions**" (R69). -/
def direction? (d : DirField) : Option Direction :=
  if d = 0#2 then some .write else if d = 1#2 then some .read else none

/-- The field value of a direction: Write 0, Read 1 (R69, R81). -/
def dirField : Direction → DirField
  | .write => 0#2
  | .read => 1#2

/-- `dirbit` of R87. -/
def dirBit : Direction → BitVec 1
  | .write => 0#1
  | .read => 1#1

/-- `Compose(addr, d)` = `{ addr[6:0], dirbit(d) }` (R87). -/
def compose (addr : SlaveAddr) (d : Direction) : Byte := addr ++ dirBit d

/-- The flag an address phase awaits (R91). -/
def addressFlag : Direction → CompletionFlag
  | .write => .wif
  | .read => .rif

/-- The adapter command RECV issues for a policy (R45, R113). -/
def receiveCmd : AckPolicy → AdapterCmd
  | .ack => .continueReceive
  | .nack => .nackAndStop

/-- The primitives a command runs, with their operands (R123). -/
def primsOf : Instr → List Prim
  | .start a d => [.start a d]
  | .rstart a d => [.rstart a d]
  | .stop => [.stop]
  | .send b => [.send b]
  | .recv p => [.recv p]
  | .wrreg a r b => [.start a (dirField .write), .send r, .send b, .stop]
  | .rdreg a r => [.start a (dirField .write), .send r, .rstart a (dirField .read), .recv .nack]
  | .wrbyte a b => [.start a (dirField .write), .send b, .stop]
  | .rdbyte a => [.start a (dirField .read), .recv .nack]

/-- The command the latches hold, as `L.op` selects it (R18, R123); none for an opcode that names no command. -/
def Latches.instr? (l : Latches) : Option Instr :=
  match l.op.toNat with
  | 0x1 => some (.start l.addr l.dir)
  | 0x2 => some (.rstart l.addr l.dir)
  | 0x3 => some .stop
  | 0x4 => some (.send l.data)
  | 0x5 => some (.recv (policyOfCode l.ap))
  | 0x8 => some (.wrreg l.addr l.reg l.data)
  | 0x9 => some (.rdreg l.addr l.reg)
  | 0xA => some (.wrbyte l.addr l.data)
  | 0xB => some (.rdbyte l.addr)
  | _ => none

/-- The latches a command word fills (R35). -/
def latchesOf (w : Word) : Latches := ⟨fieldOp w, fieldDir w, fieldAp w, fieldAddr w, fieldReg w, fieldData w⟩

/-- The rest value a phase leads to (R33): `STOP` to `IDLE`; the end of an address phase and `ACKCHECK` to `DATA`. -/
def Phase.rest : Phase → Phase
  | .idle => .idle
  | .address => .data
  | .ackCheck => .data
  | .data => .data
  | .stop => .idle

/-- `L.op in {RECV, RDREG, RDBYTE}` (R127): the commands that return a byte. -/
def returnsByte : Instr → Bool
  | .recv _ => true
  | .rdreg _ _ => true
  | .rdbyte _ => true
  | _ => false

end Sys2Proof.Machine
end

