-- ==== Sys2Proof/Machine/RefBus.lean ====
section
/-!
DEFINITION. The slave memory and the reference environment `RefBus` (20_memory.md R59 to R66): one slave, a register file with
a pointer, completion after `LAT` status reads. It "is **not** part of the hardware"; it is one environment among those the
model admits (R59).
-/

namespace Sys2Proof.Machine

/-! ### Slave memory -/

/-- The byte at an address: the listed one, else 0x00 (R66). -/
def Memory.read : Memory → Nat → Byte
  | [], _ => 0#8
  | (k, v) :: m, a => if a = k then v else Memory.read m a

/-- Put a byte at an address, the entry going when the byte is what an unlisted address reads as. -/
def Memory.write : Memory → Nat → Byte → Memory
  | [], a, b => if b = 0#8 then [] else [(a, b)]
  | (k, v) :: m, a, b =>
    if a < k then (if b = 0#8 then (k, v) :: m else (a, b) :: (k, v) :: m)
    else if a = k then (if b = 0#8 then m else (a, b) :: m)
    else (k, v) :: Memory.write m a b

/-- Every address of the list is at least `lo`, below 256, strictly rising, and no entry is 0x00. -/
def Memory.wfFrom : Nat → Memory → Bool
  | _, [] => true
  | lo, (k, v) :: m => decide (lo ≤ k) && (decide (k < 256) && (decide (v ≠ 0#8) && Memory.wfFrom (k + 1) m))

/-- The canonical form of a slave memory `mem[0..255]` (R60). -/
def Memory.wf (m : Memory) : Bool := Memory.wfFrom 0 m

namespace RefBus

/-- The initial state and parameters of R66. -/
def initial : RefBus where
  bus    := .idle
  wif    := false
  rif    := false
  rxnack := false
  dreg   := 0#8
  pend   := .none
  mem    := []
  ptr    := 0#8
  mode   := .none
  first  := false
  saddr  := 0x50#7
  lat    := some 0

/-- `W(LAT)`; `W(INF)` is `None` (R60). -/
def pendW (r : RefBus) : Pend :=
  match r.lat with
  | some k => .w k
  | none => .none

/-- `R(LAT)`; `R(INF)` is `None` (R60). -/
def pendR (r : RefBus) : Pend :=
  match r.lat with
  | some k => .r k
  | none => .none

/-- The byte at the register pointer. -/
def pointed (r : RefBus) : Byte := r.mem.read r.ptr.toNat

/-- The slave puts the pointed byte in the data register and moves its pointer on (R61, R64). -/
def fetch (r : RefBus) : RefBus := { r with dreg := r.pointed, ptr := r.ptr + 1#8, pend := r.pendR }

/-- `PA.WriteAddr(b)` (R61). -/
def writeAddr (b : Byte) (r : RefBus) : RefBus :=
  if r.bus = .idle ∨ r.bus = .owner then
    if b.extractLsb' 1 7 = r.saddr then
      if b.getLsbD 0 then
        fetch { r with wif := false, rif := false, bus := .owner, rxnack := false, mode := .tx }
      else
        { r with wif := false, rif := false, bus := .owner, rxnack := false, mode := .rx, first := true, pend := r.pendW }
    else
      { r with wif := false, rif := false, bus := .owner, rxnack := true, mode := .none,
               pend := if b.getLsbD 0 then r.pendR else r.pendW }
  else r

/-- The slave takes a data byte: the first after its write address sets the pointer, each further one is stored (R62). -/
def take (b : Byte) (r : RefBus) : RefBus :=
  if r.first then { r with ptr := b, first := false }
  else { r with mem := r.mem.write r.ptr.toNat b, ptr := r.ptr + 1#8 }

/-- `PA.WriteData(b)` (R62). -/
def writeData (b : Byte) (r : RefBus) : RefBus :=
  if r.bus = .owner then
    let r := { r with wif := false }
    let r := if r.mode = .rx then take b { r with rxnack := false } else { r with rxnack := true }
    { r with pend := r.pendW }
  else r

/-- The address `PA.WriteData` stores to, when it stores (R62). -/
def storeAddr? (r : RefBus) : Option Nat :=
  if r.bus = .owner ∧ r.mode = .rx ∧ r.first = false then some r.ptr.toNat else none

/-- `PA.ReadData()` (R63). -/
def readData (r : RefBus) : Byte := r.dreg

/-- `PA.Command(c)` (R64). -/
def command (c : AdapterCmd) (r : RefBus) : RefBus :=
  let release := if r.bus = .owner then { r with bus := .idle, mode := .none, wif := false, rif := false, pend := .none } else r
  match c with
  | .none => r
  | .stop => release
  | .nackAndStop => release
  | .continueReceive =>
    let r := { r with rif := false, wif := false }
    if r.bus = .owner ∧ r.mode = .tx then fetch r else r

/-- The countdown of a pending completion, "an internal clock of `RefBus` driven by reads" (R65). -/
def tick (r : RefBus) : RefBus :=
  match r.pend with
  | .none => r
  | .w 0 => { r with wif := true, pend := .none }
  | .r 0 => { r with rif := true, pend := .none }
  | .w (k + 1) => { r with pend := .w k }
  | .r (k + 1) => { r with pend := .r k }

/-- The status byte as it stands (R65). -/
def status (r : RefBus) : Byte := packStatus r.rif r.wif r.rxnack r.bus

/-- What holds of every state `RefBus` can be in (DEDUCED from R61 to R66, log entry 8): the memory is canonical, and while the
bus is not owned no flag stands, no completion is pending and the slave is in no mode. -/
def wf (r : RefBus) : Bool :=
  r.mem.wf && (decide (r.bus = .owner) ||
    (!r.wif && (!r.rif && (decide (r.pend = .none) && decide (r.mode = .none)))))

end RefBus

end Sys2Proof.Machine
end

