-- ==== Sys2Proof/Machine/Ops.lean ====
section
/-!
DEFINITION. The operations every command shares: the environment's answers, the five adapter primitives (00_scope.md R10),
the bounded poll and the acknowledgment check (40_ack_poll_timeout.md R88, R92), running a list of primitives
(43_composites.md R115), writing the response (60_exceptions.md R127, the block's "trap entry"), accepting a command
(10_state.md R35), answering an illegal word (60_exceptions.md R134) and reset (10_state.md R32).
-/

namespace Sys2Proof.Machine

/-! ### The environment's side of an access (R13) -/

/-- The answer to a status read and the environment after it; `free` answers when a script has run out. -/
def Env.readStatus (free : Byte) : Env → Byte × Env
  | .scripted [] ds => (free, .scripted [] ds)
  | .scripted (b :: bs) ds => (b, .scripted bs ds)
  | .refBus r => (r.tick.status, .refBus r.tick)

/-- The answer to a data read and the environment after it. -/
def Env.readData (free : Byte) : Env → Byte × Env
  | .scripted bs [] => (free, .scripted bs [])
  | .scripted bs (d :: ds) => (d, .scripted bs ds)
  | .refBus r => (r.readData, .refBus r)

/-- The environment after an address write (R41, R61). -/
def Env.writeAddr (b : Byte) : Env → Env
  | .scripted bs ds => .scripted bs ds
  | .refBus r => .refBus (r.writeAddr b)

/-- The environment after a data write (R42, R62). -/
def Env.writeData (b : Byte) : Env → Env
  | .scripted bs ds => .scripted bs ds
  | .refBus r => .refBus (r.writeData b)

/-- The environment after an adapter command (R45, R64). -/
def Env.command (c : AdapterCmd) : Env → Env
  | .scripted bs ds => .scripted bs ds
  | .refBus r => .refBus (r.command c)

/-- The environment after one adapter event, when the event's value is the environment's answer (for a read) or the
engine's (for a write); `none` when an answer is not the environment's. -/
def Env.respond (free : Byte) (e : Env) : Event → Option Env
  | .readStatus b => if (e.readStatus free).1 = b then some (e.readStatus free).2 else none
  | .readData b => if (e.readData free).1 = b then some (e.readData free).2 else none
  | .writeAddr b => some (e.writeAddr b)
  | .writeData b => some (e.writeData b)
  | .command c => some (e.command c)

/-- Whether an event is a read, which the counter of answers counts. -/
def Event.isRead : Event → Bool
  | .readStatus _ => true
  | .readData _ => true
  | _ => false

/-- The environment after a list of events, each answered by it; `none` when some answer is not the environment's. -/
def Env.replay : Nat → Env → List Event → Option Env
  | _, e, [] => some e
  | n, e, ev :: evs =>
    match e.respond (Config.freeAnswer n) ev with
    | some e' => Env.replay (if ev.isRead then n + 1 else n) e' evs
    | none => none

namespace State

/-- The slave memory of the environment; a scripted environment shows none. -/
def memory (s : State) : Memory :=
  match s.env with
  | .refBus r => r.mem
  | .scripted _ _ => []

/-- One byte of the slave memory. -/
def readMem (s : State) (a : Nat) : Byte := s.memory.read a

/-! ### The adapter primitives (R10, R17, R41 to R45) -/

/-- `s0 <- PA.ReadStatus()`: the sample goes to the register `S` (R26). -/
def paReadStatus (s : State) : State :=
  { s with
    sample := (s.env.readStatus (Config.freeAnswer s.reads)).1
    env    := (s.env.readStatus (Config.freeAnswer s.reads)).2
    access := some (.readStatus (s.env.readStatus (Config.freeAnswer s.reads)).1)
    trace  := s.trace ++ [.readStatus (s.env.readStatus (Config.freeAnswer s.reads)).1]
    reads  := s.reads + 1 }

/-- `RXBYTE <- PA.ReadData()` (R43, R110). -/
def paReadData (s : State) : State :=
  { s with
    rxByte := (s.env.readData (Config.freeAnswer s.reads)).1
    env    := (s.env.readData (Config.freeAnswer s.reads)).2
    access := some (.readData (s.env.readData (Config.freeAnswer s.reads)).1)
    trace  := s.trace ++ [.readData (s.env.readData (Config.freeAnswer s.reads)).1]
    reads  := s.reads + 1 }

/-- `PA.WriteAddr(b)` (R41). -/
def paWriteAddr (b : Byte) (s : State) : State :=
  { s with env := s.env.writeAddr b, access := some (.writeAddr b), trace := s.trace ++ [.writeAddr b] }

/-- `PA.WriteData(b)` (R42). -/
def paWriteData (b : Byte) (s : State) : State :=
  { s with env := s.env.writeData b, access := some (.writeData b), trace := s.trace ++ [.writeData b] }

/-- `PA.Command(c)` (R45). -/
def paCommand (c : AdapterCmd) (s : State) : State :=
  { s with env := s.env.command c, access := some (.command c), trace := s.trace ++ [.command c] }

/-- `MemWrite(loc, 1, v)` in the adapter capability space (R10, R40, R45); a location that is "not a capability" takes no
write. -/
def capWrite (loc : BitVec 2) (v : Byte) (s : State) : Option State :=
  match loc.toNat with
  | 0 => some (s.paWriteAddr v)
  | 1 => some (s.paWriteData v)
  | 3 => some (s.paCommand (AdapterCmd.ofCode (v.extractLsb' 0 2)))
  | _ => none

/-- `MemRead(loc, 1)` in the adapter capability space (R10, R40): the byte read and the state after. -/
def capRead (loc : BitVec 2) (s : State) : Option (Byte × State) :=
  match loc.toNat with
  | 1 => some (s.paReadData.rxByte, s.paReadData)
  | 2 => some (s.paReadStatus.sample, s.paReadStatus)
  | _ => none

/-! ### The bounded poll (R88) -/

/-- One poll iteration: `s <- PA.ReadStatus(); poll_cnt <- poll_cnt + 1` (R88). -/
def pollOnce (s : State) : State := { s.paReadStatus with pollCnt := s.pollCnt + 1#16 }

/-- At most `n` more iterations, ending at the first that sees the flag (R88, R89). -/
def pollLoop (f : CompletionFlag) : Nat → State → PollResult × State
  | 0, s => (.expired, s)
  | n + 1, s => if f.seenIn s.pollOnce.sample then (.done, s.pollOnce) else pollLoop f n s.pollOnce

/-- `Poll(f)` (R88): from `poll_cnt` = 0, while `poll_cnt < LIMIT`. -/
def poll (f : CompletionFlag) (s : State) : PollResult × State := pollLoop f s.limit.toNat { s with pollCnt := 0#16 }

/-! ### The acknowledgment check (R92) -/

/-- `AckCheck(s, kind)` on the sample that stands in `S` (R92, R93). -/
def ackCheck (kind : AckKind) (s : State) : TxOutcome × State :=
  let s := { s with phase := .ackCheck }
  if rxnackOf s.sample then
    match kind with
    | .freshAddress => (.nack, { ({ s with phase := .stop } : State).paCommand .stop with phase := .idle })
    | .repeatedAddress => (.nack, { s with phase := .data })
    | .dataSent => (.nack, { s with phase := .data })
  else (.ok, { s with phase := .data })

/-! ### Sequencing (R115) -/

/-- A step of a composite followed by the rest: `step <- step + 1` and go on when the outcome is Ok, else end at once with
the outcome unchanged (R115). -/
def andThen (r : TxOutcome × State) (next : State → TxOutcome × State) : TxOutcome × State :=
  match r with
  | (.ok, s) => next { s with stepIx := s.stepIx + 1#2 }
  | (o, s) => (o, s)

/-! ### The response (R127, R134, R36) -/

/-- Write a response word and end the operation: `rsp_valid <- 1; busy <- 0` (R36, R127). The byte offered as free is used up. -/
def writeResponse (r : BitVec 16) (s : State) : State :=
  { s with
    rsp := r, rspValid := true, busy := false, pos := .begin, access := none
    responses := s.responses ++ [r], replies := s.replies + 1 }

/-- `return X(info)` (R127): `byte` says that the command is one that returns a byte; without a byte `RSP.data` is a free
value (R122). -/
def respond (byte : Bool) (o : TxOutcome) (s : State) : State :=
  s.writeResponse
    (outcomeRsp o (byte && decide (o = .ok)) (if byte && decide (o = .ok) then s.rxByte else Config.freeByte s.replies))

/-- The end of an operation whose last step has returned (R36). -/
def finish (byte : Bool) (r : TxOutcome × State) : State := r.2.respond byte r.1

/-! ### Acceptance, illegal words and reset -/

/-- Acceptance of a legal command word (R35). -/
def accept (w : Word) (limit : Count) (s : State) : State :=
  { s with
    lat := latchesOf w, limit := limit, stepIx := 0#2, pollCnt := 0#16, busy := true, rspValid := false
    pos := .begin, access := none }

/-- An illegal word: "accepted like any other", "makes **no adapter access**, changes no state of the engine but `RSP`,
`rsp_valid` and the latches, and ends at once" (R74, R134). `RSP.data` is a free value. Log entries 9 and 10. -/
def answerIllegal (w : Word) (s : State) : State :=
  ({ s with lat := latchesOf w } : State).writeResponse (illegalRsp (Config.freeByte s.replies))

/-- Reset of the engine (R32, R141): every register at its reset value, whatever the engine was doing, and nothing outside
the engine touched (R143). -/
def resetEngine (s : State) : State :=
  { State.reset with
    pins := s.pins, env := s.env, cfg := s.cfg, moves := s.moves
    trace := s.trace, responses := s.responses, reads := s.reads, replies := s.replies }

end State

/-! ### Outputs (R16, R17) -/

/-- The outputs of the host ports (R15, R16). -/
structure HostOutputs where
  cmdReady : Bool
  rspValid : Bool
  rspWord  : BitVec 16
  busy     : Bool
  dbgPhase : BitVec 3
  deriving DecidableEq, Repr

/-- `cmd_ready` is the complement of `busy` (R15, R22); the others show their registers (R16). -/
def State.hostOutputs (s : State) : HostOutputs := ⟨!s.busy, s.rspValid, s.rsp, s.busy, s.phase.code⟩

/-- The outputs of the adapter bundle in one cycle (R17); a data line is driven only beside its strobe. -/
structure Strobes where
  addrWe   : Bool
  dataWe   : Bool
  dataRe   : Bool
  statusRe : Bool
  cmdWe    : Bool
  wdata    : Option Byte
  cmd      : Option (BitVec 2)
  deriving DecidableEq, Repr

/-- The strobes of an event; all 0 when the engine makes no access (R17). -/
def strobesOf : Option Event → Strobes
  | none => ⟨false, false, false, false, false, none, none⟩
  | some (.writeAddr b) => ⟨true, false, false, false, false, some b, none⟩
  | some (.writeData b) => ⟨false, true, false, false, false, some b, none⟩
  | some (.readData _) => ⟨false, false, true, false, false, none, none⟩
  | some (.readStatus _) => ⟨false, false, false, true, false, none, none⟩
  | some (.command c) => ⟨false, false, false, false, true, none, some c.code⟩

/-- The strobes of the present cycle. -/
def State.strobes (s : State) : Strobes := strobesOf s.access

end Sys2Proof.Machine
end

