-- ==== Sys2Proof/Machine/AdapterCalls.lean ====
section
/-!
DEFINITION. The host's calls on the adapter that bypass the engine (70_reset_and_hazards.md R145, R147) and the baud formula
(R148).
-/

namespace Sys2Proof.Machine

/-- `SYSTEM_CLOCK / (2 * TARGET_BUS_SPEED) - 5` over natural numbers, "the division rounding down"; no result when it
underflows or divides by zero (R148). -/
def baudValue? (systemClock targetBusSpeed : Nat) : Option Nat :=
  if targetBusSpeed = 0 then none
  else if systemClock / (2 * targetBusSpeed) < 5 then none
  else some (systemClock / (2 * targetBusSpeed) - 5)

/-- One call, at rest; "while an operation runs" it "is outside the source; a model refuses it (no claim)" (R147). -/
def adapterCall (c : AdapterCall) (s : State) : Host.Outcome State Fault Refusal :=
  if s.busy then .refused .adapterCallDuringOperation
  else
    match c with
    | .configure clk speed pol tmo =>
      match baudValue? clk speed with
      | none => .refused .baudUndefined
      | some b => .next { s with cfg := { s.cfg with baud := some b, ackPolarity := some pol, timeoutMode := some tmo } }
    | .enable => .next { s with cfg := { s.cfg with enabled := true } }
    | .disable => .next { s with cfg := { s.cfg with enabled := false } }

end Sys2Proof.Machine
end

