-- ==== Sys2Proof/Machine/ByteTransfer.lean ====
section
/-!
DEFINITION. `byte_transfer_sequencer`, primitives (42_byte_transfer.md): the steps SEND (R108) and RECV (R110), and the two
commands.
-/

namespace Sys2Proof.Machine

/-- The step SEND (R108). -/
def sendStep (b : Byte) (s : State) : TxOutcome × State :=
  let s := s.paReadStatus
  if busOf s.sample ≠ .owner then (.busBusy (busOf s.sample), s)
  else
    match ({ s.paWriteData b with phase := .data } : State).poll .wif with
    | (.expired, s) => (.sendTimeout, s)
    | (.done, s) => s.ackCheck .dataSent

/-- Lines 3 and 4 of RECV (R110): capture the byte, then issue the command of the policy; with policy Nack "the last read
and the stop are one action" (R111). -/
def receiveByte (p : AckPolicy) (s : State) : State :=
  let s := { s.paReadData with phase := .ackCheck }
  match p with
  | .ack => { s.paCommand (receiveCmd .ack) with phase := .data }
  | .nack => { ({ s with phase := .stop } : State).paCommand (receiveCmd .nack) with phase := .idle }

/-- The step RECV (R110). -/
def recvStep (p : AckPolicy) (s : State) : TxOutcome × State :=
  let s := s.paReadStatus
  if busOf s.sample ≠ .owner then (.busBusy (busOf s.sample), s)
  else
    match ({ s with phase := .data } : State).poll .rif with
    | (.expired, s) => (.receiveTimeout, s)
    | (.done, s) => (.ok, receiveByte p s)

/-- `SEND data` (R108). -/
def execSend (data : Byte) (s : State) : Host.Outcome State Fault Refusal :=
  .next (State.finish false (sendStep data s))

/-- `RECV ap` (R110). -/
def execRecv (ap : AckPolicy) (s : State) : Host.Outcome State Fault Refusal :=
  .next (State.finish true (recvStep ap s))

end Sys2Proof.Machine
end

