-- ==== Sys2Proof/Machine/StartStop.lean ====
section
/-!
DEFINITION. `start_stop_condition_generator` (41_start_stop.md): the primitive steps START (R98), RSTART (R100) and STOP
(R102), and the three commands.
-/

namespace Sys2Proof.Machine

/-- The address phase START and RSTART share from line 3 on: the address write, the wait for the flag of the direction,
and the acknowledgment check (R98, R100, R104). -/
def addressPhase (kind : AckKind) (addr : SlaveAddr) (d : Direction) (s : State) : TxOutcome × State :=
  match ({ s.paWriteAddr (compose addr d) with phase := .address } : State).poll (addressFlag d) with
  | (.expired, s) => (.sendTimeout, { s with phase := .data })
  | (.done, s) => s.ackCheck kind

/-- The step START (R98). -/
def startStep (addr : SlaveAddr) (dir : DirField) (s : State) : TxOutcome × State :=
  match direction? dir with
  | none => (.invalidDirection, s)
  | some d =>
    let s := s.paReadStatus
    if busOf s.sample ≠ .idle then (.busBusy (busOf s.sample), s)
    else addressPhase .freshAddress addr d { s with fresh := true }

/-- The step RSTART (R100). -/
def rstartStep (addr : SlaveAddr) (dir : DirField) (s : State) : TxOutcome × State :=
  match direction? dir with
  | none => (.invalidDirection, s)
  | some d =>
    let s := s.paReadStatus
    if busOf s.sample ≠ .owner then (.busBusy (busOf s.sample), s)
    else addressPhase .repeatedAddress addr d { s with fresh := false }

/-- The step STOP (R102). -/
def stopStep (s : State) : TxOutcome × State :=
  (.ok, { ({ s with phase := .stop } : State).paCommand .stop with phase := .idle })

/-- `START addr, dir` (R98). -/
def execStart (addr : SlaveAddr) (dir : DirField) (s : State) : Host.Outcome State Fault Refusal :=
  .next (State.finish false (startStep addr dir s))

/-- `RSTART addr, dir` (R100). -/
def execRstart (addr : SlaveAddr) (dir : DirField) (s : State) : Host.Outcome State Fault Refusal :=
  .next (State.finish false (rstartStep addr dir s))

/-- `STOP` (R102). -/
def execStop (s : State) : Host.Outcome State Fault Refusal :=
  .next (State.finish false (stopStep s))

end Sys2Proof.Machine
end

