-- ==== Sys2Proof/Machine/Composite.lean ====
section
/-!
DEFINITION. `byte_transfer_sequencer`, composites (43_composites.md): WRREG (R116), RDREG (R117), WRBYTE (R118) and RDBYTE
(R119), each "a fixed list of steps" that ends at the first outcome that is not Ok (R115).
-/

namespace Sys2Proof.Machine

/-- The steps of WRREG (R116). -/
def wrregSteps (addr : SlaveAddr) (reg data : Byte) (s : State) : TxOutcome × State :=
  State.andThen (startStep addr (dirField .write) s) fun s =>
  State.andThen (sendStep reg s) fun s =>
  State.andThen (sendStep data s) fun s =>
  stopStep s

/-- The steps of RDREG (R117). -/
def rdregSteps (addr : SlaveAddr) (reg : Byte) (s : State) : TxOutcome × State :=
  State.andThen (startStep addr (dirField .write) s) fun s =>
  State.andThen (sendStep reg s) fun s =>
  State.andThen (rstartStep addr (dirField .read) s) fun s =>
  recvStep .nack s

/-- The steps of WRBYTE (R118). -/
def wrbyteSteps (addr : SlaveAddr) (data : Byte) (s : State) : TxOutcome × State :=
  State.andThen (startStep addr (dirField .write) s) fun s =>
  State.andThen (sendStep data s) fun s =>
  stopStep s

/-- The steps of RDBYTE (R119). -/
def rdbyteSteps (addr : SlaveAddr) (s : State) : TxOutcome × State :=
  State.andThen (startStep addr (dirField .read) s) fun s =>
  recvStep .nack s

/-- `WRREG addr, reg, data` (R116). -/
def execWrreg (addr : SlaveAddr) (reg data : Byte) (s : State) : Host.Outcome State Fault Refusal :=
  .next (State.finish false (wrregSteps addr reg data s))

/-- `RDREG addr, reg` (R117). -/
def execRdreg (addr : SlaveAddr) (reg : Byte) (s : State) : Host.Outcome State Fault Refusal :=
  .next (State.finish true (rdregSteps addr reg s))

/-- `WRBYTE addr, data` (R118). -/
def execWrbyte (addr : SlaveAddr) (data : Byte) (s : State) : Host.Outcome State Fault Refusal :=
  .next (State.finish false (wrbyteSteps addr data s))

/-- `RDBYTE addr` (R119). -/
def execRdbyte (addr : SlaveAddr) (s : State) : Host.Outcome State Fault Refusal :=
  .next (State.finish true (rdbyteSteps addr s))

end Sys2Proof.Machine
end

