-- ==== Sys2Proof/Machine/Dispatch.lean ====
section
/-!
DEFINITION. One arm per command of 30_encoding.md R72, each one call of that command's meaning.
-/

namespace Sys2Proof.Machine

def exec (i : Instr) (s : State) : Host.Outcome State Fault Refusal :=
  match i with
  | .start addr dir => Sys2Proof.Machine.execStart addr dir s
  | .rstart addr dir => Sys2Proof.Machine.execRstart addr dir s
  | .stop => Sys2Proof.Machine.execStop s
  | .send data => Sys2Proof.Machine.execSend data s
  | .recv ap => Sys2Proof.Machine.execRecv ap s
  | .wrreg addr reg data => Sys2Proof.Machine.execWrreg addr reg data s
  | .rdreg addr reg => Sys2Proof.Machine.execRdreg addr reg s
  | .wrbyte addr data => Sys2Proof.Machine.execWrbyte addr data s
  | .rdbyte addr => Sys2Proof.Machine.execRdbyte addr s

end Sys2Proof.Machine
end

