-- ==== Sys2Proof/Machine/Presentation.lean ====
section
/-!
DEFINITION. A command presented on the ports of the engine at rest (10_state.md R35, R38; 30_encoding.md R74).
-/

namespace Sys2Proof.Machine

/-- The input levels while the host presents one command and then lowers `cmd_valid` (R15, R38). -/
def commandPins (w : Word) (limit : Count) : Pins := ⟨false, false, w, limit⟩

/-- A command presented to an engine at rest: accepted and run whole, or answered as illegal (R35, R36, R74). -/
def runCommand (w : Word) (limit : Count) (s : State) : Host.Outcome State Fault Refusal :=
  match decode w with
  | .ok i => exec i (s.accept w limit)
  | .error _ => .next (s.answerIllegal w)

end Sys2Proof.Machine
end

