-- ==== Sys2Proof/Machine/Sequencer.lean ====
section
/-!
DEFINITION. The engine at the granularity of 10_state.md R37: "One step of the engine agent is: accept a command, or make
the next adapter event of the running operation (with the register updates that follow it up to the next event), or end
the operation". It reads the operands from the latches (R18) and the step table (43_composites.md R123), and is written
apart from the meanings of the commands, so that the two can be proved to agree. Between two of these steps the
environment may move, the input levels may change, and `rst` may end the operation early (R144).

`phase` after a step is the value its event leads to and the engine stays in: `ACKCHECK` once the awaited flag or the byte
has been seen, `STOP` once a stop command has been made (R33). The rest value that follows is taken at the beginning of the next
step, with which the passage costs no step and no event of its own. Log entry 13.
-/

namespace Sys2Proof.Machine

namespace State

/-- The primitives of the command the latches hold (R123). -/
def prims (s : State) : List Prim :=
  match s.lat.instr? with
  | some i => primsOf i
  | none => []

/-- The primitive being executed, by `step` (R20, R115). -/
def currentPrim (s : State) : Option Prim := s.prims[s.stepIx.toNat]?

/-- `step` is the index of the command's last primitive. -/
def onLastStep (s : State) : Bool := decide (s.prims.length ≤ s.stepIx.toNat + 1)

/-- The command the latches hold returns a byte (R127, `L.op in {RECV, RDREG, RDBYTE}`). -/
def latchReturnsByte (s : State) : Bool :=
  match s.lat.instr? with
  | some i => returnsByte i
  | none => false

/-- The state in which the next primitive of a composite begins: `step <- step + 1` (R115). -/
def nextStep (s : State) : State := { s with stepIx := s.stepIx + 1#2, pos := .begin }

/-- Start a wait (R88: `poll_cnt <- 0`). -/
def startWait (p : Phase) (s : State) : State := { s with phase := p, pollCnt := 0#16, pos := .poll }

end State

/-- The Bus State a primitive's precondition requires; STOP has none (R98, R100, R102, R107). -/
def Prim.required? : Prim → Option BusState
  | .start _ _ => some .idle
  | .rstart _ _ => some .owner
  | .stop => none
  | .send _ => some .owner
  | .recv _ => some .owner

/-- The direction check, before any access (R129 item 2): only START and RSTART have one (R69). -/
def Prim.directionOk : Prim → Bool
  | .start _ d => (direction? d).isSome
  | .rstart _ d => (direction? d).isSome
  | _ => true

/-- The direction of a START or RSTART; Write stands where there is none to read. -/
def Prim.direction : Prim → Direction
  | .start _ d => (direction? d).getD .write
  | .rstart _ d => (direction? d).getD .write
  | _ => .write

/-- The flag a primitive's wait awaits (R91). -/
def Prim.flag : Prim → CompletionFlag
  | .start a d => addressFlag (Prim.start a d).direction
  | .rstart a d => addressFlag (Prim.rstart a d).direction
  | .recv _ => .rif
  | _ => .wif

/-- What a primitive returns when its wait expires (R94). -/
def Prim.timeout : Prim → TxOutcome
  | .recv _ => .receiveTimeout
  | _ => .sendTimeout

/-- The first event of a primitive: STOP's command, which leaves `phase` at `STOP` (R102), or the precondition read and
its test. -/
def beginStep (p : Prim) (s : State) : State :=
  match p.required? with
  | none => { ({ s with phase := .stop } : State).paCommand .stop with pos := .done .ok }
  | some b =>
    let s := s.paReadStatus
    if busOf s.sample ≠ b then { s with pos := .done (.busBusy (busOf s.sample)) }
    else
      match p with
      | .recv _ => s.startWait .data
      | _ => { s with pos := .write }

/-- A primitive from its beginning: the direction check (R98 line 1), which ends the operation before any event, and the
first event. -/
def beginPrim (p : Prim) (s : State) : State :=
  if p.directionOk then beginStep p s else s.respond s.latchReturnsByte .invalidDirection

/-- The primitive has returned `o`, `phase` being at its rest value (R33, R115): the first event of the next primitive, "no
adapter event between two steps", or the end of the operation. -/
def advance (o : TxOutcome) (s : State) : State :=
  if o = .ok ∧ s.onLastStep = false then
    match s.nextStep.currentPrim with
    | some q => beginPrim q s.nextStep
    | none => s.nextStep
  else s.respond s.latchReturnsByte o

/-- `phase` takes the rest value it leads to, and the engine goes on with the outcome `o`. -/
def settle (o : TxOutcome) (s : State) : State := advance o { s with phase := s.phase.rest }

/-- The write that starts the wait (R98, R100, R108). -/
def writeStep (p : Prim) (s : State) : State :=
  match p with
  | .start a _ => (({ s with fresh := true } : State).paWriteAddr (compose a p.direction)).startWait .address
  | .rstart a _ => (({ s with fresh := false } : State).paWriteAddr (compose a p.direction)).startWait .address
  | .send b => (s.paWriteData b).startWait .data
  | .stop => s
  | .recv _ => s

/-- The awaited flag has been seen in `S`: `phase` goes to `ACKCHECK` (R33, R92), or in RECV the data read is next (R110). -/
def completionStep (p : Prim) (s : State) : State :=
  match p with
  | .recv _ => { s with pos := .dataRead }
  | _ => { s with phase := .ackCheck, pos := .ackCheck }

/-- One poll iteration, or the expiry that ends the operation (R88, R94). -/
def pollStep (p : Prim) (s : State) : State :=
  if s.pollCnt < s.limit then
    let s := s.pollOnce
    if p.flag.seenIn s.sample then completionStep p s else s
  else State.respond s.latchReturnsByte p.timeout { s with phase := .data }

/-- The acknowledgment check (R92) on the sample in `S`, whose implicit stop depends on `fresh` (R27) and leaves `phase` at
`STOP`. -/
def ackCheckStep (p : Prim) (s : State) : State :=
  match p with
  | .send _ => settle (if rxnackOf s.sample then .nack else .ok) s
  | _ =>
    if rxnackOf s.sample then
      if s.fresh then { ({ s with phase := .stop } : State).paCommand .stop with pos := .done .nack } else settle .nack s
    else settle .ok s

/-- The data read of RECV, after which `phase` is `ACKCHECK` (R110 lines 3 and 4). -/
def dataReadStep (p : Prim) (s : State) : State :=
  match p with
  | .recv _ => { s.paReadData with phase := .ackCheck, pos := .receiveCommand }
  | _ => s

/-- The command of RECV's policy (R110 line 4), made in `ACKCHECK` for Ack and in `STOP` for Nack. -/
def receiveCommandStep (p : Prim) (s : State) : State :=
  match p with
  | .recv .ack => { s.paCommand (receiveCmd .ack) with pos := .done .ok }
  | .recv .nack => { ({ s with phase := .stop } : State).paCommand (receiveCmd .nack) with pos := .done .ok }
  | _ => s

/-- One engine step of a running operation (R37). With no primitive to run (a state no acceptance leads to) the engine stays. -/
def engineStep (s : State) : State :=
  match s.currentPrim with
  | none => s
  | some p =>
    match s.pos with
    | .begin => beginPrim p s
    | .write => writeStep p s
    | .poll => pollStep p s
    | .ackCheck => ackCheckStep p s
    | .dataRead => dataReadStep p s
    | .receiveCommand => receiveCommandStep p s
    | .done o => settle o s

/-- One clock edge of the engine under the levels of its inputs (R14, R15, R141): reset wins; a running operation goes on
and a presented command waits; at rest a presented command is accepted, an illegal one answered at once (R134); else
nothing happens and no access is made. -/
def clockEdge (s : State) : State :=
  if s.pins.rst then s.resetEngine
  else if s.busy then engineStep s
  else if s.pins.cmdValid then
    match decode s.pins.cmdWord with
    | .ok _ => s.accept s.pins.cmdWord s.pins.cfgPollLimit
    | .error _ => s.answerIllegal s.pins.cmdWord
  else { s with access := none }

/-- `n` engine steps of the running operation, staying at rest once it has ended. -/
def runEngine : Nat → State → State
  | 0, s => s
  | n + 1, s => if s.busy then runEngine n (engineStep s) else s

end Sys2Proof.Machine
end

