-- ==== Sys2Proof/Machine/Step.lean ====
section
/-!
DEFINITION. One step of the machine: the next move of the outside world (10_state.md R37, R38), and what the engine does
under it.
-/

namespace Sys2Proof.Machine

/-- The next move. With no move prepared the inputs keep their levels and the engine takes one step of R37. -/
def step (s : State) : Host.Outcome State Fault Refusal :=
  match s.moves with
  | [] => .next (clockEdge s)
  | .command w limit :: rest =>
    if s.busy then .next (engineStep s)
    else runCommand w limit { s with moves := rest, pins := commandPins w limit }
  | .edge p :: rest => .next (clockEdge { s with moves := rest, pins := p })
  | .env e :: rest => .next { s with moves := rest, env := e }
  | .adapter c :: rest => adapterCall c { s with moves := rest }

/-- `s` with a command of `nbits` bits `w` as the next move, presented to an engine at rest under the present level of
`cfg_poll_limit`: the block fetches nothing, "commands arrive on a port and are not fetched" (R39). Log entry 5. -/
def State.withFetchWord (s : State) (nbits w : Nat) : State :=
  { s with busy := false, moves := .command (BitVec.ofNat 32 (w % 2 ^ nbits)) s.pins.cfgPollLimit :: s.moves }

end Sys2Proof.Machine
end

