-- ==== Sys2Proof/Machine/Contract.lean ====
section
/-!
DEFINITION. The adapter contract (20_memory.md R52 to R58) as named premises on an environment, "not as a property of the
engine", over any environment whatever: a state type, the moves its adapter events and its own activity allow, what its state shows,
and a record of what is on the bus, which every move must keep. `RefBus` is one such environment.
-/

namespace Sys2Proof.Machine

/-! ### What happens on the bus -/

/-- One thing this master or its slave does on the bus (R47, R53, R57, R58). -/
inductive BusItem where
  | start
  | repeatedStart
  /-- a byte of this master, most recent address or data byte handed over, with its acknowledgment slot -/
  | sent (b : Byte) (acked : Bool)
  /-- a byte of the addressed slave -/
  | received (b : Byte)
  /-- this master's acknowledgment of a received byte -/
  | ack
  | nack
  | stop
  deriving DecidableEq, Repr

/-- Who holds the bus, as the glossary defines ownership (R12, R56). `unclear` is the time after a fault of the bus or a failed start,
on which the spec is silent (DESIGN CHOICE, log entry 22). -/
inductive Holder where
  | free
  | ours
  | theirs
  | unclear
  deriving DecidableEq, Repr

/-- What the adapter has been asked for and has not finished: an address byte (with its start condition made or not yet), a data
byte, a byte to receive. -/
inductive Pending where
  | none
  | address (b : Byte) (begun : Bool)
  | data (b : Byte)
  | receive
  deriving DecidableEq, Repr

/-- A byte of this master that is over, with what its slot said. -/
structure SentByte where
  byte      : Byte
  isAddress : Bool
  acked     : Bool
  deriving DecidableEq, Repr

/-- The record of what is on the bus. `last` is the sent byte whose completion the standing flags report (R55); `reading` says
that an address byte with direction Read was acknowledged and the transaction goes on, `byte` is the byte received and not yet
followed by an access that asks for something (R58); `stopped` says that this master's stop was made and no one has started since
(R57). -/
structure Wire where
  items   : List BusItem
  holder  : Holder
  pending : Pending
  last    : Option SentByte
  reading : Bool
  byte    : Option Byte
  stopped : Bool
  deriving DecidableEq, Repr

/-- A move of an environment: its part in an adapter event of the engine (a read's answer being part of the event), or a move of
its own. -/
inductive Act where
  | engine (ev : Event)
  /-- time passes -/
  | time
  /-- the start or repeated start condition asked for is made -/
  | startMade
  /-- the byte being sent and its acknowledgment slot are over -/
  | sentOver (acked : Bool)
  /-- a byte of the slave is over; after an acknowledged address byte with direction Read, that address byte too -/
  | readOver (x : Byte)
  /-- the start asked for fails ("unless the start failed", R53) -/
  | startFails
  /-- "a fault of the bus" (R56) -/
  | fault
  /-- another participant takes the bus -/
  | otherStarts
  /-- the bus becomes free other than by this master's stop -/
  | busFreed
  deriving DecidableEq, Repr

/-- A move of the environment's own. -/
def Act.own : Act → Bool
  | .engine _ => false
  | _ => true

namespace Wire

/-- `PA.WriteAddr(b)`: the byte is handed over (R53). -/
def asked (b : Byte) (w : Wire) : Wire := { w with pending := .address b false, last := none, reading := false, byte := none }

/-- The condition is made: a repeated start on a bus this master holds, else a start, after which this master holds it. -/
def started (w : Wire) : Wire :=
  match w.pending with
  | .address b _ =>
    { w with
      items := w.items ++ [if w.holder = .ours then .repeatedStart else .start]
      holder := .ours, pending := .address b true, stopped := false }
  | _ => w

/-- `PA.WriteData(b)` (R42): the byte becomes what is under way, also in a transaction opened for reading, where the spec leaves it to the
environment (R109 (c), U6) and a receive under way is dropped here (DESIGN CHOICE, log entry 23). -/
def handed (b : Byte) (w : Wire) : Wire := { w with pending := .data b, last := none, byte := none }

/-- The byte being sent is over. -/
def sentOver (acked : Bool) (w : Wire) : Wire :=
  match w.pending with
  | .address b _ => { w with items := w.items ++ [.sent b acked], pending := .none, last := some ⟨b, true, acked⟩ }
  | .data b => { w with items := w.items ++ [.sent b acked], pending := .none, last := some ⟨b, false, acked⟩ }
  | _ => w

/-- A byte of the slave is over, with the acknowledged address byte before it when there is one under way. -/
def readOver (x : Byte) (w : Wire) : Wire :=
  match w.pending with
  | .address b _ =>
    { w with
      items := w.items ++ [.sent b true, .received x], pending := .none, last := some ⟨b, true, true⟩, reading := true
      byte := some x }
  | .receive => { w with items := w.items ++ [.received x], pending := .none, last := none, byte := some x }
  | _ => w

/-- `PA.Command(continue-receive)`: the acknowledgment, and the next byte is awaited (R58). -/
def continued (w : Wire) : Wire :=
  { w with items := w.items ++ [.ack], pending := .receive, last := none, byte := none }

/-- This master's stop, after what it sends before it (R57). -/
def released (before : List BusItem) (w : Wire) : Wire :=
  { w with
    items := w.items ++ before ++ [.stop], holder := .free, pending := .none, last := none, reading := false, byte := none
    stopped := true }

/-- The same things on the bus and the same holder; of what is under way nothing is said. -/
def SameBus (w w' : Wire) : Prop := w'.items = w.items ∧ w'.holder = w.holder ∧ w'.stopped = w.stopped

/-- How the record goes with a move made while a status read would show the Bus State `bus`. Where R53, R57 and R58 say nothing of
an access (an address write while the bus is neither Idle nor Owner, a data write or `nack-and-stop` while it is not Owner, a
`continue-receive` that is no part of a receive), only that it puts nothing on the bus (log entry 21).

DESIGN CHOICE, log entry 22: after a failed start or a fault of the bus, on which the spec is silent, nobody is known to hold the bus, so
by `BusMeans` the Bus State reads Unknown; and a failed start counts as someone having started (R57). DESIGN CHOICE, log entry 23: what
is handed over on an owned bus takes the place of what is under way, a data byte also in a transaction opened for reading (R109 (c), U6). -/
def Follows (bus : BusState) (act : Act) (w w' : Wire) : Prop :=
  match act with
  | .engine (.readStatus _) => w' = w
  | .engine (.readData _) => w' = w
  | .engine (.writeAddr b) =>
    if bus = .idle ∨ bus = .owner then w' = w.asked b ∨ w' = (w.asked b).started else w.SameBus w'
  | .engine (.writeData b) => if bus = .owner then w' = w.handed b else w.SameBus w'
  | .engine (.command .none) => w' = w
  | .engine (.command .stop) => if bus = .owner then w' = w.released [] else w' = w
  | .engine (.command .nackAndStop) => if bus = .owner then w' = w.released [.nack] else w.SameBus w'
  | .engine (.command .continueReceive) =>
    if bus = .owner ∧ w.reading = true ∧ w.pending = .none then w' = w.continued else w.SameBus w'
  | .time => w' = w
  | .startMade => w' = w.started
  | .sentOver a => w' = w.sentOver a
  | .readOver x => w' = w.readOver x
  | .startFails => w' = { w with holder := .unclear, stopped := false }
  | .fault => w' = { w with holder := .unclear }
  | .otherStarts => w' = { w with holder := .theirs, stopped := false }
  | .busFreed => w' = { w with holder := .free }

/-- Which moves of its own an adapter can make: only what it has been asked for is started, sent or received; an acknowledged
address byte with direction Read is over together with the first byte (R53); another participant neither starts nor frees a bus
this master is "exclusively entitled to drive" (R12), other than as a fault. -/
def Admits (w : Wire) : Act → Prop
  | .startMade => ∃ b, w.pending = .address b false
  | .startFails => ∃ b g, w.pending = .address b g
  | .sentOver a => (∃ b, w.pending = .address b true ∧ (b.getLsbD 0 = false ∨ a = false)) ∨ ∃ b, w.pending = .data b
  | .readOver _ => (∃ b, w.pending = .address b true ∧ b.getLsbD 0 = true) ∨ w.pending = .receive
  | .otherStarts => w.holder ≠ .ours
  | .busFreed => w.holder ≠ .ours
  | _ => True

end Wire

/-! ### Environments -/

/-- An environment as a transition system. -/
structure Adapter where
  State   : Type
  move    : Act → State → State → Prop
  /-- the status byte as it stands -/
  status  : State → Byte
  /-- the data register -/
  dataReg : State → Byte
  /-- the record of what is on the bus -/
  wire    : State → Wire

namespace Adapter

/-- The Bus State a status read would show. -/
def bus (A : Adapter) (e : A.State) : BusState := busOf (A.status e)

/-- The completion flag `f` stands. -/
def shows (A : Adapter) (f : CompletionFlag) (e : A.State) : Bool := f.seenIn (A.status e)

/-- Nothing but moves of the environment's own and status reads happens between the two states. -/
inductive Quiet (A : Adapter) : A.State → A.State → Prop where
  | refl (e : A.State) : Quiet A e e
  | own (act : Act) (e e1 e2 : A.State) : act.own = true → A.move act e e1 → Quiet A e1 e2 → Quiet A e e2
  | read (e e1 e2 : A.State) (b : Byte) : A.move (.engine (.readStatus b)) e e1 → Quiet A e1 e2 → Quiet A e e2

/-- A list of adapter events that the environment takes part in, in order, with moves of its own before, between and
after them (R13, R37, R48). -/
inductive Plays (A : Adapter) : A.State → List Event → A.State → Prop where
  | nil (e : A.State) : Plays A e [] e
  | own (act : Act) (e e1 e2 : A.State) (evs : List Event) : act.own = true → A.move act e e1 → Plays A e1 evs e2 →
      Plays A e evs e2
  | event (e e1 e2 : A.State) (ev : Event) (evs : List Event) :
      A.move (.engine ev) e e1 → Plays A e1 evs e2 → Plays A e (ev :: evs) e2

/-! ### The contract -/

/-- The record goes with the moves, and the adapter makes no move of its own that it cannot make (R53, R57, R58). -/
structure KeepsRecord (A : Adapter) : Prop where
  follows : ∀ act e e', A.move act e e' → (A.wire e).Follows (A.bus e) act (A.wire e')
  admits  : ∀ act e e', A.move act e e' → (A.wire e).Admits act

/-- "Status reads are pure" (R52). -/
def StatusReadsPure (A : Adapter) : Prop :=
  ∀ e e' b, A.move (.engine (.readStatus b)) e e' → e' = e ∧ b = A.status e

/-- "The address write starts the transaction" (R53): "When the byte and its acknowledgment slot are over, the adapter raises the
completion flag the engine awaits (`wif` for `b[0]` = 0, `rif` for `b[0]` = 1) with `rxnack` saying whether the byte was
acknowledged, and, unless the start failed, the Bus State reads Owner"; for direction Read an acknowledged byte's flag "also means that
the first data byte is ready". That the byte will be over is not assumed (log entry 11). -/
structure AddressStarts (A : Adapter) : Prop where
  completes : ∀ e e' b g a, A.move (.sentOver a) e e' → (A.wire e).pending = .address b g →
    A.shows (addressFlag (if b.getLsbD 0 then .read else .write)) e' = true ∧ rxnackOf (A.status e') = !a ∧
    ((A.wire e).holder = .ours → A.bus e' = .owner)
  firstByte : ∀ e e' b g x, A.move (.readOver x) e e' → (A.wire e).pending = .address b g →
    A.shows .rif e' = true ∧ rxnackOf (A.status e') = false ∧
    ((A.wire e).holder = .ours → A.bus e' = .owner)

/-- A flag rises only for a completion of its own kind: `wif` for an address byte with direction Write or a data byte, `rif` for an
address byte with direction Read or a received byte (R44, R53, R58; "the wait looks at one flag only", R158). That this holds of a data
byte in a transaction opened for reading too is a DESIGN CHOICE (R109 (c), U6; log entry 23). -/
structure FlagsRise (A : Adapter) : Prop where
  wif : ∀ act e e', A.move act e e' → A.shows .wif e = false → A.shows .wif e' = true →
    ∃ a, act = .sentOver a ∧ ((∃ b g, (A.wire e).pending = .address b g ∧ b.getLsbD 0 = false) ∨ ∃ b, (A.wire e).pending = .data b)
  rif : ∀ act e e', A.move act e e' → A.shows .rif e = false → A.shows .rif e' = true →
    (∃ a b g, act = .sentOver a ∧ (A.wire e).pending = .address b g ∧ b.getLsbD 0 = true) ∨ ∃ x, act = .readOver x

/-- "Completion flags are cleared by the access that starts the next wait" (R54). -/
structure FlagsCleared (A : Adapter) : Prop where
  byAddress : ∀ e e1 b, A.move (.engine (.writeAddr b)) e e1 → A.shows .wif e1 = false ∧ A.shows .rif e1 = false
  byData    : ∀ e e1 b, A.move (.engine (.writeData b)) e e1 → A.shows .wif e1 = false
  byCommand : ∀ e e1 c, c ≠ .none → A.move (.engine (.command c)) e e1 → A.shows .wif e1 = false ∧ A.shows .rif e1 = false

/-- "`rxnack` is valid when the flag is" (R55): for the sent byte whose completion the flags report, in every status that shows `wif`,
or `rif` when that byte is an address byte with direction Read; and a data byte that is over raises `wif` (in a transaction opened for
reading too: DESIGN CHOICE, log entry 23). -/
structure RxnackValid (A : Adapter) : Prop where
  valid    : ∀ e o, (A.wire e).last = some o →
    (A.shows .wif e = true ∨ (A.shows .rif e = true ∧ o.isAddress = true ∧ o.byte.getLsbD 0 = true)) →
    rxnackOf (A.status e) = !o.acked
  dataOver : ∀ e e' b a, A.move (.sentOver a) e e' → (A.wire e).pending = .data b →
    A.shows .wif e' = true ∧ rxnackOf (A.status e') = !a

/-- "The Bus State means what §3 and the glossary say" (R56). A bus this master holds reads Owner whenever nothing is under way, and
a reading Owner stays under everything but an access that asks for something, a fault of the bus and a failed start (log entry 21). After
a fault or a failed start `idle`, `owner` and `busy` leave Unknown only (DESIGN CHOICE, log entry 22). -/
structure BusMeans (A : Adapter) : Prop where
  idle   : ∀ e, A.bus e = .idle → (A.wire e).holder = .free
  owner  : ∀ e, A.bus e = .owner → (A.wire e).holder = .ours
  busy   : ∀ e, A.bus e = .busy → (A.wire e).holder = .theirs
  held   : ∀ e, (A.wire e).holder = .ours → (A.wire e).pending = .none → A.bus e = .owner
  stays  : ∀ act e e', A.move act e e' → (act.own = true ∨ ∃ b, act = .engine (.readStatus b) ∨ act = .engine (.readData b)) →
    act ≠ .fault → act ≠ .startFails → A.bus e = .owner → A.bus e' = .owner

/-- "Stop" (R57): the bus "reads Idle in every later sample until someone starts again"; while the Bus State is not Owner, `stop`
"changes nothing that the engine can see". -/
structure StopReleases (A : Adapter) : Prop where
  released : ∀ e, (A.wire e).stopped = true → A.bus e = .idle
  harmless : ∀ e e1, A.bus e ≠ .owner → A.move (.engine (.command .stop)) e e1 →
    A.status e1 = A.status e ∧ A.dataReg e1 = A.dataReg e

/-- "Receive" (R58): a byte that is over raises `rif`; the data register "holds the byte unchanged from the moment `rif` rises until the
next command" (the next access that asks for something, log entry 21); `PA.ReadData()` returns it. -/
structure Receives (A : Adapter) : Prop where
  ready   : ∀ e e' x, A.move (.readOver x) e e' → A.shows .rif e' = true
  holds   : ∀ e x, (A.wire e).byte = some x → A.dataReg e = x
  answers : ∀ e e1 b, A.move (.engine (.readData b)) e e1 → b = A.dataReg e

/-- The whole contract, R52 to R58. -/
structure Keeps (A : Adapter) : Prop where
  record   : A.KeepsRecord
  pure     : A.StatusReadsPure
  starts   : A.AddressStarts
  rise     : A.FlagsRise
  cleared  : A.FlagsCleared
  rxnack   : A.RxnackValid
  bus      : A.BusMeans
  stop     : A.StopReleases
  receives : A.Receives

/-- "no other bus participant" (R106): no one else starts, and an idle bus stays idle but for a start of this master. -/
structure NoOtherParticipant (A : Adapter) : Prop where
  noStart   : ∀ e e', ¬ A.move .otherStarts e e'
  idleStays : ∀ act e e', act.own = true → A.move act e e' → A.bus e = .idle →
    A.bus e' = .idle ∨ (A.bus e' = .owner ∧ ∃ b g, (A.wire e).pending = .address b g)

/-- No fault of the bus and no failed start happens, the two exceptions R53 and R56 name. -/
structure NoFault (A : Adapter) : Prop where
  noFault : ∀ e e', ¬ A.move .fault e e'
  noFail  : ∀ e e', ¬ A.move .startFails e e'

end Adapter

/-! ### `RefBus` as an environment -/

/-- What the pending completion of `RefBus` is a completion of. -/
def RefBus.pendingMatches (r : RefBus) (w : Wire) : Prop :=
  match r.pend with
  | .none => True
  | .w _ => (∃ b, w.pending = .address b true ∧ b.getLsbD 0 = false) ∨ ∃ b, w.pending = .data b
  | .r _ => (∃ b, w.pending = .address b true ∧ b.getLsbD 0 = true) ∨ w.pending = .receive

/-- A state of `RefBus` with a record that goes with it. -/
structure RefBus.Linked (r : RefBus) (w : Wire) : Prop where
  wf      : r.wf = true
  owner   : w.holder = .ours ↔ r.bus = .owner
  idle    : r.bus = .idle → w.holder = .free
  busy    : r.bus = .busy → w.holder = .theirs
  stopped : w.stopped = true → r.bus = .idle
  pend    : r.pendingMatches w
  byte    : ∀ x, w.byte = some x → r.dreg = x
  last    : ∀ o, w.last = some o →
    (r.wif = true ∨ (r.rif = true ∧ o.isAddress = true ∧ o.byte.getLsbD 0 = true)) → r.rxnack = !o.acked

/-- What a tick of `RefBus`'s clock is on the bus: "what a later read returns is a function of time, and `RefBus` measures time in
reads" (R65). -/
def RefBus.tickAct (r : RefBus) (w : Wire) : Act :=
  match r.pend with
  | .w 0 => .sentOver (!r.rxnack)
  | .r 0 =>
    match w.pending with
    | .address _ _ => if r.rxnack then .sentOver false else .readOver r.dreg
    | _ => .readOver r.dreg
  | _ => .time

/-- The reaction of `RefBus` to a move (R61 to R65), its clock being a move of its own. It makes a start condition at the address
write, and nothing else happens to it. -/
def RefBus.move (act : Act) (w : Wire) (r r' : RefBus) : Prop :=
  match act with
  | .engine (.readStatus b) => r' = r ∧ b = r.status
  | .engine (.readData b) => r' = r ∧ b = r.readData
  | .engine (.writeAddr b) => r' = r.writeAddr b
  | .engine (.writeData b) => r' = r.writeData b
  | .engine (.command c) => r' = r.command c
  | a => a = r.tickAct w ∧ r' = r.tick

/-- `RefBus`, in the states it can be in, as an environment (R59). Log entry 14. -/
@[reducible] def refBusAdapter : Adapter where
  State        := { x : RefBus × Wire // x.1.Linked x.2 }
  move act x y := RefBus.move act x.1.2 x.1.1 y.1.1 ∧ x.1.2.Follows x.1.1.bus act y.1.2
  status x     := x.1.1.status
  dataReg x    := x.1.1.dreg
  wire x       := x.1.2

end Sys2Proof.Machine
end

