-- ==== Sys2Proof/Safety.lean ====
section
/-!
DEFINITION. The terms claims are stated in: what a run of events is, what a response says, how a wait ends, the invariant of
the machine, the moves about which the spec makes claims, and the tables of 30_encoding.md R72 (fields read), R82 and
70_reset_and_hazards.md R161.
-/

namespace Sys2Proof.Machine

/-! ### Events -/

/-- The status reads that returned these bytes, in order. -/
def statusReads (bs : List Byte) : List Event := bs.map .readStatus

/-- From `s` to `t` exactly the events `es` were made, every answer in them given by the environment of `s`, which `t` holds as
the events leave it; and the reads among them were counted. -/
def Ran (s t : State) (es : List Event) : Prop :=
  t.trace = s.trace ++ es ∧ s.env.replay s.reads es = some t.env ∧ t.reads = s.reads + es.countP Event.isRead

/-- The adapter writes, which have effects on the bus (R50). -/
def Event.isWrite : Event → Bool
  | .writeAddr _ => true
  | .writeData _ => true
  | .command _ => true
  | _ => false

/-- `PA.WriteAddr`, `PA.WriteData`, `PA.ReadData` (R41 to R43). -/
def Event.isAddrWrite : Event → Bool
  | .writeAddr _ => true
  | _ => false

def Event.isDataWrite : Event → Bool
  | .writeData _ => true
  | _ => false

def Event.isDataRead : Event → Bool
  | .readData _ => true
  | _ => false

/-- The steps that make each of them: START and RSTART, SEND, RECV. -/
def Prim.isAddress : Prim → Bool
  | .start _ _ => true
  | .rstart _ _ => true
  | _ => false

def Prim.isSend : Prim → Bool
  | .send _ => true
  | _ => false

def Prim.isRecv : Prim → Bool
  | .recv _ => true
  | _ => false

/-- The last adapter write of a list of events (R34). -/
def lastWrite? (es : List Event) : Option Event := (es.filter Event.isWrite).getLast?

/-- The byte of the last data read of a list of events. -/
def lastByte? (es : List Event) : Option Byte :=
  (es.filterMap fun | .readData b => some b | _ => none).getLast?

/-- The last status sample of a list of events. -/
def lastSample? (es : List Event) : Option Byte :=
  (es.filterMap fun | .readStatus b => some b | _ => none).getLast?

/-- A command that ends the transaction (R34, R57). -/
def Event.isStop : Event → Bool
  | .command .stop => true
  | .command .nackAndStop => true
  | _ => false

/-! ### Waits (R88, R89) -/

/-- `LIMIT` poll iterations, none of which saw the flag. -/
def WaitExpires (f : CompletionFlag) (limit : Count) (bs : List Byte) : Prop :=
  bs.length = limit.toNat ∧ ∀ x ∈ bs, f.seenIn x = false

/-- The flag first seen in the sample `b`, within the bound, after the samples `bs` that did not show it. -/
def WaitSees (f : CompletionFlag) (limit : Count) (bs : List Byte) (b : Byte) : Prop :=
  bs.length < limit.toNat ∧ (∀ x ∈ bs, f.seenIn x = false) ∧ f.seenIn b = true

/-! ### The protocol, as a relation -/

/-- How one primitive step can go under the bound `limit`: its outcome and its adapter events in order (R98, R100, R102, R108,
R110). A relation between what is observed, with no state and no environment in it. -/
inductive StepEnds (limit : Count) : Prim → TxOutcome → List Event → Prop where
  | startInvalid (a : SlaveAddr) (f : DirField) : direction? f = none → StepEnds limit (.start a f) .invalidDirection []
  | startBusBusy (a : SlaveAddr) (f : DirField) (d : Direction) (b : Byte) : direction? f = some d → busOf b ≠ .idle →
      StepEnds limit (.start a f) (.busBusy (busOf b)) [.readStatus b]
  | startTimeout (a : SlaveAddr) (f : DirField) (d : Direction) (b0 : Byte) (bs : List Byte) : direction? f = some d →
      busOf b0 = .idle → WaitExpires (addressFlag d) limit bs →
      StepEnds limit (.start a f) .sendTimeout (.readStatus b0 :: .writeAddr (compose a d) :: statusReads bs)
  | startNack (a : SlaveAddr) (f : DirField) (d : Direction) (b0 : Byte) (bs : List Byte) (b : Byte) :
      direction? f = some d → busOf b0 = .idle → WaitSees (addressFlag d) limit bs b → rxnackOf b = true →
      StepEnds limit (.start a f) .nack
        (.readStatus b0 :: .writeAddr (compose a d) :: statusReads (bs ++ [b]) ++ [.command .stop])
  | startOk (a : SlaveAddr) (f : DirField) (d : Direction) (b0 : Byte) (bs : List Byte) (b : Byte) :
      direction? f = some d → busOf b0 = .idle → WaitSees (addressFlag d) limit bs b → rxnackOf b = false →
      StepEnds limit (.start a f) .ok (.readStatus b0 :: .writeAddr (compose a d) :: statusReads (bs ++ [b]))
  | rstartInvalid (a : SlaveAddr) (f : DirField) : direction? f = none → StepEnds limit (.rstart a f) .invalidDirection []
  | rstartBusBusy (a : SlaveAddr) (f : DirField) (d : Direction) (b : Byte) : direction? f = some d → busOf b ≠ .owner →
      StepEnds limit (.rstart a f) (.busBusy (busOf b)) [.readStatus b]
  | rstartTimeout (a : SlaveAddr) (f : DirField) (d : Direction) (b0 : Byte) (bs : List Byte) : direction? f = some d →
      busOf b0 = .owner → WaitExpires (addressFlag d) limit bs →
      StepEnds limit (.rstart a f) .sendTimeout (.readStatus b0 :: .writeAddr (compose a d) :: statusReads bs)
  | rstartNack (a : SlaveAddr) (f : DirField) (d : Direction) (b0 : Byte) (bs : List Byte) (b : Byte) :
      direction? f = some d → busOf b0 = .owner → WaitSees (addressFlag d) limit bs b → rxnackOf b = true →
      StepEnds limit (.rstart a f) .nack (.readStatus b0 :: .writeAddr (compose a d) :: statusReads (bs ++ [b]))
  | rstartOk (a : SlaveAddr) (f : DirField) (d : Direction) (b0 : Byte) (bs : List Byte) (b : Byte) :
      direction? f = some d → busOf b0 = .owner → WaitSees (addressFlag d) limit bs b → rxnackOf b = false →
      StepEnds limit (.rstart a f) .ok (.readStatus b0 :: .writeAddr (compose a d) :: statusReads (bs ++ [b]))
  | stopOk : StepEnds limit .stop .ok [.command .stop]
  | sendBusBusy (x b : Byte) : busOf b ≠ .owner → StepEnds limit (.send x) (.busBusy (busOf b)) [.readStatus b]
  | sendTimeout (x b0 : Byte) (bs : List Byte) : busOf b0 = .owner → WaitExpires .wif limit bs →
      StepEnds limit (.send x) .sendTimeout (.readStatus b0 :: .writeData x :: statusReads bs)
  | sendNack (x b0 : Byte) (bs : List Byte) (b : Byte) : busOf b0 = .owner → WaitSees .wif limit bs b → rxnackOf b = true →
      StepEnds limit (.send x) .nack (.readStatus b0 :: .writeData x :: statusReads (bs ++ [b]))
  | sendOk (x b0 : Byte) (bs : List Byte) (b : Byte) : busOf b0 = .owner → WaitSees .wif limit bs b → rxnackOf b = false →
      StepEnds limit (.send x) .ok (.readStatus b0 :: .writeData x :: statusReads (bs ++ [b]))
  | recvBusBusy (p : AckPolicy) (b : Byte) : busOf b ≠ .owner →
      StepEnds limit (.recv p) (.busBusy (busOf b)) [.readStatus b]
  | recvTimeout (p : AckPolicy) (b0 : Byte) (bs : List Byte) : busOf b0 = .owner → WaitExpires .rif limit bs →
      StepEnds limit (.recv p) .receiveTimeout (.readStatus b0 :: statusReads bs)
  | recvOk (p : AckPolicy) (b0 : Byte) (bs : List Byte) (b x : Byte) : busOf b0 = .owner → WaitSees .rif limit bs b →
      StepEnds limit (.recv p) .ok
        (.readStatus b0 :: statusReads (bs ++ [b]) ++ [.readData x, .command (receiveCmd p)])

/-- How a list of steps can go (R115): the next step begins only after Ok, with no event between the two; any other outcome ends
the run "at once with that outcome, unchanged"; the last step's outcome is the run's. -/
inductive StepsEnd (limit : Count) : List Prim → TxOutcome → List Event → Prop where
  | last (p : Prim) (o : TxOutcome) (es : List Event) : StepEnds limit p o es → StepsEnd limit [p] o es
  | fails (p q : Prim) (ps : List Prim) (o : TxOutcome) (es : List Event) : StepEnds limit p o es → o ≠ .ok →
      StepsEnd limit (p :: q :: ps) o es
  | goesOn (p q : Prim) (ps : List Prim) (o : TxOutcome) (es fs : List Event) : StepEnds limit p .ok es →
      StepsEnd limit (q :: ps) o fs → StepsEnd limit (p :: q :: ps) o (es ++ fs)

/-! ### Responses (R36, R127) -/

/-- The operation from `s` has ended in `t` with the response of outcome `o`; `dv` says whether it carries a byte. Nothing
is said of `RSP.data`. -/
def Answered (s t : State) (o : TxOutcome) (dv : Bool) : Prop :=
  t.rspValid = true ∧ t.busy = false ∧ t.access = none ∧ t.responses = s.responses ++ [t.rsp] ∧
  rspOutcome t.rsp = o.code ∧ rspObs t.rsp = o.obsCode ∧ rspDv t.rsp = dv ∧
  rspIllegal t.rsp = false ∧ rspReserved t.rsp = false

/-- The shapes a response word can have (R25, R74, R77; 93 U8). -/
def rspWellFormed (r : BitVec 16) : Bool :=
  !rspReserved r && (decide (rspOutcome r ≠ 6#3) && (decide (rspIllegal r = decide (rspOutcome r = 7#3)) &&
    ((!rspDv r || decide (rspOutcome r = 0#3)) && (decide (rspObs r = 0#2) || decide (rspOutcome r = 2#3)))))

/-! ### Tables -/

/-- The bits of a command word its command depends on: R72's mask and "fields read". -/
def readMask : Instr → Word
  | .start _ _ => 0xFBFF0000#32
  | .rstart _ _ => 0xFBFF0000#32
  | .stop => 0xF8800000#32
  | .send _ => 0xF88000FF#32
  | .recv _ => 0xFC800000#32
  | .wrreg _ _ _ => 0xF8FFFFFF#32
  | .rdreg _ _ => 0xF8FFFF00#32
  | .wrbyte _ _ => 0xF8FF00FF#32
  | .rdbyte _ => 0xF8FF0000#32

/-- The expansion of a composite into primitive commands (R82); a primitive is its own. -/
def expansion : Instr → List Instr
  | .wrreg a r b => [.start a 0#2, .send r, .send b, .stop]
  | .rdreg a r => [.start a 0#2, .send r, .rstart a 1#2, .recv .nack]
  | .wrbyte a b => [.start a 0#2, .send b, .stop]
  | .rdbyte a => [.start a 1#2, .recv .nack]
  | i => [i]

/-- A host that issues commands one after another under one bound, "stopping at the first response that is not Ok" (R82). -/
def runHost (limit : Count) : List Instr → State → Host.Outcome State Fault Refusal
  | [], s => .next s
  | i :: is, s =>
    match runCommand (encode i) limit s with
    | .next t => if rspOutcome t.rsp = 0#3 then runHost limit is t else .next t
    | r => r

/-- The greatest number of adapter events of a command under the bound `n` (R161). -/
def maxEvents : Instr → Nat → Nat
  | .stop, _ => 1
  | .start _ _, n => n + 3
  | .rstart _ _, n => n + 2
  | .send _, n => n + 2
  | .recv _, n => n + 3
  | .wrreg _ _ _, n => 3 * n + 7
  | .rdreg _ _, n => 4 * n + 9
  | .wrbyte _ _, n => 2 * n + 5
  | .rdbyte _, n => 2 * n + 5

/-! ### Moves about which claims are made -/

/-- A word, and a configuration, about which the spec makes claims: legal (R74: "no claim about a run that contains one") and
with a defined baud value (R148). -/
def Move.claimable : Move → Bool
  | .command w _ => legalWord w
  | .edge p => !p.cmdValid || legalWord p.cmdWord
  | .env _ => true
  | .adapter (.configure clk speed _ _) => (baudValue? clk speed).isSome
  | .adapter _ => true

/-- A run about which claims are made: every move still to come is claimable, and so is a word held on the port. -/
def State.Claimable (s : State) : Prop :=
  (∀ m ∈ s.moves, m.claimable = true) ∧ (s.pins.cmdValid = true → legalWord s.pins.cmdWord = true)

/-! ### The invariant -/

/-- The environment is in a state it can be in: for `RefBus`, its own invariant. -/
def Env.wf : Env → Bool
  | .scripted _ _ => true
  | .refBus r => r.wf

/-- A move the outside world can make: its environment is well formed. -/
def Move.wf : Move → Bool
  | .env e => e.wf
  | _ => true

/-- `IDLE` or `DATA`, the rest values of `phase` (R34). -/
def Phase.atRest : Phase → Bool
  | .idle => true
  | .data => true
  | _ => false

/-- Whether a primitive, begun under a passed precondition, can stand at a position with a phase (R33; between two events `phase`
is the value the last event led to, log entry 13). -/
def posFits (p : Prim) (pos : SeqPos) (phase : Phase) : Bool :=
  match pos, p with
  | .begin, _ => phase.atRest
  | .write, .start _ _ => phase.atRest && p.directionOk
  | .write, .rstart _ _ => phase.atRest && p.directionOk
  | .write, .send _ => phase.atRest
  | .poll, .start _ _ => decide (phase = .address) && p.directionOk
  | .poll, .rstart _ _ => decide (phase = .address) && p.directionOk
  | .poll, .send _ => decide (phase = .data)
  | .poll, .recv _ => decide (phase = .data)
  | .ackCheck, .start _ _ => decide (phase = .ackCheck)
  | .ackCheck, .rstart _ _ => decide (phase = .ackCheck)
  | .ackCheck, .send _ => decide (phase = .ackCheck)
  | .dataRead, .recv _ => decide (phase = .data)
  | .receiveCommand, .recv _ => decide (phase = .ackCheck)
  | .done (.busBusy _), _ => phase.atRest
  | .done .nack, .start _ _ => decide (phase = .stop)
  | .done .ok, .stop => decide (phase = .stop)
  | .done .ok, .recv .ack => decide (phase = .ackCheck)
  | .done .ok, .recv .nack => decide (phase = .stop)
  | _, _ => false

/-- Whether a primitive can return an outcome (R126). -/
def canReturn (p : Prim) (o : TxOutcome) : Bool :=
  match o, p with
  | .ok, _ => true
  | .nack, .start _ _ => true
  | .nack, .rstart _ _ => true
  | .nack, .send _ => true
  | .busBusy b, _ => decide (p.required? ≠ none ∧ p.required? ≠ some b)
  | _, _ => false

/-- What holds of the machine at every step. -/
structure State.Inv (s : State) : Prop where
  /-- "It never exceeds `LIMIT`" (R21, R96) -/
  count_bound : s.pollCnt ≤ s.limit
  /-- a running operation has no response yet (R16, R35, R36) -/
  busy_no_response : s.busy = true → s.rspValid = false
  /-- at rest the engine makes no access and its position is the rest position (R17, R36) -/
  rest_quiet : s.busy = false → s.access = none ∧ s.pos = .begin
  /-- "at rest `phase` is `IDLE` or `DATA`" (R34) -/
  rest_phase : s.busy = false → s.phase.atRest = true
  /-- a running operation is a command of the table at one of its steps, at a position and phase of that primitive (R20, R33) -/
  running : s.busy = true → ∃ p, s.currentPrim = some p ∧ posFits p s.pos s.phase = true
  /-- `fresh` tells START from RSTART throughout their waits and acknowledgment checks (R27) -/
  fresh_kind : s.busy = true → (s.pos = .poll ∨ s.pos = .ackCheck) → ∀ p, s.currentPrim = some p →
    (∀ a d, p = .start a d → s.fresh = true) ∧ (∀ a d, p = .rstart a d → s.fresh = false)
  /-- a pending outcome is one its primitive can return, and not an Ok before the last step (R115, R126) -/
  pending : s.busy = true → ∀ o, s.pos = .done o → ∀ p, s.currentPrim = some p →
    canReturn p o = true ∧ (o = .ok → s.onLastStep = true)
  /-- the response word has one of its shapes, and is the last one written (R25, R77) -/
  response_form : rspWellFormed s.rsp = true ∧ (s.rspValid = true → s.responses.getLast? = some s.rsp)
  /-- the adapter command `none` is issued "never" (R45) -/
  no_none : Event.command .none ∉ s.trace
  /-- the environment, now and in every move to come, is in a state it can be in -/
  env_wf : s.env.wf = true ∧ ∀ m ∈ s.moves, m.wf = true

end Sys2Proof.Machine
end

