-- ==== Sys2Proof/Certificates/Slice0/Obligations.lean ====
section
/-!
DEFINITION. The statements for the provers, one definition each, in the order of OBLIGATIONS.json.
-/

open Sys2Proof Sys2Proof.Machine

/-! ## Encoding -/

/-- R80: "encode (rule R81) followed by decode is the identity on commands", for every command and every operand value. -/
def Obligations.DecodeOfEncodeIsIdentity : Prop := ∀ i : Instr, decode (encode i) = .ok i

/-- R73 and R84: the words the decoder refuses are exactly those with bit 27 or bit 23 set or with one of the seven reserved
opcodes. -/
def Obligations.RefusedWordsAreTheReservedOnes : Prop :=
  ∀ w : Word, (∀ i, decode w ≠ .ok i) ↔
    (w.getLsbD 27 = true ∨ w.getLsbD 23 = true ∨
      w.extractLsb' 28 4 ∈ [0x0#4, 0x6#4, 0x7#4, 0xC#4, 0xD#4, 0xE#4, 0xF#4])

/-- R75: a word that differs from a legal one only in fields its command does not read is the same command; those fields are
still latched; an assembler writes 0 in them. -/
def Obligations.UnreadFieldsAreIgnoredAndLatched : Prop :=
  ∀ (w w' : Word) (i : Instr), decode w = .ok i → w' &&& readMask i = w &&& readMask i →
    decode w' = .ok i ∧
    (∀ (s : State) (limit : Count),
      let t := s.accept w' limit
      t.lat.op = w'.extractLsb' 28 4 ∧ t.lat.ap = w'.extractLsb' 26 1 ∧ t.lat.dir = w'.extractLsb' 24 2 ∧
      t.lat.addr = w'.extractLsb' 16 7 ∧ t.lat.reg = w'.extractLsb' 8 8 ∧ t.lat.data = w'.extractLsb' 0 8) ∧
    encode i &&& ~~~ (readMask i) = 0#32

/-- R72: "a word `w` selects the row when `w & mask == match`", and what it then is, by `op` alone, with its operands taken
from the fields at their places. -/
def Obligations.TableRowSelectsItsCommand : Prop :=
  (∀ w : Word, legalWord w = true ↔ ∃ i, decode w = .ok i) ∧
  ∀ (w : Word) (i : Instr), decode w = .ok i →
    (∃ r ∈ opcodeRows, r.op = i.opcode ∧ ∀ q ∈ opcodeRows, (q.selects w = true ↔ q = r)) ∧
    i = (match i with
      | .start _ _ => .start (w.extractLsb' 16 7) (w.extractLsb' 24 2)
      | .rstart _ _ => .rstart (w.extractLsb' 16 7) (w.extractLsb' 24 2)
      | .stop => .stop
      | .send _ => .send (w.extractLsb' 0 8)
      | .recv _ => .recv (if w.getLsbD 26 then .nack else .ack)
      | .wrreg _ _ _ => .wrreg (w.extractLsb' 16 7) (w.extractLsb' 8 8) (w.extractLsb' 0 8)
      | .rdreg _ _ => .rdreg (w.extractLsb' 16 7) (w.extractLsb' 8 8)
      | .wrbyte _ _ => .wrbyte (w.extractLsb' 16 7) (w.extractLsb' 0 8)
      | .rdbyte _ => .rdbyte (w.extractLsb' 16 7))

/-- R85: the encoding examples. -/
def Obligations.ExampleWordsDecode : Prop :=
  decode 0x10500000#32 = .ok (.start 0x50#7 0#2) ∧ decode 0x11500000#32 = .ok (.start 0x50#7 1#2) ∧
  decode 0x12500000#32 = .ok (.start 0x50#7 2#2) ∧ decode 0x21500000#32 = .ok (.rstart 0x50#7 1#2) ∧
  decode 0x30000000#32 = .ok .stop ∧ decode 0x40000010#32 = .ok (.send 0x10#8) ∧
  decode 0x50000000#32 = .ok (.recv .ack) ∧ decode 0x54000000#32 = .ok (.recv .nack) ∧
  decode 0x805010AB#32 = .ok (.wrreg 0x50#7 0x10#8 0xAB#8) ∧ decode 0x90501000#32 = .ok (.rdreg 0x50#7 0x10#8) ∧
  decode 0xA07F00FF#32 = .ok (.wrbyte 0x7F#7 0xFF#8) ∧ decode 0xB0000000#32 = .ok (.rdbyte 0x00#7) ∧
  decode 0x00000000#32 = .error (.reservedOpcode 0x0#4) ∧ decode 0x38000000#32 = .error .reservedBit27 ∧
  decode 0x10D00000#32 = .error .reservedBit23

/-! ## Reset, the ports and the step -/

/-- R32: "On a clock edge with `rst` = 1 every register takes the value below, whatever the engine was doing", whether the level comes
with the edge or stands on the pin; "the engine makes no adapter access", and the last row: the environment and the adapter are not
reset. -/
def Obligations.ResetEdgeFromAnyState : Prop :=
  ∀ s : State, ((∃ p rest, s.moves = .edge p :: rest ∧ p.rst = true) ∨ (s.moves = [] ∧ s.pins.rst = true)) →
    ∃ t, step s = .next t ∧
      t.phase = .idle ∧ t.busy = false ∧ t.stepIx = 0#2 ∧ t.pollCnt = 0#16 ∧
      t.lat = ⟨0#4, 0#2, 0#1, 0#7, 0#8, 0#8⟩ ∧ t.limit = 0#16 ∧ t.rxByte = 0#8 ∧ t.sample = 0#8 ∧ t.fresh = false ∧
      t.rsp = 0x0000#16 ∧ t.rspValid = false ∧ t.strobes = ⟨false, false, false, false, false, none, none⟩ ∧
      t.env = s.env ∧ t.cfg = s.cfg

/-- The invariant holds right after reset. -/
def Obligations.ResetMeetsTheInvariant : Prop := State.reset.Inv

/-- Every step of the machine keeps the invariant, whatever the outside world does in it. What it says of the engine's position is
said in the model's bookkeeping (log entry 4), of `phase` between two events in the model's reading of R33 and R37 (log entry 13,
DEDUCED), and of `RefBus` in the states it can be in (log entry 8, DEDUCED). -/
def Obligations.EveryStepKeepsTheInvariant : Prop := ∀ s t : State, s.Inv → step s = .next t → t.Inv

/-- A command presented to an engine at rest: when its word decodes to `i`, the step is `exec i` at the state in which the word
has been accepted (R35), the move used up and the port at the levels presented. -/
def Obligations.StepRunsThePresentedCommand : Prop :=
  ∀ (s : State) (w : Word) (limit : Count) (rest : List Move) (i : Instr),
    s.moves = .command w limit :: rest → s.busy = false → decode w = .ok i →
    step s = exec i (({ s with moves := rest, pins := ⟨false, false, w, limit⟩ } : State).accept w limit)

/-- R35: what acceptance latches, and that "a change of those inputs during an operation has no effect on it". -/
def Obligations.AcceptanceLatchesOnce : Prop :=
  (∀ (s : State) (p : Pins) (rest : List Move) (i : Instr), s.moves = .edge p :: rest → p.rst = false → s.busy = false →
    p.cmdValid = true → decode p.cmdWord = .ok i →
    ∃ t, step s = .next t ∧
      t.lat.op = p.cmdWord.extractLsb' 28 4 ∧ t.lat.ap = p.cmdWord.extractLsb' 26 1 ∧
      t.lat.dir = p.cmdWord.extractLsb' 24 2 ∧ t.lat.addr = p.cmdWord.extractLsb' 16 7 ∧
      t.lat.reg = p.cmdWord.extractLsb' 8 8 ∧ t.lat.data = p.cmdWord.extractLsb' 0 8 ∧
      t.limit = p.cfgPollLimit ∧ t.stepIx = 0#2 ∧ t.pollCnt = 0#16 ∧ t.busy = true ∧ t.rspValid = false ∧
      t.trace = s.trace ∧ t.env = s.env) ∧
  (∀ (s : State) (p q : Pins) (rest : List Move), s.busy = true → p.rst = false → q.rst = false →
    ∃ t, step { s with moves := .edge p :: rest } = .next t ∧
      step { s with moves := .edge q :: rest } = .next { t with pins := q } ∧ t.lat = s.lat ∧ t.limit = s.limit)

/-- R15: while `busy` = 1 a presented command "is not accepted and waits; nothing of it is seen by the engine". -/
def Obligations.PresentedCommandWaits : Prop :=
  ∀ (s : State) (w w' : Word) (n n' : Count) (rest rest' : List Move), s.busy = true →
    ∃ t, step { s with moves := .command w n :: rest } = .next t ∧ t.moves = .command w n :: rest ∧
      t.lat = s.lat ∧ t.limit = s.limit ∧
      step { s with moves := .command w' n' :: rest' } = .next { t with moves := .command w' n' :: rest' }

/-- R140: "at rest it simply waits for `cmd_valid`": with no reset and no command the engine at rest changes nothing. -/
def Obligations.EngineAtRestWaits : Prop :=
  ∀ (s : State) (p : Pins) (rest : List Move), s.moves = .edge p :: rest → s.Inv → s.busy = false → p.rst = false →
    p.cmdValid = false → step s = .next { s with moves := rest, pins := p }

/-- R74 and R134, the effect on the engine: an illegal word presented at rest, as a command or at a clock edge, is latched like any
other (R35), makes no adapter access and ends at once with `illegal` = 1, outcome code 7, `obs` = 0, `dv` = 0, nothing else of the
engine changed. That the model takes this effect is its own choice (log entry 9), and that acceptance writes no bound or counter then
is DEDUCED (log entry 10). -/
def Obligations.IllegalWordIsAnswered : Prop :=
  ∀ (s : State) (w : Word) (rest : List Move),
    ((∃ n, s.moves = .command w n :: rest) ∨
      ∃ p : Pins, s.moves = .edge p :: rest ∧ p.rst = false ∧ p.cmdValid = true ∧ p.cmdWord = w) →
    s.busy = false → legalWord w = false →
    ∃ t, step s = .next t ∧
      t.lat.op = w.extractLsb' 28 4 ∧ t.lat.ap = w.extractLsb' 26 1 ∧ t.lat.dir = w.extractLsb' 24 2 ∧
      t.lat.addr = w.extractLsb' 16 7 ∧ t.lat.reg = w.extractLsb' 8 8 ∧ t.lat.data = w.extractLsb' 0 8 ∧
      rspIllegal t.rsp = true ∧ rspOutcome t.rsp = 7#3 ∧ rspObs t.rsp = 0#2 ∧ rspDv t.rsp = false ∧
      rspReserved t.rsp = false ∧ t.rspValid = true ∧ t.busy = false ∧ t.responses = s.responses ++ [t.rsp] ∧
      t.trace = s.trace ∧ t.env = s.env ∧ t.access = none ∧
      t.phase = s.phase ∧ t.stepIx = s.stepIx ∧ t.pollCnt = s.pollCnt ∧ t.limit = s.limit ∧ t.rxByte = s.rxByte ∧
      t.sample = s.sample ∧ t.fresh = s.fresh ∧ t.cfg = s.cfg ∧ t.moves = rest

/-- R147 and R148: a call of the host on the adapter leaves the engine alone, sets what it names, and is refused while an operation
runs or when the baud formula has no result. That `configure` takes the formula's operands and keeps polarity and timeout mode as
codes, and that `enable` and `disable` set one flag, is the model's choice (log entry 12); the rounding is R148's (G7). -/
def Obligations.AdapterCallsBypassTheEngine : Prop :=
  (∀ (s : State) (c : AdapterCall) (rest : List Move), s.moves = .adapter c :: rest → s.busy = true →
    step s = .refused .adapterCallDuringOperation) ∧
  (∀ (s : State) (clk speed pol tmo : Nat) (rest : List Move), s.moves = .adapter (.configure clk speed pol tmo) :: rest →
    s.busy = false →
    step s = if speed = 0 ∨ clk / (2 * speed) < 5 then .refused .baudUndefined
      else .next { s with moves := rest, cfg := ⟨some (clk / (2 * speed) - 5), some pol, some tmo, s.cfg.enabled⟩ }) ∧
  (∀ (s : State) (rest : List Move), s.busy = false →
    step { s with moves := .adapter .enable :: rest } = .next { s with moves := rest, cfg := { s.cfg with enabled := true } } ∧
    step { s with moves := .adapter .disable :: rest } = .next { s with moves := rest, cfg := { s.cfg with enabled := false } }) ∧
  baudValue? 32000000 100000 = some 155 ∧ baudValue? 32000000 400000 = some 35 ∧ baudValue? 2000000 400000 = none

/-- R131: "Failure never blocks the engine". In a run about which claims are made every step answers a next state; only a call on
the adapter made while an operation runs does not, and that is its condition exactly. -/
def Obligations.ClaimableStepIsRefusedOnlyMidOperation : Prop :=
  ∀ s : State, s.Claimable →
    ((∀ t, step s ≠ .next t) ↔ (s.busy = true ∧ ∃ c rest, s.moves = .adapter c :: rest))

/-- R17, R15 and R16: the strobes of every access with its data beside it, the codes of R45 on `pa_cmd`, at most one strobe 1, and the
host outputs, the codes of R19 on `dbg_phase`. -/
def Obligations.PortsShowTheRegisters : Prop :=
  ∀ s : State,
    [s.strobes.addrWe, s.strobes.dataWe, s.strobes.dataRe, s.strobes.statusRe, s.strobes.cmdWe].count true ≤ 1 ∧
    (s.strobes.addrWe = true ↔ ∃ b, s.access = some (.writeAddr b) ∧ s.strobes.wdata = some b) ∧
    (s.strobes.dataWe = true ↔ ∃ b, s.access = some (.writeData b) ∧ s.strobes.wdata = some b) ∧
    (s.strobes.dataRe = true ↔ ∃ b, s.access = some (.readData b)) ∧
    (s.strobes.statusRe = true ↔ ∃ b, s.access = some (.readStatus b)) ∧
    (s.strobes.cmdWe = true ↔ ∃ c, s.access = some (.command c) ∧
      s.strobes.cmd = some (match c with | .none => 0#2 | .stop => 1#2 | .continueReceive => 2#2 | .nackAndStop => 3#2)) ∧
    s.hostOutputs.cmdReady = !s.busy ∧ s.hostOutputs.busy = s.busy ∧ s.hostOutputs.rspValid = s.rspValid ∧
    s.hostOutputs.rspWord = s.rsp ∧
    s.hostOutputs.dbgPhase =
      (match s.phase with | .idle => 0#3 | .address => 1#3 | .ackCheck => 2#3 | .data => 3#3 | .stop => 4#3)

/-! ## The helpers -/

/-- R87: the composed byte, for every address and direction. -/
def Obligations.ComposedByteHoldsAddressAndDirection : Prop :=
  ∀ (addr : SlaveAddr) (d : Direction),
    compose addr d = (addr.setWidth 8 <<< 1) ||| (dirBit d).setWidth 8 ∧
    (compose addr d).extractLsb' 1 7 = addr ∧ (compose addr d).getLsbD 0 = decide (d = .read) ∧
    (compose addr d).toNat = 2 * addr.toNat + (if d = .read then 1 else 0)

/-- R89: "The count is exact", against an environment of which every answer is known: exactly `LIMIT` answers are used on
expiry, exactly `k` when the flag is first seen at iteration `k`, and no status read is made after either. `LIMIT` = 0 expires at
once (R90). -/
def Obligations.PollCountIsExact : Prop :=
  ∀ (f : CompletionFlag) (s : State) (bs rest ds : List Byte), (∀ x ∈ bs, f.seenIn x = false) →
    (s.env = .scripted (bs ++ rest) ds → bs.length = s.limit.toNat →
      (s.poll f).1 = .expired ∧ (s.poll f).2.env = .scripted rest ds ∧ (s.poll f).2.pollCnt = s.limit ∧
      (s.poll f).2.trace = s.trace ++ statusReads bs) ∧
    (∀ b, s.env = .scripted (bs ++ b :: rest) ds → bs.length < s.limit.toNat → f.seenIn b = true →
      (s.poll f).1 = .done ∧ (s.poll f).2.env = .scripted rest ds ∧ (s.poll f).2.sample = b ∧
      (s.poll f).2.pollCnt.toNat = bs.length + 1 ∧ (s.poll f).2.trace = s.trace ++ statusReads (bs ++ [b]))

/-! ## The nine commands -/

/-- R98, START: from every state, for every operand and every environment, one of its five ends, with its events in order, the
condition of each, its response, and what `fresh`, `poll_cnt`, `S` and `phase` are left at. -/
def Obligations.StartEndsAsItsRuleSays : Prop :=
  ∀ (addr : SlaveAddr) (dir : DirField) (s : State), ∃ t es, exec (.start addr dir) s = .next t ∧ Ran s t es ∧
    ( ((dir ≠ 0#2 ∧ dir ≠ 1#2) ∧ es = [] ∧ Answered s t .invalidDirection false ∧ t.phase = s.phase ∧ t.fresh = s.fresh ∧
        t.pollCnt = s.pollCnt ∧ t.sample = s.sample)
    ∨ ((dir = 0#2 ∨ dir = 1#2) ∧ ∃ b0, busOf b0 ≠ .idle ∧ es = [.readStatus b0] ∧
        Answered s t (.busBusy (busOf b0)) false ∧ t.phase = s.phase ∧ t.fresh = s.fresh ∧
        t.pollCnt = s.pollCnt ∧ t.sample = b0)
    ∨ (∃ d b0 bs, direction? dir = some d ∧ busOf b0 = .idle ∧ WaitExpires (addressFlag d) s.limit bs ∧
        es = .readStatus b0 :: .writeAddr (compose addr d) :: statusReads bs ∧
        Answered s t .sendTimeout false ∧ t.phase = .data ∧ t.fresh = true ∧
        t.pollCnt = s.limit ∧ t.sample = bs.getLast?.getD b0)
    ∨ (∃ d b0 bs b, direction? dir = some d ∧ busOf b0 = .idle ∧ WaitSees (addressFlag d) s.limit bs b ∧ rxnackOf b = true ∧
        es = .readStatus b0 :: .writeAddr (compose addr d) :: statusReads (bs ++ [b]) ++ [.command .stop] ∧
        Answered s t .nack false ∧ t.phase = .idle ∧ t.fresh = true ∧
        t.pollCnt.toNat = bs.length + 1 ∧ t.sample = b)
    ∨ (∃ d b0 bs b, direction? dir = some d ∧ busOf b0 = .idle ∧ WaitSees (addressFlag d) s.limit bs b ∧ rxnackOf b = false ∧
        es = .readStatus b0 :: .writeAddr (compose addr d) :: statusReads (bs ++ [b]) ∧
        Answered s t .ok false ∧ t.phase = .data ∧ t.fresh = true ∧
        t.pollCnt.toNat = bs.length + 1 ∧ t.sample = b) )

/-- R100, RSTART, in the same form; no case makes an adapter command. -/
def Obligations.RstartEndsAsItsRuleSays : Prop :=
  ∀ (addr : SlaveAddr) (dir : DirField) (s : State), ∃ t es, exec (.rstart addr dir) s = .next t ∧ Ran s t es ∧
    ( ((dir ≠ 0#2 ∧ dir ≠ 1#2) ∧ es = [] ∧ Answered s t .invalidDirection false ∧ t.phase = s.phase ∧ t.fresh = s.fresh ∧
        t.pollCnt = s.pollCnt ∧ t.sample = s.sample)
    ∨ ((dir = 0#2 ∨ dir = 1#2) ∧ ∃ b0, busOf b0 ≠ .owner ∧ es = [.readStatus b0] ∧
        Answered s t (.busBusy (busOf b0)) false ∧ t.phase = s.phase ∧ t.fresh = s.fresh ∧
        t.pollCnt = s.pollCnt ∧ t.sample = b0)
    ∨ (∃ d b0 bs, direction? dir = some d ∧ busOf b0 = .owner ∧ WaitExpires (addressFlag d) s.limit bs ∧
        es = .readStatus b0 :: .writeAddr (compose addr d) :: statusReads bs ∧
        Answered s t .sendTimeout false ∧ t.phase = .data ∧ t.fresh = false ∧
        t.pollCnt = s.limit ∧ t.sample = bs.getLast?.getD b0)
    ∨ (∃ d b0 bs b, direction? dir = some d ∧ busOf b0 = .owner ∧ WaitSees (addressFlag d) s.limit bs b ∧
        es = .readStatus b0 :: .writeAddr (compose addr d) :: statusReads (bs ++ [b]) ∧
        Answered s t (if rxnackOf b then .nack else .ok) false ∧ t.phase = .data ∧ t.fresh = false ∧
        t.pollCnt.toNat = bs.length + 1 ∧ t.sample = b) )

/-- R102, STOP: one event, no read, Ok, from every state. -/
def Obligations.StopIsUnconditional : Prop :=
  ∀ s : State, ∃ t, exec .stop s = .next t ∧ Ran s t [.command .stop] ∧ Answered s t .ok false ∧ t.phase = .idle ∧
    t.pollCnt = s.pollCnt ∧ t.sample = s.sample

/-- R108, SEND: the ownership check, the write, the wait for the write-complete flag, the acknowledgment; never a stop. -/
def Obligations.SendEndsAsItsRuleSays : Prop :=
  ∀ (x : Byte) (s : State), ∃ t es, exec (.send x) s = .next t ∧ Ran s t es ∧
    ( (∃ b0, busOf b0 ≠ .owner ∧ es = [.readStatus b0] ∧ Answered s t (.busBusy (busOf b0)) false ∧ t.phase = s.phase ∧
        t.pollCnt = s.pollCnt ∧ t.sample = b0)
    ∨ (∃ b0 bs, busOf b0 = .owner ∧ WaitExpires .wif s.limit bs ∧ es = .readStatus b0 :: .writeData x :: statusReads bs ∧
        Answered s t .sendTimeout false ∧ t.phase = .data ∧ t.pollCnt = s.limit ∧ t.sample = bs.getLast?.getD b0)
    ∨ (∃ b0 bs b, busOf b0 = .owner ∧ WaitSees .wif s.limit bs b ∧
        es = .readStatus b0 :: .writeData x :: statusReads (bs ++ [b]) ∧
        Answered s t (if rxnackOf b then .nack else .ok) false ∧ t.phase = .data ∧
        t.pollCnt.toNat = bs.length + 1 ∧ t.sample = b) )

/-- R110, RECV: the ownership check, the wait for the read-complete flag, the byte, and exactly one command, which is
`nack-and-stop` exactly for policy Nack (R111); the byte is in `RXBYTE` and in the response. -/
def Obligations.RecvEndsAsItsRuleSays : Prop :=
  ∀ (p : AckPolicy) (s : State), ∃ t es, exec (.recv p) s = .next t ∧ Ran s t es ∧
    ( (∃ b0, busOf b0 ≠ .owner ∧ es = [.readStatus b0] ∧ Answered s t (.busBusy (busOf b0)) false ∧ t.phase = s.phase ∧
        t.rxByte = s.rxByte ∧ t.pollCnt = s.pollCnt ∧ t.sample = b0)
    ∨ (∃ b0 bs, busOf b0 = .owner ∧ WaitExpires .rif s.limit bs ∧ es = .readStatus b0 :: statusReads bs ∧
        Answered s t .receiveTimeout false ∧ t.phase = .data ∧ t.rxByte = s.rxByte ∧
        t.pollCnt = s.limit ∧ t.sample = bs.getLast?.getD b0)
    ∨ (∃ b0 bs b x, busOf b0 = .owner ∧ WaitSees .rif s.limit bs b ∧
        es = .readStatus b0 :: statusReads (bs ++ [b]) ++
          [.readData x, .command (if p = .nack then .nackAndStop else .continueReceive)] ∧
        Answered s t .ok true ∧ rspData t.rsp = x ∧ t.rxByte = x ∧ t.phase = (if p = .nack then .idle else .data) ∧
        t.pollCnt.toNat = bs.length + 1 ∧ t.sample = b) )

/-- R116, WRREG: START(addr, Write), SEND(reg), SEND(data), STOP, ending at the first outcome that is not Ok. -/
def Obligations.WrregRunsItsSteps : Prop :=
  ∀ (addr : SlaveAddr) (reg data : Byte) (s : State), ∃ t o es, exec (.wrreg addr reg data) s = .next t ∧ Ran s t es ∧
    StepsEnd s.limit [.start addr 0#2, .send reg, .send data, .stop] o es ∧ Answered s t o false ∧
    o ≠ .invalidDirection ∧ o ≠ .receiveTimeout

/-- R117, RDREG: START(addr, Write), SEND(reg), RSTART(addr, Read), RECV(Nack); Ok carries the byte read. -/
def Obligations.RdregRunsItsSteps : Prop :=
  ∀ (addr : SlaveAddr) (reg : Byte) (s : State), ∃ t o es, exec (.rdreg addr reg) s = .next t ∧ Ran s t es ∧
    StepsEnd s.limit [.start addr 0#2, .send reg, .rstart addr 1#2, .recv .nack] o es ∧ Answered s t o (decide (o = .ok)) ∧
    o ≠ .invalidDirection ∧
    (o = .ok → ∃ pre x, es = pre ++ [.readData x, .command .nackAndStop] ∧ t.rxByte = x ∧ rspData t.rsp = x)

/-- R118, WRBYTE: START(addr, Write), SEND(data), STOP. -/
def Obligations.WrbyteRunsItsSteps : Prop :=
  ∀ (addr : SlaveAddr) (data : Byte) (s : State), ∃ t o es, exec (.wrbyte addr data) s = .next t ∧ Ran s t es ∧
    StepsEnd s.limit [.start addr 0#2, .send data, .stop] o es ∧ Answered s t o false ∧
    o ≠ .invalidDirection ∧ o ≠ .receiveTimeout

/-- R119, RDBYTE: START(addr, Read), RECV(Nack); Ok carries the byte read. -/
def Obligations.RdbyteRunsItsSteps : Prop :=
  ∀ (addr : SlaveAddr) (s : State), ∃ t o es, exec (.rdbyte addr) s = .next t ∧ Ran s t es ∧
    StepsEnd s.limit [.start addr 1#2, .recv .nack] o es ∧ Answered s t o (decide (o = .ok)) ∧
    o ≠ .invalidDirection ∧
    (o = .ok → ∃ pre x, es = pre ++ [.readData x, .command .nackAndStop] ∧ t.rxByte = x ∧ rspData t.rsp = x)

/-- R37, "a model must admit every such interleaving": every run the protocol relation allows a command, with every sequence of
answers, is a run of the model from some state. (The runs the commands make are in the relation by the statements above.) -/
def Obligations.EveryProtocolRunIsARunOfTheModel : Prop :=
  ∀ (i : Instr) (limit : Count) (o : TxOutcome) (es : List Event), StepsEnd limit (primsOf i) o es →
    ∃ s t : State, s.limit = limit ∧ s.trace = [] ∧ exec i s = .next t ∧ Ran s t es ∧
      rspOutcome t.rsp = o.code ∧ rspObs t.rsp = o.obsCode

/-! ## Rules about all commands -/

/-- R82: a host that issues the expansion as separate commands, "stopping at the first response that is not Ok, causes the same
adapter events as the composite does", and leaves the environment the same, with the same outcome and byte at the end. -/
def Obligations.CompositeEqualsItsExpansion : Prop :=
  ∀ (i : Instr) (s : State) (limit : Count), ∃ t u,
    runCommand (encode i) limit s = .next t ∧ runHost limit (expansion i) s = .next u ∧
    u.trace = t.trace ∧ u.env = t.env ∧ u.phase = t.phase ∧ u.rxByte = t.rxByte ∧
    rspOutcome u.rsp = rspOutcome t.rsp ∧ rspObs u.rsp = rspObs t.rsp ∧ rspDv u.rsp = rspDv t.rsp ∧
    (rspDv t.rsp = true → rspData u.rsp = rspData t.rsp)

/-- R103: the stop command is issued by STOP, by WRREG and WRBYTE as their last step on Ok, and as the implicit stop when a fresh
address was not acknowledged; nowhere else. It is then the last event, and the only one of its kind. -/
def Obligations.StopCommandOnlyWhereTheRuleSays : Prop :=
  ∀ (i : Instr) (s : State), ∃ t es, exec i s = .next t ∧ Ran s t es ∧
    (Event.command .stop ∈ es ↔
      (i = .stop ∨
       (rspOutcome t.rsp = 0#3 ∧ ((∃ a r b, i = .wrreg a r b) ∨ ∃ a b, i = .wrbyte a b)) ∨
       (rspOutcome t.rsp = 1#3 ∧ (∀ a d, i ≠ .rstart a d) ∧ (∀ x, i ≠ .send x) ∧
        (∀ x, Event.writeData x ∉ es)))) ∧
    (Event.command .stop ∈ es → ∃ pre, es = pre ++ [.command .stop] ∧ Event.command .stop ∉ pre)

/-- R34: the rest value of `phase`: `IDLE` if the last adapter write of the operation was a stop, `DATA` if it was another write
or the operation made none but passed the ownership check of RECV, else what it was. -/
def Obligations.RestPhaseFollowsTheLastWrite : Prop :=
  ∀ (i : Instr) (s : State), ∃ t es, exec i s = .next t ∧ Ran s t es ∧
    t.phase = (match lastWrite? es with
      | some e => if e.isStop then .idle else .data
      | none => if rspOutcome t.rsp = 5#3 then .data else s.phase)

/-- R161: the greatest number of adapter events of each command, whatever the environment does; STOP makes exactly one. -/
def Obligations.EventsAreBounded : Prop :=
  ∀ (i : Instr) (s : State), ∃ t es, exec i s = .next t ∧ Ran s t es ∧ es.length ≤ maxEvents i s.limit.toNat ∧
    (i = .stop → es.length = 1)

/-- R161, the column "path that reaches it": for `N` ≥ 1 each of the bounds is reached by some run. -/
def Obligations.EventBoundsAreReached : Prop :=
  ∀ (i : Instr) (limit : Count), 1 ≤ limit.toNat → (∀ a d, i = .start a d ∨ i = .rstart a d → d = 0#2 ∨ d = 1#2) →
    ∃ s t es, s.limit = limit ∧ exec i s = .next t ∧ Ran s t es ∧ es.length = maxEvents i limit.toNat

/-- R28 and R131: what a command does depends only on its operands, the bound and the environment: from two states that agree on
the bound and on the environment it makes the same events and gives the same response, whatever else they hold. -/
def Obligations.CommandsIgnoreTheEnginesHistory : Prop :=
  ∀ (i : Instr) (s s' : State), s.env = s'.env → s.reads = s'.reads → s.limit = s'.limit →
    ∃ t t' es, exec i s = .next t ∧ exec i s' = .next t' ∧ Ran s t es ∧ Ran s' t' es ∧ t.env = t'.env ∧
      rspOutcome t.rsp = rspOutcome t'.rsp ∧ rspObs t.rsp = rspObs t'.rsp ∧ rspDv t.rsp = rspDv t'.rsp ∧
      (rspDv t.rsp = true → rspData t.rsp = rspData t'.rsp)

/-- R41, R42, R43, R45: which command makes which access, with which byte, and how often: an address write, a data write and a data read
at most once per step of its kind, exactly once per step when the command returns Ok; `continue-receive` by RECV with policy Ack
and `nack-and-stop` by RECV with policy Nack, RDREG and RDBYTE, once, exactly when they return Ok (the stop command has a statement of
its own); `none` is issued "never". -/
def Obligations.AccessesPerCommand : Prop :=
  ∀ (i : Instr) (s : State), ∃ t es, exec i s = .next t ∧ Ran s t es ∧ Event.command .none ∉ es ∧
    (∀ b, Event.writeAddr b ∈ es → ∃ a d, b = compose a d ∧
      ((∃ f, i = .start a f ∧ direction? f = some d) ∨ (∃ f, i = .rstart a f ∧ direction? f = some d) ∨
       (∃ r x, i = .wrreg a r x ∧ d = .write) ∨ (∃ r, i = .rdreg a r) ∨ (∃ x, i = .wrbyte a x ∧ d = .write) ∨
       (i = .rdbyte a ∧ d = .read))) ∧
    (∀ b, Event.writeData b ∈ es →
      (i = .send b ∨ (∃ a r x, i = .wrreg a r x ∧ (b = r ∨ b = x)) ∨ (∃ a, i = .rdreg a b) ∨ ∃ a, i = .wrbyte a b)) ∧
    (∀ b, Event.readData b ∈ es → returnsByte i = true ∧ rspOutcome t.rsp = 0#3) ∧
    (es.countP Event.isAddrWrite ≤ (primsOf i).countP Prim.isAddress ∧
      es.countP Event.isDataWrite ≤ (primsOf i).countP Prim.isSend ∧
      es.countP Event.isDataRead ≤ (primsOf i).countP Prim.isRecv) ∧
    (rspOutcome t.rsp = 0#3 →
      es.countP Event.isAddrWrite = (primsOf i).countP Prim.isAddress ∧
      es.countP Event.isDataWrite = (primsOf i).countP Prim.isSend ∧
      es.countP Event.isDataRead = (primsOf i).countP Prim.isRecv) ∧
    es.count (.command .continueReceive) = (if i = .recv .ack ∧ rspOutcome t.rsp = 0#3 then 1 else 0) ∧
    es.count (.command .nackAndStop) =
      (if returnsByte i = true ∧ i ≠ .recv .ack ∧ rspOutcome t.rsp = 0#3 then 1 else 0)

/-- R24 and R26: `RXBYTE` holds the byte of the last data read and `S` the last status sample, each as before when the operation
made no such read; a response that carries a byte carries `RXBYTE`. -/
def Obligations.AnswersAreCaptured : Prop :=
  ∀ (i : Instr) (s : State), ∃ t es, exec i s = .next t ∧ Ran s t es ∧
    t.rxByte = (lastByte? es).getD s.rxByte ∧ t.sample = (lastSample? es).getD s.sample ∧
    (rspDv t.rsp = true → rspData t.rsp = t.rxByte ∧ lastByte? es = some t.rxByte)

/-! ## Frames -/

/-- R18 and R23 and the rest of the frame every command has: the latches, the bound, the inputs, the adapter's configuration and the
moves to come are as before; `fresh` is written only by a command with a START or RSTART step; `step` is written only by a
composite; `RXBYTE` only by RECV, RDREG and RDBYTE, and only on Ok; `poll_cnt` not by a primitive whose check fails. That `step` is
left at the last step's index is R20 read with R115 (log entry 19, DEDUCED). -/
def Obligations.CommandFrame : Prop :=
  ∀ (i : Instr) (s t : State), exec i s = .next t →
    t.lat = s.lat ∧ t.limit = s.limit ∧ t.pins = s.pins ∧ t.cfg = s.cfg ∧ t.moves = s.moves ∧
    ((i = .stop ∨ (∃ x, i = .send x) ∨ ∃ p, i = .recv p) → t.fresh = s.fresh) ∧
    ((primsOf i).length = 1 → t.stepIx = s.stepIx) ∧
    (rspOutcome t.rsp = 0#3 → t.stepIx = s.stepIx + BitVec.ofNat 2 ((primsOf i).length - 1)) ∧
    ((returnsByte i = false ∨ rspOutcome t.rsp ≠ 0#3) → t.rxByte = s.rxByte) ∧
    ((primsOf i).length = 1 → (rspOutcome t.rsp = 2#3 ∨ rspOutcome t.rsp = 3#3) → t.pollCnt = s.pollCnt)

/-- R39, R50: the commands that send no data byte store nothing: on `RefBus`, START, RSTART, STOP, RECV and RDBYTE leave every byte of the
slave memory as it was. (Under a scripted environment the model shows no slave memory and `readMem` is 0x00 by convention, log entry 15,
so there the statement says nothing of a slave.) -/
def Obligations.NonSendingCommandsLeaveMemory : Prop :=
  ∀ (i : Instr) (s t : State),
    ((∃ a d, i = .start a d) ∨ (∃ a d, i = .rstart a d) ∨ i = .stop ∨ (∃ p, i = .recv p) ∨ ∃ a, i = .rdbyte a) →
    exec i s = .next t → ∀ a, t.readMem a = s.readMem a

/-- R62 and R108: SEND stores exactly where the slave's write rule puts the byte, computed on the slave as the precondition read
leaves it; every other byte reads as before. -/
def Obligations.SendStoresOnlyAtThePointer : Prop :=
  ∀ (x : Byte) (s t : State) (r : RefBus), s.env = .refBus r → r.wf = true → exec (.send x) s = .next t →
    (∀ a, r.tick.storeAddr? = some a → t.readMem a = x) ∧
    (∀ a, r.tick.storeAddr? ≠ some a → t.readMem a = s.readMem a)

/-- R124's storing side: WRREG stores at its register number and nowhere else, and stores its byte there when it returns Ok; RDREG
and WRBYTE store nothing (R117, R118: their one data byte sets the slave's pointer). -/
def Obligations.CompositesStoreOnlyAtTheRegister : Prop :=
  ∀ (s t : State) (r : RefBus), s.env = .refBus r → r.wf = true →
    (∀ addr reg data, exec (.wrreg addr reg data) s = .next t →
      (∀ a, a ≠ reg.toNat → t.readMem a = s.readMem a) ∧
      (rspOutcome t.rsp = 0#3 → t.readMem reg.toNat = data)) ∧
    (∀ addr reg, exec (.rdreg addr reg) s = .next t → ∀ a, t.readMem a = s.readMem a) ∧
    (∀ addr data, exec (.wrbyte addr data) s = .next t → ∀ a, t.readMem a = s.readMem a)

/-! ## The bus -/

/-- R59: `RefBus` keeps the adapter contract R52 to R58, with no other participant and no fault; every state it can be in (log entry 8)
has a record of the bus that goes with it, and from every such state it answers every access of the engine and its clock can tick. How
the record goes with `RefBus` is log entry 14. -/
def Obligations.RefBusKeepsTheContract : Prop :=
  refBusAdapter.Keeps ∧ refBusAdapter.NoOtherParticipant ∧ refBusAdapter.NoFault ∧
  (∀ r : RefBus, r.wf = true → ∃ w, r.Linked w) ∧
  (∀ (x : { x : RefBus × Wire // x.1.Linked x.2 }) (ev : Event), (∀ b, ev = .readStatus b → b = x.1.1.status) →
    (∀ b, ev = .readData b → b = x.1.1.dreg) → ∃ y, refBusAdapter.move (.engine ev) x y) ∧
  (∀ x : { x : RefBus × Wire // x.1.Linked x.2 }, ∃ act, ∃ y : { y : RefBus × Wire // y.1.Linked y.2 },
    act.own = true ∧ refBusAdapter.move act x y ∧ y.1.1 = x.1.1.tick)

/-- R61 to R65: what a command does with `RefBus` is a run of events that `RefBus` takes part in, from the state it was in to the
state it is left in. -/
def Obligations.CommandsPlayWithRefBus : Prop :=
  ∀ (i : Instr) (s : State) (x : { x : RefBus × Wire // x.1.Linked x.2 }), s.env = .refBus x.1.1 →
    ∃ t es, ∃ y : { y : RefBus × Wire // y.1.Linked y.2 }, exec i s = .next t ∧ t.trace = s.trace ++ es ∧
      t.env = .refBus y.1.1 ∧ refBusAdapter.Plays x es y

/-- R99: with an adapter that keeps the contract (its premise on the address byte as log entry 11 reads R53), no other participant and
no fault of the bus, START that returns Ok leaves the bus owned by this master, and START that returns Nack leaves it idle. For every
adapter, every state of the engine and every run of events the adapter takes part in. -/
def Obligations.StartLeavesTheBusOwnedOrIdle : Prop :=
  ∀ (A : Adapter), A.Keeps → A.NoOtherParticipant → A.NoFault →
    ∀ (addr : SlaveAddr) (dir : DirField) (s t : State) (es : List Event) (e e' : A.State),
      exec (.start addr dir) s = .next t → t.trace = s.trace ++ es → A.Plays e es e' →
      (rspOutcome t.rsp = 0#3 → A.bus e' = .owner) ∧ (rspOutcome t.rsp = 1#3 → A.bus e' = .idle)

/-- R106, R130 and R152: with an adapter that keeps the contract and no fault of the bus, RSTART that returns Ok or Nack leaves the bus
owned. -/
def Obligations.RstartKeepsTheBus : Prop :=
  ∀ (A : Adapter), A.Keeps → A.NoFault →
    ∀ (addr : SlaveAddr) (dir : DirField) (s t : State) (es : List Event) (e e' : A.State),
      exec (.rstart addr dir) s = .next t → t.trace = s.trace ++ es → A.Plays e es e' →
      (rspOutcome t.rsp = 0#3 ∨ rspOutcome t.rsp = 1#3) → A.bus e' = .owner

/-- R106, R57 and R153: with an adapter that keeps the contract, no other participant and no fault of the bus, STOP on an owned bus and
RECV with policy Nack that returns Ok leave the bus idle. -/
def Obligations.StopAndLastReadReleaseTheBus : Prop :=
  ∀ (A : Adapter), A.Keeps → A.NoOtherParticipant → A.NoFault →
    ∀ (s t : State) (es : List Event) (e e' : A.State), t.trace = s.trace ++ es → A.Plays e es e' →
      (exec .stop s = .next t → A.bus e = .owner → A.bus e' = .idle) ∧
      (exec (.recv .nack) s = .next t → rspOutcome t.rsp = 0#3 → A.bus e' = .idle)

/-- R112: on `RefBus`, after a RECV with policy Nack that returned Ok, a RECV or a SEND makes one status read and returns BusBusy
with the observed state Idle. -/
def Obligations.ReadAfterTheLastReadFails : Prop :=
  ∀ (s t : State) (r : RefBus), s.env = .refBus r → r.wf = true → exec (.recv .nack) s = .next t → rspOutcome t.rsp = 0#3 →
    ∀ i : Instr, ((∃ p, i = .recv p) ∨ ∃ x, i = .send x) →
      ∃ u b, exec i t = .next u ∧ Ran t u [.readStatus b] ∧ Answered t u (.busBusy .idle) false

/-- R124 on `RefBus`: WRREG followed by RDREG of the same register returns Ok and the written byte, whenever the slave answers within
the bound. -/
def Obligations.WriteThenReadBack : Prop :=
  ∀ (s : State) (r : RefBus) (reg data : Byte) (k : Nat), s.env = .refBus r → r.wf = true → r.bus = .idle →
    r.lat = some k → k < s.limit.toNat →
    ∃ t u, exec (.wrreg r.saddr reg data) s = .next t ∧ rspOutcome t.rsp = 0#3 ∧
      exec (.rdreg r.saddr reg) t = .next u ∧ rspOutcome u.rsp = 0#3 ∧ rspDv u.rsp = true ∧ rspData u.rsp = data

/-! ## The engine event by event -/

/-- R37: run event by event from the acceptance of a legal word, reading its operands from the latches, the engine comes to the
state the command's meaning gives, in one engine step for each adapter event and one for the end, busy until then. At acceptance
`phase` is at one of its rest values (R34, the part `rest_phase` of the invariant). -/
def Obligations.EventStepsAgreeWithTheCommand : Prop :=
  ∀ (w : Word) (i : Instr) (limit : Count) (s : State), decode w = .ok i → s.phase.atRest = true →
    ∃ n t, exec i (s.accept w limit) = .next t ∧ runEngine (n + 1) (s.accept w limit) = t ∧
      (runEngine n (s.accept w limit)).busy = true ∧ t.trace.length = s.trace.length + n

/-- R162: "an operation cannot hang on the environment": from every state of the invariant with a running operation, the operation
ends within the bound of its command, whatever the environment answers. -/
def Obligations.RunningOperationEnds : Prop :=
  ∀ s : State, s.Inv → s.busy = true →
    ∃ i n, s.lat.instr? = some i ∧ n ≤ maxEvents i s.limit.toNat + 1 ∧ (runEngine n s).busy = false ∧
      (runEngine n s).rspValid = true

/-- R33: the transitions of `phase`, for every step of a running operation in a state of the invariant: to `ADDRESS` with the address
write; to `DATA` with the data write and with RECV's passed check; to `ACKCHECK` with the sample that shows the flag of an address or
of a sent byte, and with the data read; `continue-receive` in `ACKCHECK`; to `STOP` with every stop command, from `ACKCHECK` but for the
STOP step; from `ACKCHECK` to `DATA` when the next primitive begins; and at the end of the operation to the rest value. Where in a step
the passage falls is log entry 13 (DEDUCED). -/
def Obligations.PhaseFollowsTheTransitionTable : Prop :=
  ∀ s t : State, s.Inv → s.busy = true → engineStep s = t →
    ∃ p, s.currentPrim = some p ∧
      (∀ b, t.access = some (.writeAddr b) → t.phase = .address) ∧
      (∀ b, t.access = some (.writeData b) → t.phase = .data) ∧
      (∀ b, t.access = some (.readStatus b) → s.phase = .address →
        t.phase = if p.flag.seenIn b then .ackCheck else .address) ∧
      (∀ b x, t.access = some (.readStatus b) → s.pos = .poll → p = .send x → t.phase = if wifOf b then .ackCheck else .data) ∧
      (∀ b q, t.access = some (.readStatus b) → s.pos = .poll → p = .recv q → t.phase = .data) ∧
      (∀ b q, t.access = some (.readStatus b) → s.pos = .begin → p = .recv q →
        t.phase = if busOf b = .owner then .data else s.phase) ∧
      (∀ b, t.access = some (.readStatus b) → s.pos = .begin → (∀ q, p ≠ .recv q) → t.phase = s.phase) ∧
      (∀ b, t.access = some (.readStatus b) → s.phase = .ackCheck → t.phase = .data) ∧
      (∀ b, t.access = some (.readData b) → s.phase = .data ∧ t.phase = .ackCheck) ∧
      (t.access = some (.command .continueReceive) → s.phase = .ackCheck ∧ t.phase = .ackCheck) ∧
      (t.access = some (.command .nackAndStop) → s.phase = .ackCheck ∧ t.phase = .stop) ∧
      (t.access = some (.command .stop) → (s.phase = .ackCheck ∨ p = .stop) ∧ t.phase = .stop) ∧
      (t.access = none → t.busy = false ∧
        t.phase = match s.phase with
          | .address => .data
          | .ackCheck => .data
          | .stop => .idle
          | q => q)

/-- R44, R45, R19, R77 and R25: the places of the fields of a status sample and of the response word, and the codes of the Bus State, of
the adapter commands, of the phases and of the outcomes. -/
def Obligations.FieldsAndCodesAreAtTheirPlaces : Prop :=
  (∀ b : Byte, rifOf b = b.getLsbD 7 ∧ wifOf b = b.getLsbD 6 ∧ rxnackOf b = b.getLsbD 4 ∧
    CompletionFlag.rif.seenIn b = b.getLsbD 7 ∧ CompletionFlag.wif.seenIn b = b.getLsbD 6 ∧
    (busOf b = .unknown ↔ b.extractLsb' 0 2 = 0#2) ∧ (busOf b = .idle ↔ b.extractLsb' 0 2 = 1#2) ∧
    (busOf b = .owner ↔ b.extractLsb' 0 2 = 2#2) ∧ (busOf b = .busy ↔ b.extractLsb' 0 2 = 3#2)) ∧
  (∀ rif wif rxnack bus, packStatus rif wif rxnack bus =
    BitVec.ofBool rif ++ BitVec.ofBool wif ++ 0#1 ++ BitVec.ofBool rxnack ++ 0#2 ++ bus.code) ∧
  (BusState.code .unknown = 0#2 ∧ BusState.code .idle = 1#2 ∧ BusState.code .owner = 2#2 ∧ BusState.code .busy = 3#2) ∧
  (AdapterCmd.code .none = 0#2 ∧ AdapterCmd.code .stop = 1#2 ∧ AdapterCmd.code .continueReceive = 2#2 ∧
    AdapterCmd.code .nackAndStop = 3#2 ∧ ∀ c : AdapterCmd, AdapterCmd.ofCode c.code = c) ∧
  (Phase.code .idle = 0#3 ∧ Phase.code .address = 1#3 ∧ Phase.code .ackCheck = 2#3 ∧ Phase.code .data = 3#3 ∧
    Phase.code .stop = 4#3) ∧
  (TxOutcome.code .ok = 0#3 ∧ TxOutcome.code .nack = 1#3 ∧ (∀ b, TxOutcome.code (.busBusy b) = 2#3) ∧
    TxOutcome.code .invalidDirection = 3#3 ∧ TxOutcome.code .sendTimeout = 4#3 ∧ TxOutcome.code .receiveTimeout = 5#3) ∧
  (∀ r : BitVec 16, rspOutcome r = r.extractLsb' 0 3 ∧ rspObs r = r.extractLsb' 3 2 ∧ rspDv r = r.getLsbD 5 ∧
    rspIllegal r = r.getLsbD 6 ∧ rspReserved r = r.getLsbD 7 ∧ rspData r = r.extractLsb' 8 8)

/-- R143 and R144: reset leaves the inputs, the moves to come, the environment and the adapter's configuration as they are, makes no
adapter event and writes no response. (`trace`, `responses` and the counters of free values are the model's bookkeeping, log entries 1,
2 and 4.) -/
def Obligations.ResetLeavesTheOutsideAlone : Prop :=
  ∀ (s : State) (p : Pins) (rest : List Move), s.moves = .edge p :: rest → p.rst = true →
    ∃ t, step s = .next t ∧ t.env = s.env ∧ t.cfg = s.cfg ∧ t.pins = p ∧ t.moves = rest ∧ t.trace = s.trace ∧
      t.responses = s.responses ∧ t.reads = s.reads ∧ t.replies = s.replies

/-- R109 (b) and the SEND rows of R130: with an adapter that keeps the contract and no fault of the bus, SEND that returns Ok or Nack
leaves the bus owned. That a bus this master holds reads Owner once the byte is over is the premise `BusMeans.held` (log entry 21); that
the contract speaks of the data byte in a transaction opened for reading as in one opened for writing, where R109 (c) and U6 leave it to
the environment, is the model's choice (log entry 23). -/
def Obligations.SendKeepsTheBus : Prop :=
  ∀ (A : Adapter), A.Keeps → A.NoFault →
    ∀ (x : Byte) (s t : State) (es : List Event) (e e' : A.State),
      exec (.send x) s = .next t → t.trace = s.trace ++ es → A.Plays e es e' →
      (rspOutcome t.rsp = 0#3 ∨ rspOutcome t.rsp = 1#3) → A.bus e' = .owner

/-- The rows "unchanged" of R130 and R106, for every adapter: a START, RSTART, SEND or RECV whose check fails makes nothing but the status
read of its check, with InvalidDirection not even that, so nothing but moves of the environment's own lies between the two states of
the adapter. -/
def Obligations.FailedChecksTouchNothing : Prop :=
  ∀ (A : Adapter) (i : Instr) (s t : State) (es : List Event) (e e' : A.State), (primsOf i).length = 1 →
    exec i s = .next t → t.trace = s.trace ++ es → A.Plays e es e' →
    (rspOutcome t.rsp = 2#3 → A.Quiet e e' ∧ ∃ b, es = [.readStatus b]) ∧ (rspOutcome t.rsp = 3#3 → A.Quiet e e' ∧ es = [])

/-- R47, R53 and R57 on the bus: with an adapter that keeps the contract, has nothing under way, no other participant and no fault, START
that returns Ok has put a start condition and its acknowledged address byte on the bus, and for direction Read the slave's first byte
after it; START that returns Nack a start condition, its address byte not acknowledged, and a stop. -/
def Obligations.StartPutsItsAddressOnTheBus : Prop :=
  ∀ (A : Adapter), A.Keeps → A.NoOtherParticipant → A.NoFault →
    ∀ (addr : SlaveAddr) (dir : DirField) (d : Direction) (s t : State) (es : List Event) (e e' : A.State),
      direction? dir = some d → (A.wire e).pending = .none →
      exec (.start addr dir) s = .next t → t.trace = s.trace ++ es → A.Plays e es e' →
      (rspOutcome t.rsp = 0#3 →
        (d = .write → (A.wire e').items = (A.wire e).items ++ [.start, .sent (compose addr d) true]) ∧
        (d = .read → ∃ x, (A.wire e').items = (A.wire e).items ++ [.start, .sent (compose addr d) true, .received x] ∧
          A.dataReg e' = x)) ∧
      (rspOutcome t.rsp = 1#3 →
        (A.wire e').items = (A.wire e).items ++ [.start, .sent (compose addr d) false, .stop])
end

