-- ==== Sys2Proof/Laws/Memory.lean ====
section
/-!
SUPPORT. The laws of the slave memory: read after write, and that a write keeps the canonical form.
-/

namespace Sys2Proof.Machine.Memory

/-- A wider lower bound is a weaker claim. -/
theorem wfFrom_mono {lo lo' : Nat} (h : lo' ≤ lo) : ∀ {m : Memory}, wfFrom lo m = true → wfFrom lo' m = true
  | [], _ => rfl
  | (k, v) :: m, hm => by
    simp only [wfFrom, Bool.and_eq_true, decide_eq_true_eq] at hm ⊢
    exact ⟨by omega, hm.2⟩

/-- A list whose addresses start above `a` has no entry at `a`. -/
theorem read_of_lt {lo a : Nat} (h : a < lo) : ∀ {m : Memory}, wfFrom lo m = true → read m a = 0#8
  | [], _ => rfl
  | (k, v) :: m, hm => by
    simp only [wfFrom, Bool.and_eq_true, decide_eq_true_eq] at hm
    have hk : a ≠ k := by omega
    simp only [read, hk, if_false]
    exact read_of_lt (lo := k + 1) (by omega) hm.2.2.2

/-- A write keeps the canonical form, at every lower bound not above the address written. -/
theorem wfFrom_write {a : Nat} (b : Byte) (ha : a < 256) :
    ∀ {m : Memory} {lo : Nat}, lo ≤ a → wfFrom lo m = true → wfFrom lo (write m a b) = true
  | [], lo, hlo, _ => by
    unfold write
    split
    · rfl
    · next hb => simp [wfFrom, hlo, ha, hb]
  | (k, v) :: m, lo, hlo, hm => by
    have hm' := hm
    simp only [wfFrom, Bool.and_eq_true, decide_eq_true_eq] at hm'
    obtain ⟨h1, h2, h3, h4⟩ := hm'
    unfold write
    split
    · next hlt =>
      split
      · exact hm
      · next hb =>
        simp only [wfFrom, Bool.and_eq_true, decide_eq_true_eq]
        exact ⟨hlo, ha, hb, by omega, h2, h3, h4⟩
    · split
      · next heq =>
        split
        · exact wfFrom_mono (by omega) h4
        · next hb =>
          simp only [wfFrom, Bool.and_eq_true, decide_eq_true_eq]
          exact ⟨hlo, ha, hb, heq ▸ h4⟩
      · simp only [wfFrom, Bool.and_eq_true, decide_eq_true_eq]
        exact ⟨h1, h2, h3, wfFrom_write b ha (by omega) h4⟩

/-- A write keeps the canonical form. -/
theorem wf_write {m : Memory} {a : Nat} (b : Byte) (ha : a < 256) (h : m.wf = true) : (m.write a b).wf = true :=
  wfFrom_write b ha (Nat.zero_le a) h

/-- Reading the address written gives the byte written. -/
theorem read_write_same {a : Nat} (b : Byte) :
    ∀ {m : Memory} {lo : Nat}, wfFrom lo m = true → read (write m a b) a = b
  | [], _, _ => by
    unfold write
    split
    · next hb => rw [hb]; rfl
    · simp [read]
  | (k, v) :: m, lo, hm => by
    simp only [wfFrom, Bool.and_eq_true, decide_eq_true_eq] at hm
    obtain ⟨h1, h2, h3, h4⟩ := hm
    unfold write
    split
    · next hlt =>
      split
      · next hb =>
        have hk : a ≠ k := by omega
        simp only [read, hk, if_false, hb]
        exact read_of_lt (lo := k + 1) (by omega) h4
      · simp [read]
    · split
      · next heq =>
        split
        · next hb => rw [hb]; exact read_of_lt (lo := k + 1) (by omega) h4
        · simp [read]
      · next hne =>
        simp only [read, hne, if_false]
        exact read_write_same b h4

/-- A write leaves every other address alone. -/
theorem read_write_other {a c : Nat} (b : Byte) (hc : c ≠ a) :
    ∀ {m : Memory} {lo : Nat}, wfFrom lo m = true → read (write m a b) c = read m c
  | [], _, _ => by
    unfold write
    split
    · rfl
    · simp [read, hc]
  | (k, v) :: m, lo, hm => by
    simp only [wfFrom, Bool.and_eq_true, decide_eq_true_eq] at hm
    obtain ⟨h1, h2, h3, h4⟩ := hm
    unfold write
    split
    · split
      · rfl
      · simp [read, hc]
    · split
      · next heq =>
        split
        · have hk : c ≠ k := by omega
          simp [read, hk]
        · have hk : c ≠ k := by omega
          simp [read, hk, hc]
      · simp only [read]
        split
        · rfl
        · exact read_write_other b hc h4

end Sys2Proof.Machine.Memory
end

