-- ==== Sys2Proof/Laws/RefBus.lean ====
section
/-!
SUPPORT. What the operations of `RefBus` leave alone, and that each keeps its invariant.
-/

namespace Sys2Proof.Machine

/-! ### The status byte -/

@[simp] theorem wifOf_packStatus (a b c : Bool) (s : BusState) : wifOf (packStatus a b c s) = b := by
  cases a <;> cases b <;> cases c <;> cases s <;> decide

@[simp] theorem rifOf_packStatus (a b c : Bool) (s : BusState) : rifOf (packStatus a b c s) = a := by
  cases a <;> cases b <;> cases c <;> cases s <;> decide

@[simp] theorem rxnackOf_packStatus (a b c : Bool) (s : BusState) : rxnackOf (packStatus a b c s) = c := by
  cases a <;> cases b <;> cases c <;> cases s <;> decide

@[simp] theorem busOf_packStatus (a b c : Bool) (s : BusState) : busOf (packStatus a b c s) = s := by
  cases a <;> cases b <;> cases c <;> cases s <;> decide

namespace RefBus

variable (r : RefBus) (b : Byte)

@[simp] theorem wifOf_status : wifOf r.status = r.wif := wifOf_packStatus _ _ _ _
@[simp] theorem rifOf_status : rifOf r.status = r.rif := rifOf_packStatus _ _ _ _
@[simp] theorem rxnackOf_status : rxnackOf r.status = r.rxnack := rxnackOf_packStatus _ _ _ _
@[simp] theorem busOf_status : busOf r.status = r.bus := busOf_packStatus _ _ _ _

/-! ### The clock changes only the flags and the countdown -/

@[simp] theorem tick_bus : r.tick.bus = r.bus := by unfold tick; split <;> rfl
@[simp] theorem tick_rxnack : r.tick.rxnack = r.rxnack := by unfold tick; split <;> rfl
@[simp] theorem tick_dreg : r.tick.dreg = r.dreg := by unfold tick; split <;> rfl
@[simp] theorem tick_mem : r.tick.mem = r.mem := by unfold tick; split <;> rfl
@[simp] theorem tick_ptr : r.tick.ptr = r.ptr := by unfold tick; split <;> rfl
@[simp] theorem tick_mode : r.tick.mode = r.mode := by unfold tick; split <;> rfl
@[simp] theorem tick_first : r.tick.first = r.first := by unfold tick; split <;> rfl
@[simp] theorem tick_saddr : r.tick.saddr = r.saddr := by unfold tick; split <;> rfl
@[simp] theorem tick_lat : r.tick.lat = r.lat := by unfold tick; split <;> rfl

/-! ### Only a data write changes the memory -/

@[simp] theorem writeAddr_mem : (r.writeAddr b).mem = r.mem := by
  unfold writeAddr fetch
  repeat' split
  all_goals rfl

@[simp] theorem command_mem (c : AdapterCmd) : (r.command c).mem = r.mem := by
  cases c <;> simp only [command] <;> (try split) <;> rfl

/-- A data write stores exactly where `storeAddr?` says, and stores its byte. -/
theorem writeData_mem : (r.writeData b).mem =
    match r.storeAddr? with
    | some a => r.mem.write a b
    | none => r.mem := by
  unfold writeData storeAddr? take
  by_cases h1 : r.bus = .owner <;> by_cases h2 : r.mode = .rx <;> cases h3 : r.first <;> simp [h1, h2]

/-! ### The invariant -/

theorem wf_iff : r.wf = true ↔ r.mem.wf = true ∧
    (r.bus = .owner ∨ (r.wif = false ∧ r.rif = false ∧ r.pend = .none ∧ r.mode = .none)) := by
  simp [wf]

theorem mem_wf {r : RefBus} (h : r.wf = true) : r.mem.wf = true := ((wf_iff r).1 h).1

theorem tick_wf {r : RefBus} (h : r.wf = true) : r.tick.wf = true := by
  rw [wf_iff] at h ⊢
  obtain ⟨hm, h | ⟨h1, h2, h3, h4⟩⟩ := h
  · exact ⟨by simpa using hm, .inl (by simpa using h)⟩
  · have : r.tick = r := by unfold tick; rw [h3]
    rw [this]
    exact ⟨hm, .inr ⟨h1, h2, h3, h4⟩⟩

/-- An address write on an idle or owned bus makes it owned. -/
theorem writeAddr_bus (h : r.bus = .idle ∨ r.bus = .owner) : (r.writeAddr b).bus = .owner := by
  unfold writeAddr fetch
  rw [if_pos h]
  repeat' split
  all_goals rfl

theorem writeAddr_wf {r : RefBus} (h : r.wf = true) : (r.writeAddr b).wf = true := by
  by_cases hb : r.bus = .idle ∨ r.bus = .owner
  · rw [wf_iff]
    exact ⟨by simpa using mem_wf h, .inl (writeAddr_bus r b hb)⟩
  · unfold writeAddr
    rw [if_neg hb]
    exact h

@[simp] theorem writeData_bus : (r.writeData b).bus = r.bus := by
  unfold writeData take
  by_cases h1 : r.bus = .owner <;> by_cases h2 : r.mode = .rx <;> cases h3 : r.first <;> simp [h1, h2]

theorem writeData_wf {r : RefBus} (h : r.wf = true) : (r.writeData b).wf = true := by
  by_cases hb : r.bus = .owner
  · rw [wf_iff]
    refine ⟨?_, .inl (by simpa using hb)⟩
    rw [writeData_mem]
    split
    · next a ha =>
      unfold storeAddr? at ha
      split at ha
      · cases ha
        exact Memory.wf_write _ r.ptr.isLt (mem_wf h)
      · cases ha
    · exact mem_wf h
  · unfold writeData
    rw [if_neg hb]
    exact h

theorem command_wf {r : RefBus} (c : AdapterCmd) (h : r.wf = true) : (r.command c).wf = true := by
  have h' := (wf_iff r).1 h
  cases c with
  | none => exact h
  | stop =>
    simp only [command]
    split
    · rw [wf_iff]
      exact ⟨h'.1, .inr ⟨rfl, rfl, rfl, rfl⟩⟩
    · exact h
  | nackAndStop =>
    simp only [command]
    split
    · rw [wf_iff]
      exact ⟨h'.1, .inr ⟨rfl, rfl, rfl, rfl⟩⟩
    · exact h
  | continueReceive =>
    simp only [command]
    split
    · next hc =>
      rw [wf_iff]
      exact ⟨h'.1, .inl hc.1⟩
    · rw [wf_iff]
      refine ⟨h'.1, ?_⟩
      rcases h'.2 with hb | hb
      · exact .inl hb
      · exact .inr ⟨rfl, rfl, hb.2.2⟩

end RefBus

/-! ### The environment -/

theorem Env.readStatus_wf {e : Env} (free : Byte) (h : e.wf = true) : (e.readStatus free).2.wf = true := by
  cases e with
  | scripted bs ds => cases bs <;> rfl
  | refBus r => exact RefBus.tick_wf h

theorem Env.readData_wf {e : Env} (free : Byte) (h : e.wf = true) : (e.readData free).2.wf = true := by
  cases e with
  | scripted bs ds => cases ds <;> rfl
  | refBus r => exact h

theorem Env.writeAddr_wf {e : Env} (b : Byte) (h : e.wf = true) : (e.writeAddr b).wf = true := by
  cases e with
  | scripted bs ds => rfl
  | refBus r => exact RefBus.writeAddr_wf b h

theorem Env.writeData_wf {e : Env} (b : Byte) (h : e.wf = true) : (e.writeData b).wf = true := by
  cases e with
  | scripted bs ds => rfl
  | refBus r => exact RefBus.writeData_wf b h

theorem Env.command_wf {e : Env} (c : AdapterCmd) (h : e.wf = true) : (e.command c).wf = true := by
  cases e with
  | scripted bs ds => rfl
  | refBus r => exact RefBus.command_wf c h

end Sys2Proof.Machine
end

