-- ==== Sys2Proof/Laws/State.lean ====
section
/-!
SUPPORT. What every shared operation leaves in every field of the state, one lemma per field, true by computation.
-/

namespace Sys2Proof.Machine.State

/-! ### paReadStatus -/

@[simp] theorem paReadStatus_lat (s : State) : s.paReadStatus.lat = s.lat := rfl
@[simp] theorem paReadStatus_phase (s : State) : s.paReadStatus.phase = s.phase := rfl
@[simp] theorem paReadStatus_stepIx (s : State) : s.paReadStatus.stepIx = s.stepIx := rfl
@[simp] theorem paReadStatus_pollCnt (s : State) : s.paReadStatus.pollCnt = s.pollCnt := rfl
@[simp] theorem paReadStatus_busy (s : State) : s.paReadStatus.busy = s.busy := rfl
@[simp] theorem paReadStatus_limit (s : State) : s.paReadStatus.limit = s.limit := rfl
@[simp] theorem paReadStatus_rxByte (s : State) : s.paReadStatus.rxByte = s.rxByte := rfl
@[simp] theorem paReadStatus_rsp (s : State) : s.paReadStatus.rsp = s.rsp := rfl
@[simp] theorem paReadStatus_rspValid (s : State) : s.paReadStatus.rspValid = s.rspValid := rfl
@[simp] theorem paReadStatus_sample (s : State) : s.paReadStatus.sample = (s.env.readStatus (Config.freeAnswer s.reads)).1 := rfl
@[simp] theorem paReadStatus_fresh (s : State) : s.paReadStatus.fresh = s.fresh := rfl
@[simp] theorem paReadStatus_pos (s : State) : s.paReadStatus.pos = s.pos := rfl
@[simp] theorem paReadStatus_access (s : State) : s.paReadStatus.access = some (.readStatus (s.env.readStatus (Config.freeAnswer s.reads)).1) := rfl
@[simp] theorem paReadStatus_pins (s : State) : s.paReadStatus.pins = s.pins := rfl
@[simp] theorem paReadStatus_env (s : State) : s.paReadStatus.env = (s.env.readStatus (Config.freeAnswer s.reads)).2 := rfl
@[simp] theorem paReadStatus_cfg (s : State) : s.paReadStatus.cfg = s.cfg := rfl
@[simp] theorem paReadStatus_moves (s : State) : s.paReadStatus.moves = s.moves := rfl
@[simp] theorem paReadStatus_trace (s : State) : s.paReadStatus.trace = s.trace ++ [.readStatus (s.env.readStatus (Config.freeAnswer s.reads)).1] := rfl
@[simp] theorem paReadStatus_responses (s : State) : s.paReadStatus.responses = s.responses := rfl
@[simp] theorem paReadStatus_reads (s : State) : s.paReadStatus.reads = s.reads + 1 := rfl
@[simp] theorem paReadStatus_replies (s : State) : s.paReadStatus.replies = s.replies := rfl

/-! ### paReadData -/

@[simp] theorem paReadData_lat (s : State) : s.paReadData.lat = s.lat := rfl
@[simp] theorem paReadData_phase (s : State) : s.paReadData.phase = s.phase := rfl
@[simp] theorem paReadData_stepIx (s : State) : s.paReadData.stepIx = s.stepIx := rfl
@[simp] theorem paReadData_pollCnt (s : State) : s.paReadData.pollCnt = s.pollCnt := rfl
@[simp] theorem paReadData_busy (s : State) : s.paReadData.busy = s.busy := rfl
@[simp] theorem paReadData_limit (s : State) : s.paReadData.limit = s.limit := rfl
@[simp] theorem paReadData_rxByte (s : State) : s.paReadData.rxByte = (s.env.readData (Config.freeAnswer s.reads)).1 := rfl
@[simp] theorem paReadData_rsp (s : State) : s.paReadData.rsp = s.rsp := rfl
@[simp] theorem paReadData_rspValid (s : State) : s.paReadData.rspValid = s.rspValid := rfl
@[simp] theorem paReadData_sample (s : State) : s.paReadData.sample = s.sample := rfl
@[simp] theorem paReadData_fresh (s : State) : s.paReadData.fresh = s.fresh := rfl
@[simp] theorem paReadData_pos (s : State) : s.paReadData.pos = s.pos := rfl
@[simp] theorem paReadData_access (s : State) : s.paReadData.access = some (.readData (s.env.readData (Config.freeAnswer s.reads)).1) := rfl
@[simp] theorem paReadData_pins (s : State) : s.paReadData.pins = s.pins := rfl
@[simp] theorem paReadData_env (s : State) : s.paReadData.env = (s.env.readData (Config.freeAnswer s.reads)).2 := rfl
@[simp] theorem paReadData_cfg (s : State) : s.paReadData.cfg = s.cfg := rfl
@[simp] theorem paReadData_moves (s : State) : s.paReadData.moves = s.moves := rfl
@[simp] theorem paReadData_trace (s : State) : s.paReadData.trace = s.trace ++ [.readData (s.env.readData (Config.freeAnswer s.reads)).1] := rfl
@[simp] theorem paReadData_responses (s : State) : s.paReadData.responses = s.responses := rfl
@[simp] theorem paReadData_reads (s : State) : s.paReadData.reads = s.reads + 1 := rfl
@[simp] theorem paReadData_replies (s : State) : s.paReadData.replies = s.replies := rfl

/-! ### paWriteAddr -/

@[simp] theorem paWriteAddr_lat (s : State) (b : Byte) : (s.paWriteAddr b).lat = s.lat := rfl
@[simp] theorem paWriteAddr_phase (s : State) (b : Byte) : (s.paWriteAddr b).phase = s.phase := rfl
@[simp] theorem paWriteAddr_stepIx (s : State) (b : Byte) : (s.paWriteAddr b).stepIx = s.stepIx := rfl
@[simp] theorem paWriteAddr_pollCnt (s : State) (b : Byte) : (s.paWriteAddr b).pollCnt = s.pollCnt := rfl
@[simp] theorem paWriteAddr_busy (s : State) (b : Byte) : (s.paWriteAddr b).busy = s.busy := rfl
@[simp] theorem paWriteAddr_limit (s : State) (b : Byte) : (s.paWriteAddr b).limit = s.limit := rfl
@[simp] theorem paWriteAddr_rxByte (s : State) (b : Byte) : (s.paWriteAddr b).rxByte = s.rxByte := rfl
@[simp] theorem paWriteAddr_rsp (s : State) (b : Byte) : (s.paWriteAddr b).rsp = s.rsp := rfl
@[simp] theorem paWriteAddr_rspValid (s : State) (b : Byte) : (s.paWriteAddr b).rspValid = s.rspValid := rfl
@[simp] theorem paWriteAddr_sample (s : State) (b : Byte) : (s.paWriteAddr b).sample = s.sample := rfl
@[simp] theorem paWriteAddr_fresh (s : State) (b : Byte) : (s.paWriteAddr b).fresh = s.fresh := rfl
@[simp] theorem paWriteAddr_pos (s : State) (b : Byte) : (s.paWriteAddr b).pos = s.pos := rfl
@[simp] theorem paWriteAddr_access (s : State) (b : Byte) : (s.paWriteAddr b).access = some (.writeAddr b) := rfl
@[simp] theorem paWriteAddr_pins (s : State) (b : Byte) : (s.paWriteAddr b).pins = s.pins := rfl
@[simp] theorem paWriteAddr_env (s : State) (b : Byte) : (s.paWriteAddr b).env = s.env.writeAddr b := rfl
@[simp] theorem paWriteAddr_cfg (s : State) (b : Byte) : (s.paWriteAddr b).cfg = s.cfg := rfl
@[simp] theorem paWriteAddr_moves (s : State) (b : Byte) : (s.paWriteAddr b).moves = s.moves := rfl
@[simp] theorem paWriteAddr_trace (s : State) (b : Byte) : (s.paWriteAddr b).trace = s.trace ++ [.writeAddr b] := rfl
@[simp] theorem paWriteAddr_responses (s : State) (b : Byte) : (s.paWriteAddr b).responses = s.responses := rfl
@[simp] theorem paWriteAddr_reads (s : State) (b : Byte) : (s.paWriteAddr b).reads = s.reads := rfl
@[simp] theorem paWriteAddr_replies (s : State) (b : Byte) : (s.paWriteAddr b).replies = s.replies := rfl

/-! ### paWriteData -/

@[simp] theorem paWriteData_lat (s : State) (b : Byte) : (s.paWriteData b).lat = s.lat := rfl
@[simp] theorem paWriteData_phase (s : State) (b : Byte) : (s.paWriteData b).phase = s.phase := rfl
@[simp] theorem paWriteData_stepIx (s : State) (b : Byte) : (s.paWriteData b).stepIx = s.stepIx := rfl
@[simp] theorem paWriteData_pollCnt (s : State) (b : Byte) : (s.paWriteData b).pollCnt = s.pollCnt := rfl
@[simp] theorem paWriteData_busy (s : State) (b : Byte) : (s.paWriteData b).busy = s.busy := rfl
@[simp] theorem paWriteData_limit (s : State) (b : Byte) : (s.paWriteData b).limit = s.limit := rfl
@[simp] theorem paWriteData_rxByte (s : State) (b : Byte) : (s.paWriteData b).rxByte = s.rxByte := rfl
@[simp] theorem paWriteData_rsp (s : State) (b : Byte) : (s.paWriteData b).rsp = s.rsp := rfl
@[simp] theorem paWriteData_rspValid (s : State) (b : Byte) : (s.paWriteData b).rspValid = s.rspValid := rfl
@[simp] theorem paWriteData_sample (s : State) (b : Byte) : (s.paWriteData b).sample = s.sample := rfl
@[simp] theorem paWriteData_fresh (s : State) (b : Byte) : (s.paWriteData b).fresh = s.fresh := rfl
@[simp] theorem paWriteData_pos (s : State) (b : Byte) : (s.paWriteData b).pos = s.pos := rfl
@[simp] theorem paWriteData_access (s : State) (b : Byte) : (s.paWriteData b).access = some (.writeData b) := rfl
@[simp] theorem paWriteData_pins (s : State) (b : Byte) : (s.paWriteData b).pins = s.pins := rfl
@[simp] theorem paWriteData_env (s : State) (b : Byte) : (s.paWriteData b).env = s.env.writeData b := rfl
@[simp] theorem paWriteData_cfg (s : State) (b : Byte) : (s.paWriteData b).cfg = s.cfg := rfl
@[simp] theorem paWriteData_moves (s : State) (b : Byte) : (s.paWriteData b).moves = s.moves := rfl
@[simp] theorem paWriteData_trace (s : State) (b : Byte) : (s.paWriteData b).trace = s.trace ++ [.writeData b] := rfl
@[simp] theorem paWriteData_responses (s : State) (b : Byte) : (s.paWriteData b).responses = s.responses := rfl
@[simp] theorem paWriteData_reads (s : State) (b : Byte) : (s.paWriteData b).reads = s.reads := rfl
@[simp] theorem paWriteData_replies (s : State) (b : Byte) : (s.paWriteData b).replies = s.replies := rfl

/-! ### paCommand -/

@[simp] theorem paCommand_lat (s : State) (c : AdapterCmd) : (s.paCommand c).lat = s.lat := rfl
@[simp] theorem paCommand_phase (s : State) (c : AdapterCmd) : (s.paCommand c).phase = s.phase := rfl
@[simp] theorem paCommand_stepIx (s : State) (c : AdapterCmd) : (s.paCommand c).stepIx = s.stepIx := rfl
@[simp] theorem paCommand_pollCnt (s : State) (c : AdapterCmd) : (s.paCommand c).pollCnt = s.pollCnt := rfl
@[simp] theorem paCommand_busy (s : State) (c : AdapterCmd) : (s.paCommand c).busy = s.busy := rfl
@[simp] theorem paCommand_limit (s : State) (c : AdapterCmd) : (s.paCommand c).limit = s.limit := rfl
@[simp] theorem paCommand_rxByte (s : State) (c : AdapterCmd) : (s.paCommand c).rxByte = s.rxByte := rfl
@[simp] theorem paCommand_rsp (s : State) (c : AdapterCmd) : (s.paCommand c).rsp = s.rsp := rfl
@[simp] theorem paCommand_rspValid (s : State) (c : AdapterCmd) : (s.paCommand c).rspValid = s.rspValid := rfl
@[simp] theorem paCommand_sample (s : State) (c : AdapterCmd) : (s.paCommand c).sample = s.sample := rfl
@[simp] theorem paCommand_fresh (s : State) (c : AdapterCmd) : (s.paCommand c).fresh = s.fresh := rfl
@[simp] theorem paCommand_pos (s : State) (c : AdapterCmd) : (s.paCommand c).pos = s.pos := rfl
@[simp] theorem paCommand_access (s : State) (c : AdapterCmd) : (s.paCommand c).access = some (.command c) := rfl
@[simp] theorem paCommand_pins (s : State) (c : AdapterCmd) : (s.paCommand c).pins = s.pins := rfl
@[simp] theorem paCommand_env (s : State) (c : AdapterCmd) : (s.paCommand c).env = s.env.command c := rfl
@[simp] theorem paCommand_cfg (s : State) (c : AdapterCmd) : (s.paCommand c).cfg = s.cfg := rfl
@[simp] theorem paCommand_moves (s : State) (c : AdapterCmd) : (s.paCommand c).moves = s.moves := rfl
@[simp] theorem paCommand_trace (s : State) (c : AdapterCmd) : (s.paCommand c).trace = s.trace ++ [.command c] := rfl
@[simp] theorem paCommand_responses (s : State) (c : AdapterCmd) : (s.paCommand c).responses = s.responses := rfl
@[simp] theorem paCommand_reads (s : State) (c : AdapterCmd) : (s.paCommand c).reads = s.reads := rfl
@[simp] theorem paCommand_replies (s : State) (c : AdapterCmd) : (s.paCommand c).replies = s.replies := rfl

/-! ### pollOnce -/

@[simp] theorem pollOnce_lat (s : State) : s.pollOnce.lat = s.lat := rfl
@[simp] theorem pollOnce_phase (s : State) : s.pollOnce.phase = s.phase := rfl
@[simp] theorem pollOnce_stepIx (s : State) : s.pollOnce.stepIx = s.stepIx := rfl
@[simp] theorem pollOnce_pollCnt (s : State) : s.pollOnce.pollCnt = s.pollCnt + 1#16 := rfl
@[simp] theorem pollOnce_busy (s : State) : s.pollOnce.busy = s.busy := rfl
@[simp] theorem pollOnce_limit (s : State) : s.pollOnce.limit = s.limit := rfl
@[simp] theorem pollOnce_rxByte (s : State) : s.pollOnce.rxByte = s.rxByte := rfl
@[simp] theorem pollOnce_rsp (s : State) : s.pollOnce.rsp = s.rsp := rfl
@[simp] theorem pollOnce_rspValid (s : State) : s.pollOnce.rspValid = s.rspValid := rfl
@[simp] theorem pollOnce_sample (s : State) : s.pollOnce.sample = (s.env.readStatus (Config.freeAnswer s.reads)).1 := rfl
@[simp] theorem pollOnce_fresh (s : State) : s.pollOnce.fresh = s.fresh := rfl
@[simp] theorem pollOnce_pos (s : State) : s.pollOnce.pos = s.pos := rfl
@[simp] theorem pollOnce_access (s : State) : s.pollOnce.access = some (.readStatus (s.env.readStatus (Config.freeAnswer s.reads)).1) := rfl
@[simp] theorem pollOnce_pins (s : State) : s.pollOnce.pins = s.pins := rfl
@[simp] theorem pollOnce_env (s : State) : s.pollOnce.env = (s.env.readStatus (Config.freeAnswer s.reads)).2 := rfl
@[simp] theorem pollOnce_cfg (s : State) : s.pollOnce.cfg = s.cfg := rfl
@[simp] theorem pollOnce_moves (s : State) : s.pollOnce.moves = s.moves := rfl
@[simp] theorem pollOnce_trace (s : State) : s.pollOnce.trace = s.trace ++ [.readStatus (s.env.readStatus (Config.freeAnswer s.reads)).1] := rfl
@[simp] theorem pollOnce_responses (s : State) : s.pollOnce.responses = s.responses := rfl
@[simp] theorem pollOnce_reads (s : State) : s.pollOnce.reads = s.reads + 1 := rfl
@[simp] theorem pollOnce_replies (s : State) : s.pollOnce.replies = s.replies := rfl

/-! ### writeResponse -/

@[simp] theorem writeResponse_lat (s : State) (r : BitVec 16) : (s.writeResponse r).lat = s.lat := rfl
@[simp] theorem writeResponse_phase (s : State) (r : BitVec 16) : (s.writeResponse r).phase = s.phase := rfl
@[simp] theorem writeResponse_stepIx (s : State) (r : BitVec 16) : (s.writeResponse r).stepIx = s.stepIx := rfl
@[simp] theorem writeResponse_pollCnt (s : State) (r : BitVec 16) : (s.writeResponse r).pollCnt = s.pollCnt := rfl
@[simp] theorem writeResponse_busy (s : State) (r : BitVec 16) : (s.writeResponse r).busy = false := rfl
@[simp] theorem writeResponse_limit (s : State) (r : BitVec 16) : (s.writeResponse r).limit = s.limit := rfl
@[simp] theorem writeResponse_rxByte (s : State) (r : BitVec 16) : (s.writeResponse r).rxByte = s.rxByte := rfl
@[simp] theorem writeResponse_rsp (s : State) (r : BitVec 16) : (s.writeResponse r).rsp = r := rfl
@[simp] theorem writeResponse_rspValid (s : State) (r : BitVec 16) : (s.writeResponse r).rspValid = true := rfl
@[simp] theorem writeResponse_sample (s : State) (r : BitVec 16) : (s.writeResponse r).sample = s.sample := rfl
@[simp] theorem writeResponse_fresh (s : State) (r : BitVec 16) : (s.writeResponse r).fresh = s.fresh := rfl
@[simp] theorem writeResponse_pos (s : State) (r : BitVec 16) : (s.writeResponse r).pos = .begin := rfl
@[simp] theorem writeResponse_access (s : State) (r : BitVec 16) : (s.writeResponse r).access = none := rfl
@[simp] theorem writeResponse_pins (s : State) (r : BitVec 16) : (s.writeResponse r).pins = s.pins := rfl
@[simp] theorem writeResponse_env (s : State) (r : BitVec 16) : (s.writeResponse r).env = s.env := rfl
@[simp] theorem writeResponse_cfg (s : State) (r : BitVec 16) : (s.writeResponse r).cfg = s.cfg := rfl
@[simp] theorem writeResponse_moves (s : State) (r : BitVec 16) : (s.writeResponse r).moves = s.moves := rfl
@[simp] theorem writeResponse_trace (s : State) (r : BitVec 16) : (s.writeResponse r).trace = s.trace := rfl
@[simp] theorem writeResponse_responses (s : State) (r : BitVec 16) : (s.writeResponse r).responses = s.responses ++ [r] := rfl
@[simp] theorem writeResponse_reads (s : State) (r : BitVec 16) : (s.writeResponse r).reads = s.reads := rfl
@[simp] theorem writeResponse_replies (s : State) (r : BitVec 16) : (s.writeResponse r).replies = s.replies + 1 := rfl

/-! ### respond -/

@[simp] theorem respond_lat (s : State) (byte : Bool) (o : TxOutcome) : (s.respond byte o).lat = s.lat := rfl
@[simp] theorem respond_phase (s : State) (byte : Bool) (o : TxOutcome) : (s.respond byte o).phase = s.phase := rfl
@[simp] theorem respond_stepIx (s : State) (byte : Bool) (o : TxOutcome) : (s.respond byte o).stepIx = s.stepIx := rfl
@[simp] theorem respond_pollCnt (s : State) (byte : Bool) (o : TxOutcome) : (s.respond byte o).pollCnt = s.pollCnt := rfl
@[simp] theorem respond_busy (s : State) (byte : Bool) (o : TxOutcome) : (s.respond byte o).busy = false := rfl
@[simp] theorem respond_limit (s : State) (byte : Bool) (o : TxOutcome) : (s.respond byte o).limit = s.limit := rfl
@[simp] theorem respond_rxByte (s : State) (byte : Bool) (o : TxOutcome) : (s.respond byte o).rxByte = s.rxByte := rfl
@[simp] theorem respond_rsp (s : State) (byte : Bool) (o : TxOutcome) : (s.respond byte o).rsp = outcomeRsp o (byte && decide (o = .ok)) (if byte && decide (o = .ok) then s.rxByte else Config.freeByte s.replies) := rfl
@[simp] theorem respond_rspValid (s : State) (byte : Bool) (o : TxOutcome) : (s.respond byte o).rspValid = true := rfl
@[simp] theorem respond_sample (s : State) (byte : Bool) (o : TxOutcome) : (s.respond byte o).sample = s.sample := rfl
@[simp] theorem respond_fresh (s : State) (byte : Bool) (o : TxOutcome) : (s.respond byte o).fresh = s.fresh := rfl
@[simp] theorem respond_pos (s : State) (byte : Bool) (o : TxOutcome) : (s.respond byte o).pos = .begin := rfl
@[simp] theorem respond_access (s : State) (byte : Bool) (o : TxOutcome) : (s.respond byte o).access = none := rfl
@[simp] theorem respond_pins (s : State) (byte : Bool) (o : TxOutcome) : (s.respond byte o).pins = s.pins := rfl
@[simp] theorem respond_env (s : State) (byte : Bool) (o : TxOutcome) : (s.respond byte o).env = s.env := rfl
@[simp] theorem respond_cfg (s : State) (byte : Bool) (o : TxOutcome) : (s.respond byte o).cfg = s.cfg := rfl
@[simp] theorem respond_moves (s : State) (byte : Bool) (o : TxOutcome) : (s.respond byte o).moves = s.moves := rfl
@[simp] theorem respond_trace (s : State) (byte : Bool) (o : TxOutcome) : (s.respond byte o).trace = s.trace := rfl
@[simp] theorem respond_responses (s : State) (byte : Bool) (o : TxOutcome) : (s.respond byte o).responses = s.responses ++ [(s.respond byte o).rsp] := rfl
@[simp] theorem respond_reads (s : State) (byte : Bool) (o : TxOutcome) : (s.respond byte o).reads = s.reads := rfl
@[simp] theorem respond_replies (s : State) (byte : Bool) (o : TxOutcome) : (s.respond byte o).replies = s.replies + 1 := rfl

/-! ### accept -/

@[simp] theorem accept_lat (s : State) (w : Word) (limit : Count) : (s.accept w limit).lat = latchesOf w := rfl
@[simp] theorem accept_phase (s : State) (w : Word) (limit : Count) : (s.accept w limit).phase = s.phase := rfl
@[simp] theorem accept_stepIx (s : State) (w : Word) (limit : Count) : (s.accept w limit).stepIx = 0#2 := rfl
@[simp] theorem accept_pollCnt (s : State) (w : Word) (limit : Count) : (s.accept w limit).pollCnt = 0#16 := rfl
@[simp] theorem accept_busy (s : State) (w : Word) (limit : Count) : (s.accept w limit).busy = true := rfl
@[simp] theorem accept_limit (s : State) (w : Word) (limit : Count) : (s.accept w limit).limit = limit := rfl
@[simp] theorem accept_rxByte (s : State) (w : Word) (limit : Count) : (s.accept w limit).rxByte = s.rxByte := rfl
@[simp] theorem accept_rsp (s : State) (w : Word) (limit : Count) : (s.accept w limit).rsp = s.rsp := rfl
@[simp] theorem accept_rspValid (s : State) (w : Word) (limit : Count) : (s.accept w limit).rspValid = false := rfl
@[simp] theorem accept_sample (s : State) (w : Word) (limit : Count) : (s.accept w limit).sample = s.sample := rfl
@[simp] theorem accept_fresh (s : State) (w : Word) (limit : Count) : (s.accept w limit).fresh = s.fresh := rfl
@[simp] theorem accept_pos (s : State) (w : Word) (limit : Count) : (s.accept w limit).pos = .begin := rfl
@[simp] theorem accept_access (s : State) (w : Word) (limit : Count) : (s.accept w limit).access = none := rfl
@[simp] theorem accept_pins (s : State) (w : Word) (limit : Count) : (s.accept w limit).pins = s.pins := rfl
@[simp] theorem accept_env (s : State) (w : Word) (limit : Count) : (s.accept w limit).env = s.env := rfl
@[simp] theorem accept_cfg (s : State) (w : Word) (limit : Count) : (s.accept w limit).cfg = s.cfg := rfl
@[simp] theorem accept_moves (s : State) (w : Word) (limit : Count) : (s.accept w limit).moves = s.moves := rfl
@[simp] theorem accept_trace (s : State) (w : Word) (limit : Count) : (s.accept w limit).trace = s.trace := rfl
@[simp] theorem accept_responses (s : State) (w : Word) (limit : Count) : (s.accept w limit).responses = s.responses := rfl
@[simp] theorem accept_reads (s : State) (w : Word) (limit : Count) : (s.accept w limit).reads = s.reads := rfl
@[simp] theorem accept_replies (s : State) (w : Word) (limit : Count) : (s.accept w limit).replies = s.replies := rfl

/-! ### answerIllegal -/

@[simp] theorem answerIllegal_lat (s : State) (w : Word) : (s.answerIllegal w).lat = latchesOf w := rfl
@[simp] theorem answerIllegal_phase (s : State) (w : Word) : (s.answerIllegal w).phase = s.phase := rfl
@[simp] theorem answerIllegal_stepIx (s : State) (w : Word) : (s.answerIllegal w).stepIx = s.stepIx := rfl
@[simp] theorem answerIllegal_pollCnt (s : State) (w : Word) : (s.answerIllegal w).pollCnt = s.pollCnt := rfl
@[simp] theorem answerIllegal_busy (s : State) (w : Word) : (s.answerIllegal w).busy = false := rfl
@[simp] theorem answerIllegal_limit (s : State) (w : Word) : (s.answerIllegal w).limit = s.limit := rfl
@[simp] theorem answerIllegal_rxByte (s : State) (w : Word) : (s.answerIllegal w).rxByte = s.rxByte := rfl
@[simp] theorem answerIllegal_rsp (s : State) (w : Word) : (s.answerIllegal w).rsp = illegalRsp (Config.freeByte s.replies) := rfl
@[simp] theorem answerIllegal_rspValid (s : State) (w : Word) : (s.answerIllegal w).rspValid = true := rfl
@[simp] theorem answerIllegal_sample (s : State) (w : Word) : (s.answerIllegal w).sample = s.sample := rfl
@[simp] theorem answerIllegal_fresh (s : State) (w : Word) : (s.answerIllegal w).fresh = s.fresh := rfl
@[simp] theorem answerIllegal_pos (s : State) (w : Word) : (s.answerIllegal w).pos = .begin := rfl
@[simp] theorem answerIllegal_access (s : State) (w : Word) : (s.answerIllegal w).access = none := rfl
@[simp] theorem answerIllegal_pins (s : State) (w : Word) : (s.answerIllegal w).pins = s.pins := rfl
@[simp] theorem answerIllegal_env (s : State) (w : Word) : (s.answerIllegal w).env = s.env := rfl
@[simp] theorem answerIllegal_cfg (s : State) (w : Word) : (s.answerIllegal w).cfg = s.cfg := rfl
@[simp] theorem answerIllegal_moves (s : State) (w : Word) : (s.answerIllegal w).moves = s.moves := rfl
@[simp] theorem answerIllegal_trace (s : State) (w : Word) : (s.answerIllegal w).trace = s.trace := rfl
@[simp] theorem answerIllegal_responses (s : State) (w : Word) : (s.answerIllegal w).responses = s.responses ++ [illegalRsp (Config.freeByte s.replies)] := rfl
@[simp] theorem answerIllegal_reads (s : State) (w : Word) : (s.answerIllegal w).reads = s.reads := rfl
@[simp] theorem answerIllegal_replies (s : State) (w : Word) : (s.answerIllegal w).replies = s.replies + 1 := rfl

/-! ### resetEngine -/

@[simp] theorem resetEngine_lat (s : State) : s.resetEngine.lat = .reset := rfl
@[simp] theorem resetEngine_phase (s : State) : s.resetEngine.phase = .idle := rfl
@[simp] theorem resetEngine_stepIx (s : State) : s.resetEngine.stepIx = 0#2 := rfl
@[simp] theorem resetEngine_pollCnt (s : State) : s.resetEngine.pollCnt = 0#16 := rfl
@[simp] theorem resetEngine_busy (s : State) : s.resetEngine.busy = false := rfl
@[simp] theorem resetEngine_limit (s : State) : s.resetEngine.limit = 0#16 := rfl
@[simp] theorem resetEngine_rxByte (s : State) : s.resetEngine.rxByte = 0#8 := rfl
@[simp] theorem resetEngine_rsp (s : State) : s.resetEngine.rsp = 0#16 := rfl
@[simp] theorem resetEngine_rspValid (s : State) : s.resetEngine.rspValid = false := rfl
@[simp] theorem resetEngine_sample (s : State) : s.resetEngine.sample = 0#8 := rfl
@[simp] theorem resetEngine_fresh (s : State) : s.resetEngine.fresh = false := rfl
@[simp] theorem resetEngine_pos (s : State) : s.resetEngine.pos = .begin := rfl
@[simp] theorem resetEngine_access (s : State) : s.resetEngine.access = none := rfl
@[simp] theorem resetEngine_pins (s : State) : s.resetEngine.pins = s.pins := rfl
@[simp] theorem resetEngine_env (s : State) : s.resetEngine.env = s.env := rfl
@[simp] theorem resetEngine_cfg (s : State) : s.resetEngine.cfg = s.cfg := rfl
@[simp] theorem resetEngine_moves (s : State) : s.resetEngine.moves = s.moves := rfl
@[simp] theorem resetEngine_trace (s : State) : s.resetEngine.trace = s.trace := rfl
@[simp] theorem resetEngine_responses (s : State) : s.resetEngine.responses = s.responses := rfl
@[simp] theorem resetEngine_reads (s : State) : s.resetEngine.reads = s.reads := rfl
@[simp] theorem resetEngine_replies (s : State) : s.resetEngine.replies = s.replies := rfl

end Sys2Proof.Machine.State
end

