-- ==== Sys2Proof/Laws/Ops.lean ====
section
/-!
SUPPORT. What each shared operation can do, said once: the events of the adapter primitives, the bounded poll, the
acknowledgment check and the response.
-/

namespace Sys2Proof.Machine

/-! ### Runs of events -/

theorem Env.replay_append (n : Nat) (e : Env) (es fs : List Event) :
    e.replay n (es ++ fs) =
      match e.replay n es with
      | some e' => e'.replay (n + es.countP Event.isRead) fs
      | none => none := by
  induction es generalizing n e with
  | nil => rfl
  | cons ev evs ih =>
    simp only [List.cons_append, Env.replay]
    split
    · next e' he =>
      rw [ih]
      have : n + List.countP Event.isRead (ev :: evs) = (if ev.isRead = true then n + 1 else n) + List.countP Event.isRead evs := by
        rw [List.countP_cons]
        split <;> omega
      rw [this]
    · rfl

theorem Ran.refl (s : State) : Ran s s [] := ⟨by simp, rfl, by simp⟩

/-- A state that differs only outside the trace, the environment and the count of reads has run nothing. -/
theorem Ran.of_eq {s t : State} (h1 : t.trace = s.trace) (h2 : t.env = s.env) (h3 : t.reads = s.reads) : Ran s t [] :=
  ⟨by simp [h1], by simp [Env.replay, h2], by simp [h3]⟩

theorem Ran.trans {s t u : State} {es fs : List Event} (h : Ran s t es) (k : Ran t u fs) : Ran s u (es ++ fs) := by
  obtain ⟨h1, h2, h3⟩ := h
  obtain ⟨k1, k2, k3⟩ := k
  refine ⟨by rw [k1, h1, List.append_assoc], ?_, by rw [k3, h3, List.countP_append]; omega⟩
  rw [Env.replay_append, h2]
  simpa [h3] using k2

/-- A run depends on the first state only through its trace, environment and count of reads. -/
theorem Ran.congr {s s' t t' : State} {es : List Event} (h : Ran s t es) (h1 : s'.trace = s.trace) (h2 : s'.env = s.env)
    (h3 : s'.reads = s.reads) (k1 : t'.trace = t.trace) (k2 : t'.env = t.env) (k3 : t'.reads = t.reads) : Ran s' t' es := by
  obtain ⟨a, b, c⟩ := h
  exact ⟨by rw [k1, h1, a], by rw [h2, h3, k2, b], by rw [k3, h3, c]⟩

theorem ran_paReadStatus (s : State) : Ran s s.paReadStatus [.readStatus s.paReadStatus.sample] :=
  ⟨rfl, by simp [Env.replay, Env.respond], by simp [Event.isRead]⟩

theorem ran_paReadData (s : State) : Ran s s.paReadData [.readData s.paReadData.rxByte] :=
  ⟨rfl, by simp [Env.replay, Env.respond], by simp [Event.isRead]⟩

theorem ran_paWriteAddr (s : State) (b : Byte) : Ran s (s.paWriteAddr b) [.writeAddr b] :=
  ⟨rfl, by simp [Env.replay, Env.respond], by simp [Event.isRead]⟩

theorem ran_paWriteData (s : State) (b : Byte) : Ran s (s.paWriteData b) [.writeData b] :=
  ⟨rfl, by simp [Env.replay, Env.respond], by simp [Event.isRead]⟩

theorem ran_paCommand (s : State) (c : AdapterCmd) : Ran s (s.paCommand c) [.command c] :=
  ⟨rfl, by simp [Env.replay, Env.respond], by simp [Event.isRead]⟩

theorem ran_pollOnce (s : State) : Ran s s.pollOnce [.readStatus s.pollOnce.sample] := ran_paReadStatus s

/-! ### Lists of events -/

section Lists

@[simp] theorem statusReads_append (bs cs : List Byte) : statusReads (bs ++ cs) = statusReads bs ++ statusReads cs := by
  simp [statusReads]

@[simp] theorem statusReads_single (b : Byte) : statusReads [b] = [.readStatus b] := rfl

@[simp] theorem statusReads_length (bs : List Byte) : (statusReads bs).length = bs.length := by simp [statusReads]

theorem lastWrite?_append (es fs : List Event) : lastWrite? (es ++ fs) = (lastWrite? fs).or (lastWrite? es) := by
  unfold lastWrite?
  rw [List.filter_append, List.getLast?_append]

theorem lastByte?_append (es fs : List Event) : lastByte? (es ++ fs) = (lastByte? fs).or (lastByte? es) := by
  unfold lastByte?
  rw [List.filterMap_append, List.getLast?_append]

theorem lastWrite?_cons (e : Event) (es : List Event) :
    lastWrite? (e :: es) = (lastWrite? es).or (if e.isWrite then some e else none) := by
  rw [← List.singleton_append, lastWrite?_append]
  congr 1
  cases e <;> rfl

theorem lastByte?_cons (e : Event) (es : List Event) :
    lastByte? (e :: es) = (lastByte? es).or (match e with | .readData b => some b | _ => none) := by
  rw [← List.singleton_append, lastByte?_append]
  congr 1
  cases e <;> rfl

@[simp] theorem lastWrite?_nil : lastWrite? [] = none := rfl

@[simp] theorem lastByte?_nil : lastByte? [] = none := rfl

@[simp] theorem lastWrite?_statusReads (bs : List Byte) : lastWrite? (statusReads bs) = none := by
  unfold lastWrite?
  rw [List.filter_eq_nil_iff.2 (by simp [statusReads, Event.isWrite])]
  rfl

@[simp] theorem lastByte?_statusReads (bs : List Byte) : lastByte? (statusReads bs) = none := by
  induction bs with
  | nil => rfl
  | cons b bs ih => simpa [statusReads, lastByte?_cons] using ih

theorem lastSample?_append (es fs : List Event) : lastSample? (es ++ fs) = (lastSample? fs).or (lastSample? es) := by
  unfold lastSample?
  rw [List.filterMap_append, List.getLast?_append]

theorem lastSample?_cons (e : Event) (es : List Event) :
    lastSample? (e :: es) = (lastSample? es).or (match e with | .readStatus b => some b | _ => none) := by
  rw [← List.singleton_append, lastSample?_append]
  congr 1
  cases e <;> rfl

@[simp] theorem lastSample?_nil : lastSample? [] = none := rfl

/-- Samples compose along a run. -/
theorem lastSample?_getD_append (es fs : List Event) (b : Byte) :
    (lastSample? fs).getD ((lastSample? es).getD b) = (lastSample? (es ++ fs)).getD b := by
  rw [lastSample?_append]
  cases lastSample? fs <;> simp

end Lists

/-! ### What a step of an operation leaves alone -/

/-- The fields no step of an operation writes: the latches, the bound, the response, the ports and the outside world's
plans (R18, R23, R25). -/
structure Kept (s t : State) : Prop where
  lat       : t.lat = s.lat
  stepIx    : t.stepIx = s.stepIx
  busy      : t.busy = s.busy
  limit     : t.limit = s.limit
  rsp       : t.rsp = s.rsp
  rspValid  : t.rspValid = s.rspValid
  pos       : t.pos = s.pos
  pins      : t.pins = s.pins
  cfg       : t.cfg = s.cfg
  moves     : t.moves = s.moves
  responses : t.responses = s.responses
  replies   : t.replies = s.replies

theorem Kept.refl (s : State) : Kept s s := ⟨rfl, rfl, rfl, rfl, rfl, rfl, rfl, rfl, rfl, rfl, rfl, rfl⟩

theorem Kept.trans {s t u : State} (h : Kept s t) (k : Kept t u) : Kept s u :=
  ⟨k.lat.trans h.lat, k.stepIx.trans h.stepIx, k.busy.trans h.busy, k.limit.trans h.limit, k.rsp.trans h.rsp,
    k.rspValid.trans h.rspValid, k.pos.trans h.pos, k.pins.trans h.pins, k.cfg.trans h.cfg, k.moves.trans h.moves,
    k.responses.trans h.responses, k.replies.trans h.replies⟩

/-! ### The bounded poll -/

/-- What a wait can do (R88, R89): it reads the status only, and writes `poll_cnt`, `S` and the access alone. -/
structure Waited (s t : State) (bs : List Byte) : Prop where
  kept    : Kept s t
  ran     : Ran s t (statusReads bs)
  phase   : t.phase = s.phase
  fresh   : t.fresh = s.fresh
  rxByte  : t.rxByte = s.rxByte
  sample  : t.sample = (lastSample? (statusReads bs)).getD s.sample

theorem Waited.refl (s : State) : Waited s s [] := ⟨Kept.refl s, Ran.refl s, rfl, rfl, rfl, rfl⟩

theorem waited_pollOnce (s : State) : Waited s s.pollOnce [s.pollOnce.sample] :=
  ⟨⟨rfl, rfl, rfl, rfl, rfl, rfl, rfl, rfl, rfl, rfl, rfl, rfl⟩, ran_pollOnce s, rfl, rfl, rfl, rfl⟩

theorem Waited.trans {s t u : State} {bs cs : List Byte} (h : Waited s t bs) (k : Waited t u cs) : Waited s u (bs ++ cs) :=
  ⟨h.kept.trans k.kept, by simpa [statusReads] using h.ran.trans k.ran, k.phase.trans h.phase, k.fresh.trans h.fresh,
    k.rxByte.trans h.rxByte, by rw [k.sample, h.sample, lastSample?_getD_append, statusReads_append]⟩

theorem pollLoop_spec (f : CompletionFlag) (n : Nat) (s : State) :
    (∃ bs, (State.pollLoop f n s).1 = .expired ∧ bs.length = n ∧ (∀ x ∈ bs, f.seenIn x = false) ∧
      Waited s (State.pollLoop f n s).2 bs ∧ (State.pollLoop f n s).2.pollCnt = s.pollCnt + BitVec.ofNat 16 n) ∨
    (∃ bs b, (State.pollLoop f n s).1 = .done ∧ bs.length < n ∧ (∀ x ∈ bs, f.seenIn x = false) ∧ f.seenIn b = true ∧
      Waited s (State.pollLoop f n s).2 (bs ++ [b]) ∧ (State.pollLoop f n s).2.sample = b ∧
      (State.pollLoop f n s).2.pollCnt = s.pollCnt + BitVec.ofNat 16 (bs.length + 1)) := by
  induction n generalizing s with
  | zero => exact .inl ⟨[], rfl, rfl, by simp, Waited.refl s, by simp [State.pollLoop]⟩
  | succ n ih =>
    unfold State.pollLoop
    split
    · next hf =>
      exact .inr ⟨[], s.pollOnce.sample, rfl, by simp, by simp, hf, waited_pollOnce s, rfl, rfl⟩
    · next hf =>
      have hf' : f.seenIn s.pollOnce.sample = false := by simpa using hf
      have hc : s.pollOnce.pollCnt = s.pollCnt + 1#16 := rfl
      rcases ih s.pollOnce with ⟨bs, h1, h2, h3, h4, h5⟩ | ⟨bs, b, h1, h2, h3, h4, h5, h6, h7⟩
      · refine .inl ⟨s.pollOnce.sample :: bs, h1, by simp [h2], ?_, (waited_pollOnce s).trans h4, ?_⟩
        · intro x hx
          rcases List.mem_cons.1 hx with rfl | hx
          · exact hf'
          · exact h3 x hx
        · rw [h5, hc, BitVec.add_assoc]
          congr 1
          apply BitVec.eq_of_toNat_eq
          simp
          omega
      · refine .inr ⟨s.pollOnce.sample :: bs, b, h1, by simpa using h2, ?_, h4, (waited_pollOnce s).trans h5, h6, ?_⟩
        · intro x hx
          rcases List.mem_cons.1 hx with rfl | hx
          · exact hf'
          · exact h3 x hx
        · rw [h7, hc, BitVec.add_assoc]
          congr 1
          apply BitVec.eq_of_toNat_eq
          simp
          omega

/-- What a wait from `s` with the result `r` has done: it expired after exactly `LIMIT` reads, or it saw the flag first in the
sample `b` that now stands in `S` (R88, R89). -/
inductive PollEnds (f : CompletionFlag) (s : State) : PollResult × State → Prop where
  | expired (t : State) (bs : List Byte) : WaitExpires f s.limit bs → Waited s t bs → t.pollCnt = s.limit →
      PollEnds f s (.expired, t)
  | seen (t : State) (bs : List Byte) (b : Byte) : WaitSees f s.limit bs b → Waited s t (bs ++ [b]) → t.sample = b →
      t.pollCnt = BitVec.ofNat 16 (bs.length + 1) → PollEnds f s (.done, t)

theorem poll_spec (f : CompletionFlag) (s : State) : PollEnds f s (s.poll f) := by
  have hw : Waited s ({ s with pollCnt := 0#16 } : State) [] :=
    ⟨⟨rfl, rfl, rfl, rfl, rfl, rfl, rfl, rfl, rfl, rfl, rfl, rfl⟩, Ran.of_eq rfl rfl rfl, rfl, rfl, rfl, rfl⟩
  rcases pollLoop_spec f s.limit.toNat { s with pollCnt := 0#16 } with
    ⟨bs, h1, h2, h3, h4, h5⟩ | ⟨bs, b, h1, h2, h3, h4, h5, h6, h7⟩
  · have h := PollEnds.expired (f := f) (s := s) (s.poll f).2 bs ⟨h2, h3⟩ (hw.trans h4) (by
      have := h5
      simpa [State.poll] using this)
    rwa [show (PollResult.expired, (s.poll f).2) = s.poll f from by rw [← h1]; rfl] at h
  · have h := PollEnds.seen (f := f) (s := s) (s.poll f).2 bs b ⟨h2, h3, h4⟩ (hw.trans h5) h6 (by
      have := h7
      simpa [State.poll] using this)
    rwa [show (PollResult.done, (s.poll f).2) = s.poll f from by rw [← h1]; rfl] at h

/-- A wait never leaves `poll_cnt` above `LIMIT` (R96). -/
theorem PollEnds.count_le {f : CompletionFlag} {s : State} {r : PollResult × State} (h : PollEnds f s r) :
    r.2.pollCnt ≤ r.2.limit := by
  cases h with
  | expired t bs _ hw hc => rw [hc, hw.kept.limit]; exact BitVec.le_refl _
  | seen t bs b hs hw _ hc =>
    show t.pollCnt ≤ t.limit
    rw [hc, hw.kept.limit, BitVec.le_def, BitVec.toNat_ofNat]
    have := hs.1
    have := s.limit.isLt
    exact le_trans (Nat.mod_le _ _) (by omega)

/-! ### The acknowledgment check (R92) -/

/-- What the check does on the sample in `S`: Ok and Nack rest in `DATA`, but a fresh address not acknowledged makes the
implicit stop and rests in `IDLE`. -/
inductive AckEnds (kind : AckKind) (s : State) : TxOutcome × State → Prop where
  | ok : rxnackOf s.sample = false → AckEnds kind s (.ok, { s with phase := .data })
  | nackStop : rxnackOf s.sample = true → kind = .freshAddress →
      AckEnds kind s (.nack, { s.paCommand .stop with phase := .idle })
  | nackHeld : rxnackOf s.sample = true → kind ≠ .freshAddress → AckEnds kind s (.nack, { s with phase := .data })

theorem ackCheck_spec (kind : AckKind) (s : State) : AckEnds kind s (s.ackCheck kind) := by
  unfold State.ackCheck
  dsimp only
  by_cases h : rxnackOf s.sample = true
  · rw [if_pos h]
    cases kind with
    | freshAddress => exact .nackStop h rfl
    | repeatedAddress => exact .nackHeld h (by decide)
    | dataSent => exact .nackHeld h (by decide)
  · rw [if_neg h]; exact .ok (by simpa using h)

/-! ### The response word -/

section Rsp

variable (data : Byte) (illegal dv : Bool) (obs : BitVec 2) (code : BitVec 3)

@[simp] theorem rspOutcome_pack : rspOutcome (packRsp data illegal dv obs code) = code := by
  apply BitVec.eq_of_getLsbD_eq
  intro i hi
  simp only [rspOutcome, packRsp, BitVec.getLsbD_extractLsb', BitVec.getLsbD_append]
  interval_cases i <;> simp

@[simp] theorem rspObs_pack : rspObs (packRsp data illegal dv obs code) = obs := by
  apply BitVec.eq_of_getLsbD_eq
  intro i hi
  simp only [rspObs, packRsp, BitVec.getLsbD_extractLsb', BitVec.getLsbD_append]
  interval_cases i <;> simp

@[simp] theorem rspDv_pack : rspDv (packRsp data illegal dv obs code) = dv := by
  simp only [rspDv, packRsp, BitVec.getLsbD_append]
  simp

@[simp] theorem rspIllegal_pack : rspIllegal (packRsp data illegal dv obs code) = illegal := by
  simp only [rspIllegal, packRsp, BitVec.getLsbD_append]
  simp

@[simp] theorem rspReserved_pack : rspReserved (packRsp data illegal dv obs code) = false := by
  simp only [rspReserved, packRsp, BitVec.getLsbD_append]
  simp

@[simp] theorem rspData_pack : rspData (packRsp data illegal dv obs code) = data := by
  apply BitVec.eq_of_getLsbD_eq
  intro i hi
  simp only [rspData, packRsp, BitVec.getLsbD_extractLsb', BitVec.getLsbD_append]
  interval_cases i <;> simp

end Rsp

/-- Every response to an outcome has one of the shapes of R25. -/
theorem outcomeRsp_wellFormed (o : TxOutcome) (byte : Bool) (data : Byte) :
    rspWellFormed (outcomeRsp o (byte && decide (o = .ok)) data) = true := by
  cases o with
  | busBusy b => simp [rspWellFormed, outcomeRsp, TxOutcome.code, TxOutcome.obsCode]
  | ok => simp [rspWellFormed, outcomeRsp, TxOutcome.code, TxOutcome.obsCode]
  | nack => simp [rspWellFormed, outcomeRsp, TxOutcome.code, TxOutcome.obsCode]
  | invalidDirection => simp [rspWellFormed, outcomeRsp, TxOutcome.code, TxOutcome.obsCode]
  | sendTimeout => simp [rspWellFormed, outcomeRsp, TxOutcome.code, TxOutcome.obsCode]
  | receiveTimeout => simp [rspWellFormed, outcomeRsp, TxOutcome.code, TxOutcome.obsCode]

theorem illegalRsp_wellFormed (data : Byte) : rspWellFormed (illegalRsp data) = true := by
  simp [rspWellFormed, illegalRsp, illegalOutcomeCode]

/-- The end of an operation (R36, R127): the response says the outcome, carries a byte exactly on Ok of a command that returns
one, and nothing but the response, its flags and the rest position is written. -/
theorem answered_respond (byte : Bool) (o : TxOutcome) (s : State) :
    Answered s (s.respond byte o) o (byte && decide (o = .ok)) := by
  refine ⟨rfl, rfl, rfl, rfl, ?_, ?_, ?_, ?_, ?_⟩ <;> simp [outcomeRsp]

/-- On Ok of a command that returns a byte the response carries `RXBYTE` (R127). -/
theorem rspData_respond_ok (s : State) : rspData (s.respond true .ok).rsp = s.rxByte := by simp [outcomeRsp]

/-- Codes are told apart, BusBusy by its observed state. -/
theorem TxOutcome.code_ok {o : TxOutcome} : o.code = 0#3 ↔ o = .ok := by cases o <;> simp [TxOutcome.code]

end Sys2Proof.Machine
end

