-- ==== Sys2Proof/Laws/Steps.lean ====
section
/-!
SUPPORT. What each primitive step can do (41_start_stop.md, 42_byte_transfer.md), said once as one inversion lemma per step: its
outcome, its events with the conditions that led to them, the phase it rests in, and what it leaves alone.
-/

namespace Sys2Proof.Machine

/-- A step that made the events `es` and rests in `phase`, with these values of `fresh` and `RXBYTE`. -/
structure Did (s t : State) (es : List Event) (phase : Phase) (fresh : Bool) (rxByte : Byte) : Prop where
  kept   : Kept s t
  ran    : Ran s t es
  phase  : t.phase = phase
  fresh  : t.fresh = fresh
  rxByte : t.rxByte = rxByte
  count  : s.pollCnt ≤ s.limit → t.pollCnt ≤ t.limit
  sample : t.sample = (lastSample? es).getD s.sample

theorem Did.trans {s t u : State} {es fs : List Event} {p q : Phase} {f g : Bool} {a b : Byte} (h : Did s t es p f a)
    (k : Did t u fs q g b) : Did s u (es ++ fs) q g b :=
  ⟨h.kept.trans k.kept, h.ran.trans k.ran, k.phase, k.fresh, k.rxByte, fun hc => k.count (h.count hc),
    by rw [k.sample, h.sample, lastSample?_getD_append]⟩

theorem did_nothing (s : State) : Did s s [] s.phase s.fresh s.rxByte :=
  ⟨Kept.refl s, Ran.refl s, rfl, rfl, rfl, id, rfl⟩

theorem did_readStatus (s : State) : Did s s.paReadStatus [.readStatus s.paReadStatus.sample] s.phase s.fresh s.rxByte :=
  ⟨⟨rfl, rfl, rfl, rfl, rfl, rfl, rfl, rfl, rfl, rfl, rfl, rfl⟩, ran_paReadStatus s, rfl, rfl, rfl, id, rfl⟩

/-- Writing `phase` and `fresh` makes no event. -/
theorem did_mark (s : State) (p : Phase) (f : Bool) : Did s { s with phase := p, fresh := f } [] p f s.rxByte :=
  ⟨⟨rfl, rfl, rfl, rfl, rfl, rfl, rfl, rfl, rfl, rfl, rfl, rfl⟩, Ran.of_eq rfl rfl rfl, rfl, rfl, rfl, id, rfl⟩

theorem did_writeAddr (s : State) (b : Byte) : Did s (s.paWriteAddr b) [.writeAddr b] s.phase s.fresh s.rxByte :=
  ⟨⟨rfl, rfl, rfl, rfl, rfl, rfl, rfl, rfl, rfl, rfl, rfl, rfl⟩, ran_paWriteAddr s b, rfl, rfl, rfl, id, rfl⟩

theorem did_writeData (s : State) (b : Byte) : Did s (s.paWriteData b) [.writeData b] s.phase s.fresh s.rxByte :=
  ⟨⟨rfl, rfl, rfl, rfl, rfl, rfl, rfl, rfl, rfl, rfl, rfl, rfl⟩, ran_paWriteData s b, rfl, rfl, rfl, id, rfl⟩

theorem did_command (s : State) (c : AdapterCmd) : Did s (s.paCommand c) [.command c] s.phase s.fresh s.rxByte :=
  ⟨⟨rfl, rfl, rfl, rfl, rfl, rfl, rfl, rfl, rfl, rfl, rfl, rfl⟩, ran_paCommand s c, rfl, rfl, rfl, id, rfl⟩

theorem did_readData (s : State) : Did s s.paReadData [.readData s.paReadData.rxByte] s.phase s.fresh s.paReadData.rxByte :=
  ⟨⟨rfl, rfl, rfl, rfl, rfl, rfl, rfl, rfl, rfl, rfl, rfl, rfl⟩, ran_paReadData s, rfl, rfl, rfl, id, rfl⟩

theorem Waited.did {s t : State} {bs : List Byte} (h : Waited s t bs) (hc : t.pollCnt ≤ t.limit) :
    Did s t (statusReads bs) s.phase s.fresh s.rxByte :=
  ⟨h.kept, h.ran, h.phase, h.fresh, h.rxByte, fun _ => hc, h.sample⟩

/-! ### The address phase -/

inductive AddressEnds (kind : AckKind) (addr : SlaveAddr) (d : Direction) (s : State) : TxOutcome × State → Prop where
  | expired (t : State) (bs : List Byte) : WaitExpires (addressFlag d) s.limit bs →
      Did s t (.writeAddr (compose addr d) :: statusReads bs) .data s.fresh s.rxByte → t.pollCnt = s.limit → AddressEnds kind addr d s (.sendTimeout, t)
  | acked (t : State) (bs : List Byte) (b : Byte) : WaitSees (addressFlag d) s.limit bs b → rxnackOf b = false →
      Did s t (.writeAddr (compose addr d) :: statusReads (bs ++ [b])) .data s.fresh s.rxByte →
      t.pollCnt = BitVec.ofNat 16 (bs.length + 1) → AddressEnds kind addr d s (.ok, t)
  | nackStop (t : State) (bs : List Byte) (b : Byte) : WaitSees (addressFlag d) s.limit bs b → rxnackOf b = true →
      kind = .freshAddress →
      Did s t (.writeAddr (compose addr d) :: statusReads (bs ++ [b]) ++ [.command .stop]) .idle s.fresh s.rxByte →
      t.pollCnt = BitVec.ofNat 16 (bs.length + 1) → AddressEnds kind addr d s (.nack, t)
  | nackHeld (t : State) (bs : List Byte) (b : Byte) : WaitSees (addressFlag d) s.limit bs b → rxnackOf b = true →
      kind ≠ .freshAddress →
      Did s t (.writeAddr (compose addr d) :: statusReads (bs ++ [b])) .data s.fresh s.rxByte →
      t.pollCnt = BitVec.ofNat 16 (bs.length + 1) → AddressEnds kind addr d s (.nack, t)

theorem addressPhase_spec (kind : AckKind) (addr : SlaveAddr) (d : Direction) (s : State) :
    AddressEnds kind addr d s (addressPhase kind addr d s) := by
  have h0 := (did_writeAddr s (compose addr d)).trans (did_mark (s.paWriteAddr (compose addr d)) .address s.fresh)
  have hp := poll_spec (addressFlag d) ({ s.paWriteAddr (compose addr d) with phase := .address } : State)
  unfold addressPhase
  generalize State.poll (addressFlag d) ({ s.paWriteAddr (compose addr d) with phase := .address } : State) = r at hp
  have hc := hp.count_le
  cases hp with
  | expired t bs he hw hcnt =>
    exact .expired _ bs he ((h0.trans (hw.did hc)).trans (did_mark t .data t.fresh) |> fun h => by
      simpa [hw.fresh, hw.rxByte] using h) hcnt
  | seen t bs b hs hw hb hcnt =>
    have h1 := h0.trans (hw.did hc)
    have ha := ackCheck_spec kind t
    show AddressEnds kind addr d s (t.ackCheck kind)
    generalize t.ackCheck kind = q at ha
    cases ha with
    | ok h => exact .acked _ bs b hs (hb ▸ h) (by
        simpa [hw.fresh, hw.rxByte] using h1.trans (did_mark t .data t.fresh)) hcnt
    | nackHeld h hk => exact .nackHeld _ bs b hs (hb ▸ h) hk (by
        simpa [hw.fresh, hw.rxByte] using h1.trans (did_mark t .data t.fresh)) hcnt
    | nackStop h hk => exact .nackStop _ bs b hs (hb ▸ h) hk (by
        simpa [hw.fresh, hw.rxByte] using
          (h1.trans (did_command t .stop)).trans (did_mark (t.paCommand .stop) .idle t.fresh)) hcnt

/-! ### START and RSTART -/

inductive StartEnds (addr : SlaveAddr) (dir : DirField) (s : State) : TxOutcome × State → Prop where
  | invalid : direction? dir = none → StartEnds addr dir s (.invalidDirection, s)
  | busBusy (t : State) (b : Byte) (d : Direction) : direction? dir = some d → busOf b ≠ .idle → t.sample = b →
      Did s t [.readStatus b] s.phase s.fresh s.rxByte → t.pollCnt = s.pollCnt → StartEnds addr dir s (.busBusy (busOf b), t)
  | expired (t : State) (d : Direction) (b0 : Byte) (bs : List Byte) : direction? dir = some d → busOf b0 = .idle →
      WaitExpires (addressFlag d) s.limit bs →
      Did s t (.readStatus b0 :: .writeAddr (compose addr d) :: statusReads bs) .data true s.rxByte →
      t.pollCnt = s.limit → StartEnds addr dir s (.sendTimeout, t)
  | acked (t : State) (d : Direction) (b0 : Byte) (bs : List Byte) (b : Byte) : direction? dir = some d →
      busOf b0 = .idle → WaitSees (addressFlag d) s.limit bs b → rxnackOf b = false →
      Did s t (.readStatus b0 :: .writeAddr (compose addr d) :: statusReads (bs ++ [b])) .data true s.rxByte →
      t.pollCnt = BitVec.ofNat 16 (bs.length + 1) → StartEnds addr dir s (.ok, t)
  | nack (t : State) (d : Direction) (b0 : Byte) (bs : List Byte) (b : Byte) : direction? dir = some d →
      busOf b0 = .idle → WaitSees (addressFlag d) s.limit bs b → rxnackOf b = true →
      Did s t (.readStatus b0 :: .writeAddr (compose addr d) :: statusReads (bs ++ [b]) ++ [.command .stop]) .idle true
        s.rxByte → t.pollCnt = BitVec.ofNat 16 (bs.length + 1) → StartEnds addr dir s (.nack, t)

theorem startStep_spec (addr : SlaveAddr) (dir : DirField) (s : State) : StartEnds addr dir s (startStep addr dir s) := by
  unfold startStep
  split
  · next h => exact .invalid h
  · next d h =>
    have h0 := did_readStatus s
    dsimp only
    split
    · next hb => exact .busBusy _ _ d h hb rfl h0 rfl
    · next hb =>
      have hb' : busOf s.paReadStatus.sample = .idle := by simpa using hb
      have h1 := h0.trans (did_mark s.paReadStatus s.phase true)
      have ha := addressPhase_spec .freshAddress addr d ({ s.paReadStatus with fresh := true } : State)
      generalize addressPhase .freshAddress addr d ({ s.paReadStatus with fresh := true } : State) = r at ha
      cases ha with
      | expired t bs he hd hcnt => exact .expired t d _ bs h hb' he (h1.trans hd) hcnt
      | acked t bs b hs hn hd hcnt => exact .acked t d _ bs b h hb' hs hn (h1.trans hd) hcnt
      | nackStop t bs b hs hn _ hd hcnt => exact .nack t d _ bs b h hb' hs hn (h1.trans hd) hcnt
      | nackHeld t bs b hs hn hk hd => exact absurd rfl hk

inductive RstartEnds (addr : SlaveAddr) (dir : DirField) (s : State) : TxOutcome × State → Prop where
  | invalid : direction? dir = none → RstartEnds addr dir s (.invalidDirection, s)
  | busBusy (t : State) (b : Byte) (d : Direction) : direction? dir = some d → busOf b ≠ .owner → t.sample = b →
      Did s t [.readStatus b] s.phase s.fresh s.rxByte → t.pollCnt = s.pollCnt → RstartEnds addr dir s (.busBusy (busOf b), t)
  | expired (t : State) (d : Direction) (b0 : Byte) (bs : List Byte) : direction? dir = some d → busOf b0 = .owner →
      WaitExpires (addressFlag d) s.limit bs →
      Did s t (.readStatus b0 :: .writeAddr (compose addr d) :: statusReads bs) .data false s.rxByte →
      t.pollCnt = s.limit → RstartEnds addr dir s (.sendTimeout, t)
  | acked (t : State) (d : Direction) (b0 : Byte) (bs : List Byte) (b : Byte) : direction? dir = some d →
      busOf b0 = .owner → WaitSees (addressFlag d) s.limit bs b → rxnackOf b = false →
      Did s t (.readStatus b0 :: .writeAddr (compose addr d) :: statusReads (bs ++ [b])) .data false s.rxByte →
      t.pollCnt = BitVec.ofNat 16 (bs.length + 1) → RstartEnds addr dir s (.ok, t)
  | nack (t : State) (d : Direction) (b0 : Byte) (bs : List Byte) (b : Byte) : direction? dir = some d →
      busOf b0 = .owner → WaitSees (addressFlag d) s.limit bs b → rxnackOf b = true →
      Did s t (.readStatus b0 :: .writeAddr (compose addr d) :: statusReads (bs ++ [b])) .data false s.rxByte →
      t.pollCnt = BitVec.ofNat 16 (bs.length + 1) → RstartEnds addr dir s (.nack, t)

theorem rstartStep_spec (addr : SlaveAddr) (dir : DirField) (s : State) : RstartEnds addr dir s (rstartStep addr dir s) := by
  unfold rstartStep
  split
  · next h => exact .invalid h
  · next d h =>
    have h0 := did_readStatus s
    dsimp only
    split
    · next hb => exact .busBusy _ _ d h hb rfl h0 rfl
    · next hb =>
      have hb' : busOf s.paReadStatus.sample = .owner := by simpa using hb
      have h1 := h0.trans (did_mark s.paReadStatus s.phase false)
      have ha := addressPhase_spec .repeatedAddress addr d ({ s.paReadStatus with fresh := false } : State)
      generalize addressPhase .repeatedAddress addr d ({ s.paReadStatus with fresh := false } : State) = r at ha
      cases ha with
      | expired t bs he hd hcnt => exact .expired t d _ bs h hb' he (h1.trans hd) hcnt
      | acked t bs b hs hn hd hcnt => exact .acked t d _ bs b h hb' hs hn (h1.trans hd) hcnt
      | nackStop t bs b hs hn hk hd => exact absurd hk (by decide)
      | nackHeld t bs b hs hn hk hd hcnt => exact .nack t d _ bs b h hb' hs hn (h1.trans hd) hcnt

/-! ### STOP -/

theorem stopStep_spec (s : State) :
    (stopStep s).1 = .ok ∧ Did s (stopStep s).2 [.command .stop] .idle s.fresh s.rxByte :=
  ⟨rfl, (did_command s .stop).trans (did_mark (s.paCommand .stop) .idle s.fresh)⟩

/-! ### SEND -/

inductive SendEnds (x : Byte) (s : State) : TxOutcome × State → Prop where
  | busBusy (t : State) (b : Byte) : busOf b ≠ .owner → t.sample = b → Did s t [.readStatus b] s.phase s.fresh s.rxByte →
      t.pollCnt = s.pollCnt → SendEnds x s (.busBusy (busOf b), t)
  | expired (t : State) (b0 : Byte) (bs : List Byte) : busOf b0 = .owner → WaitExpires .wif s.limit bs →
      Did s t (.readStatus b0 :: .writeData x :: statusReads bs) .data s.fresh s.rxByte → t.pollCnt = s.limit →
      SendEnds x s (.sendTimeout, t)
  | acked (t : State) (b0 : Byte) (bs : List Byte) (b : Byte) : busOf b0 = .owner → WaitSees .wif s.limit bs b →
      rxnackOf b = false → Did s t (.readStatus b0 :: .writeData x :: statusReads (bs ++ [b])) .data s.fresh s.rxByte →
      t.pollCnt = BitVec.ofNat 16 (bs.length + 1) → SendEnds x s (.ok, t)
  | nack (t : State) (b0 : Byte) (bs : List Byte) (b : Byte) : busOf b0 = .owner → WaitSees .wif s.limit bs b →
      rxnackOf b = true → Did s t (.readStatus b0 :: .writeData x :: statusReads (bs ++ [b])) .data s.fresh s.rxByte →
      t.pollCnt = BitVec.ofNat 16 (bs.length + 1) → SendEnds x s (.nack, t)

theorem sendStep_spec (x : Byte) (s : State) : SendEnds x s (sendStep x s) := by
  unfold sendStep
  have h0 := did_readStatus s
  dsimp only
  split
  · next hb => exact .busBusy _ _ hb rfl h0 rfl
  · next hb =>
    have hb' : busOf s.paReadStatus.sample = .owner := by simpa using hb
    have h1 := (h0.trans (did_writeData s.paReadStatus x)).trans (did_mark (s.paReadStatus.paWriteData x) .data s.fresh)
    have hp := poll_spec .wif ({ s.paReadStatus.paWriteData x with phase := .data } : State)
    generalize State.poll .wif ({ s.paReadStatus.paWriteData x with phase := .data } : State) = r at hp
    have hc := hp.count_le
    cases hp with
    | expired t bs he hw hcnt => exact .expired t _ bs hb' he (h1.trans (hw.did hc)) hcnt
    | seen t bs b hs hw hbs hcnt =>
      have h2 := h1.trans (hw.did hc)
      have ha := ackCheck_spec .dataSent t
      show SendEnds x s (t.ackCheck .dataSent)
      generalize t.ackCheck .dataSent = q at ha
      cases ha with
      | ok h => exact .acked _ _ bs b hb' hs (hbs ▸ h) (by
          simpa [hw.fresh, hw.rxByte] using h2.trans (did_mark t .data t.fresh)) hcnt
      | nackHeld h _ => exact .nack _ _ bs b hb' hs (hbs ▸ h) (by
          simpa [hw.fresh, hw.rxByte] using h2.trans (did_mark t .data t.fresh)) hcnt
      | nackStop _ hk => exact absurd hk (by decide)

/-! ### RECV -/

/-- The phase RECV rests in on success (R33). -/
def receivedPhase : AckPolicy → Phase
  | .ack => .data
  | .nack => .idle

inductive RecvEnds (p : AckPolicy) (s : State) : TxOutcome × State → Prop where
  | busBusy (t : State) (b : Byte) : busOf b ≠ .owner → t.sample = b → Did s t [.readStatus b] s.phase s.fresh s.rxByte →
      t.pollCnt = s.pollCnt → RecvEnds p s (.busBusy (busOf b), t)
  | expired (t : State) (b0 : Byte) (bs : List Byte) : busOf b0 = .owner → WaitExpires .rif s.limit bs →
      Did s t (.readStatus b0 :: statusReads bs) .data s.fresh s.rxByte → t.pollCnt = s.limit →
      RecvEnds p s (.receiveTimeout, t)
  | received (t : State) (b0 : Byte) (bs : List Byte) (b x : Byte) : busOf b0 = .owner → WaitSees .rif s.limit bs b →
      Did s t (.readStatus b0 :: statusReads (bs ++ [b]) ++ [.readData x, .command (receiveCmd p)]) (receivedPhase p) s.fresh x →
      t.pollCnt = BitVec.ofNat 16 (bs.length + 1) → RecvEnds p s (.ok, t)

theorem receiveByte_spec (p : AckPolicy) (s : State) :
    ∃ x, Did s (receiveByte p s) [.readData x, .command (receiveCmd p)] (receivedPhase p) s.fresh x := by
  refine ⟨s.paReadData.rxByte, ?_⟩
  have h0 := did_readData s
  cases p with
  | ack =>
    exact ((h0.trans (did_mark s.paReadData .ackCheck s.fresh)).trans
      (did_command ({ s.paReadData with phase := .ackCheck, fresh := s.fresh } : State) (receiveCmd .ack))).trans
        (did_mark _ .data s.fresh)
  | nack =>
    exact ((h0.trans (did_mark s.paReadData .stop s.fresh)).trans
      (did_command ({ s.paReadData with phase := .stop, fresh := s.fresh } : State) (receiveCmd .nack))).trans
        (did_mark _ .idle s.fresh)

theorem recvStep_spec (p : AckPolicy) (s : State) : RecvEnds p s (recvStep p s) := by
  unfold recvStep
  have h0 := did_readStatus s
  dsimp only
  split
  · next hb => exact .busBusy _ _ hb rfl h0 rfl
  · next hb =>
    have hb' : busOf s.paReadStatus.sample = .owner := by simpa using hb
    have h1 := h0.trans (did_mark s.paReadStatus .data s.fresh)
    have hp := poll_spec .rif ({ s.paReadStatus with phase := .data } : State)
    generalize State.poll .rif ({ s.paReadStatus with phase := .data } : State) = r at hp
    have hc := hp.count_le
    cases hp with
    | expired t bs he hw hcnt => exact .expired t _ bs hb' he (h1.trans (hw.did hc)) hcnt
    | seen t bs b hs hw hbs hcnt =>
      obtain ⟨x, hx⟩ := receiveByte_spec p t
      have hf : t.fresh = s.fresh := hw.fresh
      exact .received _ _ bs b x hb' hs (by
        simpa [hf] using (h1.trans (hw.did hc)).trans hx) (by cases p <;> exact hcnt)

end Sys2Proof.Machine
end

