-- ==== Sys2Proof/Laws/Commands.lean ====
section
/-!
SUPPORT. Every command is the run of its list of primitive steps (43_composites.md R123), and what such a run can do, said
    once:
its events go as the protocol relation says, and it leaves the rest of the state alone.
-/

namespace Sys2Proof.Machine

/-- The step of a primitive. -/
def primStep : Prim → State → TxOutcome × State
  | .start a d, s => startStep a d s
  | .rstart a d, s => rstartStep a d s
  | .stop, s => stopStep s
  | .send b, s => sendStep b s
  | .recv p, s => recvStep p s

/-- A list of steps run one after another (R115). -/
def runPrims : List Prim → State → TxOutcome × State
  | [], s => (.ok, s)
  | [p], s => primStep p s
  | p :: q :: ps, s => State.andThen (primStep p s) (runPrims (q :: ps))

/-- Every command is the run of its steps, followed by its response. -/
theorem exec_eq (i : Instr) (s : State) :
    exec i s = .next (State.finish (returnsByte i) (runPrims (primsOf i) s)) := by
  cases i <;> rfl

/-- The phase a run of events with this outcome rests in (R34). -/
def phaseAfter (es : List Event) (o : TxOutcome) (p : Phase) : Phase :=
  match lastWrite? es with
  | some e => if e.isStop then .idle else .data
  | none => if o = .receiveTimeout then .data else p

/-- What a primitive step can do. -/
structure PrimDid (p : Prim) (s : State) (o : TxOutcome) (t : State) (es : List Event) : Prop where
  ends   : StepEnds s.limit p o es
  kept   : Kept s t
  ran    : Ran s t es
  count  : s.pollCnt ≤ s.limit → t.pollCnt ≤ t.limit
  phase  : t.phase = phaseAfter es o s.phase
  rxByte : t.rxByte = (lastByte? es).getD s.rxByte
  sample : t.sample = (lastSample? es).getD s.sample
  fresh  : ((∀ a d, p ≠ .start a d) ∧ ∀ a d, p ≠ .rstart a d) → t.fresh = s.fresh

theorem primStep_spec (p : Prim) (s : State) : ∃ o t es, primStep p s = (o, t) ∧ PrimDid p s o t es := by
  cases p with
  | start a d =>
    have h := startStep_spec a d s
    simp only [primStep]
    generalize startStep a d s = r at h
    cases h with
    | invalid hd =>
      exact ⟨_, _, [], rfl, .startInvalid a d hd, Kept.refl s, Ran.refl s, id, rfl, rfl, rfl, fun h => absurd rfl (h.1 a d)⟩
    | busBusy t b e hd hb _ h =>
      exact ⟨_, _, _, rfl, .startBusBusy a d e b hd hb, h.kept, h.ran, h.count, h.phase, h.rxByte, h.sample, fun h => absurd
          rfl (h.1 a d)⟩
    | expired t e b0 bs hd hb hw h =>
      exact ⟨_, _, _, rfl, .startTimeout a d e b0 bs hd hb hw, h.kept, h.ran, h.count,
        by simp [h.phase, phaseAfter, lastWrite?_cons, Event.isWrite, Event.isStop], by simp [h.rxByte, lastByte?_cons], h.sample,
        fun h => absurd rfl (h.1 a d)⟩
    | acked t e b0 bs b hd hb hw hn h =>
      exact ⟨_, _, _, rfl, .startOk a d e b0 bs b hd hb hw hn, h.kept, h.ran, h.count,
        by simp [h.phase, phaseAfter, lastWrite?_cons, lastWrite?_append, Event.isWrite, Event.isStop], by simp [h.rxByte, lastByte?_cons, lastByte?_append], h.sample,
        fun h => absurd rfl (h.1 a d)⟩
    | nack t e b0 bs b hd hb hw hn h =>
      exact ⟨_, _, _, rfl, .startNack a d e b0 bs b hd hb hw hn, h.kept, h.ran, h.count,
        by simp [h.phase, phaseAfter, lastWrite?_cons, lastWrite?_append, Event.isWrite, Event.isStop], by simp [h.rxByte, lastByte?_cons, lastByte?_append], h.sample,
        fun h => absurd rfl (h.1 a d)⟩
  | rstart a d =>
    have h := rstartStep_spec a d s
    simp only [primStep]
    generalize rstartStep a d s = r at h
    cases h with
    | invalid hd =>
      exact ⟨_, _, [], rfl, .rstartInvalid a d hd, Kept.refl s, Ran.refl s, id, rfl, rfl, rfl, fun h => absurd rfl (h.2 a d)⟩
    | busBusy t b e hd hb _ h =>
      exact ⟨_, _, _, rfl, .rstartBusBusy a d e b hd hb, h.kept, h.ran, h.count, h.phase, h.rxByte, h.sample, fun h => absurd
          rfl (h.2 a d)⟩
    | expired t e b0 bs hd hb hw h =>
      exact ⟨_, _, _, rfl, .rstartTimeout a d e b0 bs hd hb hw, h.kept, h.ran, h.count,
        by simp [h.phase, phaseAfter, lastWrite?_cons, Event.isWrite, Event.isStop], by simp [h.rxByte, lastByte?_cons], h.sample,
        fun h => absurd rfl (h.2 a d)⟩
    | acked t e b0 bs b hd hb hw hn h =>
      exact ⟨_, _, _, rfl, .rstartOk a d e b0 bs b hd hb hw hn, h.kept, h.ran, h.count,
        by simp [h.phase, phaseAfter, lastWrite?_cons, lastWrite?_append, Event.isWrite, Event.isStop], by simp [h.rxByte, lastByte?_cons, lastByte?_append], h.sample,
        fun h => absurd rfl (h.2 a d)⟩
    | nack t e b0 bs b hd hb hw hn h =>
      exact ⟨_, _, _, rfl, .rstartNack a d e b0 bs b hd hb hw hn, h.kept, h.ran, h.count,
        by simp [h.phase, phaseAfter, lastWrite?_cons, lastWrite?_append, Event.isWrite, Event.isStop], by simp [h.rxByte, lastByte?_cons, lastByte?_append], h.sample,
        fun h => absurd rfl (h.2 a d)⟩
  | stop =>
    obtain ⟨_, h⟩ := stopStep_spec s
    exact ⟨_, _, _, rfl, .stopOk, h.kept, h.ran, h.count, h.phase, h.rxByte, h.sample, fun _ => h.fresh⟩
  | send x =>
    have h := sendStep_spec x s
    simp only [primStep]
    generalize sendStep x s = r at h
    cases h with
    | busBusy t b hb _ h =>
      exact ⟨_, _, _, rfl, .sendBusBusy x b hb, h.kept, h.ran, h.count, h.phase, h.rxByte, h.sample, fun _ => h.fresh⟩
    | expired t b0 bs hb hw h =>
      exact ⟨_, _, _, rfl, .sendTimeout x b0 bs hb hw, h.kept, h.ran, h.count,
        by simp [h.phase, phaseAfter, lastWrite?_cons, Event.isWrite, Event.isStop], by simp [h.rxByte, lastByte?_cons], h.sample, fun _ => h.fresh⟩
    | acked t b0 bs b hb hw hn h =>
      exact ⟨_, _, _, rfl, .sendOk x b0 bs b hb hw hn, h.kept, h.ran, h.count,
        by simp [h.phase, phaseAfter, lastWrite?_cons, lastWrite?_append, Event.isWrite, Event.isStop], by simp [h.rxByte, lastByte?_cons, lastByte?_append], h.sample, fun _ => h.fresh⟩
    | nack t b0 bs b hb hw hn h =>
      exact ⟨_, _, _, rfl, .sendNack x b0 bs b hb hw hn, h.kept, h.ran, h.count,
        by simp [h.phase, phaseAfter, lastWrite?_cons, lastWrite?_append, Event.isWrite, Event.isStop], by simp [h.rxByte, lastByte?_cons, lastByte?_append], h.sample, fun _ => h.fresh⟩
  | recv p =>
    have h := recvStep_spec p s
    simp only [primStep]
    generalize recvStep p s = r at h
    cases h with
    | busBusy t b hb _ h =>
      exact ⟨_, _, _, rfl, .recvBusBusy p b hb, h.kept, h.ran, h.count, h.phase, h.rxByte, h.sample, fun _ => h.fresh⟩
    | expired t b0 bs hb hw h =>
      exact ⟨_, _, _, rfl, .recvTimeout p b0 bs hb hw, h.kept, h.ran, h.count,
        by simp [h.phase, phaseAfter, lastWrite?_cons, Event.isWrite], by simp [h.rxByte, lastByte?_cons], h.sample, fun _ => h.fresh⟩
    | received t b0 bs b x hb hw h =>
      refine ⟨_, _, _, rfl, .recvOk p b0 bs b x hb hw, h.kept, h.ran, h.count,
          ?_, by simp [h.rxByte, lastByte?_cons, lastByte?_append], h.sample, fun _ => h.fresh⟩
      cases p <;> simp [h.phase, phaseAfter, lastWrite?_cons, lastWrite?_append, Event.isWrite, Event.isStop, receiveCmd,
          receivedPhase]

/-! ### Runs of steps -/

/-- What a step that is followed by another has done when it returns Ok: it made a write, and a write that is no stop was the last
one, unless it was STOP or a receive. -/
structure RunDid (ps : List Prim) (s : State) (o : TxOutcome) (t : State) (es : List Event) : Prop where
  ends      : StepsEnd s.limit ps o es
  ran       : Ran s t es
  count     : s.pollCnt ≤ s.limit → t.pollCnt ≤ t.limit
  phase     : t.phase = phaseAfter es o s.phase
  rxByte    : t.rxByte = (lastByte? es).getD s.rxByte
  sample    : t.sample = (lastSample? es).getD s.sample
  fresh     : (∀ p ∈ ps, (∀ a d, p ≠ .start a d) ∧ ∀ a d, p ≠ .rstart a d) → t.fresh = s.fresh
  stepOk    : o = .ok → t.stepIx = s.stepIx + BitVec.ofNat 2 (ps.length - 1)
  stepOne   : ps.length = 1 → t.stepIx = s.stepIx
  lat       : t.lat = s.lat
  busy      : t.busy = s.busy
  limit     : t.limit = s.limit
  rsp       : t.rsp = s.rsp
  rspValid  : t.rspValid = s.rspValid
  pos       : t.pos = s.pos
  pins      : t.pins = s.pins
  cfg       : t.cfg = s.cfg
  moves     : t.moves = s.moves
  responses : t.responses = s.responses
  replies   : t.replies = s.replies

theorem PrimDid.run {p : Prim} {s t : State} {o : TxOutcome} {es : List Event} (h : PrimDid p s o t es) : RunDid [p] s o t
    es :=
  ⟨.last p o es h.ends, h.ran, h.count, h.phase, h.rxByte, h.sample, fun hp => h.fresh (hp p (by simp)),
    fun _ => by simpa using h.kept.stepIx, fun _ => h.kept.stepIx, h.kept.lat, h.kept.busy, h.kept.limit, h.kept.rsp,
    h.kept.rspValid, h.kept.pos, h.kept.pins, h.kept.cfg, h.kept.moves, h.kept.responses, h.kept.replies⟩

/-- A step that returns Ok has made a write. -/
theorem StepEnds.write_of_ok {limit : Count} {p : Prim} {es : List Event} (h : StepEnds limit p .ok es) :
    ∃ e, lastWrite? es = some e := by
  cases h <;> simp [lastWrite?_cons, lastWrite?_append, Event.isWrite]

/-- Phases compose along a run: the second part starts from the phase the first rests in. -/
theorem phaseAfter_append {es fs : List Event} {o : TxOutcome} {p : Phase} (hw : ∃ e, lastWrite? es = some e)
    (hs : ∀ e, lastWrite? es = some e → e.isStop = false) :
    phaseAfter fs o (phaseAfter es .ok p) = phaseAfter (es ++ fs) o p := by
  obtain ⟨e, he⟩ := hw
  have := hs e he
  unfold phaseAfter
  rw [lastWrite?_append, he]
  cases lastWrite? fs with
  | some x => rfl
  | none => simp [this]

/-- A step of a composite that is not its last is no STOP and no RECV. -/
def Prim.continues : Prim → Bool
  | .stop => false
  | .recv _ => false
  | _ => true

theorem StepEnds.no_stop_of_ok {limit : Count} {p : Prim} {es : List Event} (h : StepEnds limit p .ok es)
    (hp : p.continues = true) : ∀ e, lastWrite? es = some e → e.isStop = false := by
  intro e he
  cases h with
  | startOk => simp [lastWrite?_cons, lastWrite?_append, Event.isWrite] at he; subst he; rfl
  | rstartOk => simp [lastWrite?_cons, lastWrite?_append, Event.isWrite] at he; subst he; rfl
  | sendOk => simp [lastWrite?_cons, lastWrite?_append, Event.isWrite] at he; subst he; rfl
  | stopOk => cases hp
  | recvOk => cases hp

theorem runPrims_spec : ∀ (ps : List Prim) (s : State), ps ≠ [] → (∀ p ∈ ps.dropLast, p.continues = true) →
    ∃ o t es, runPrims ps s = (o, t) ∧ RunDid ps s o t es
  | [], _, h, _ => absurd rfl h
  | [p], s, _, _ => by
    obtain ⟨o, t, es, h, hd⟩ := primStep_spec p s
    exact ⟨o, t, es, h, hd.run⟩
  | p :: q :: ps, s, _, hc => by
    obtain ⟨o, t, es, h, hd⟩ := primStep_spec p s
    have hk := hd.kept
    simp only [runPrims, h]
    by_cases ho : o = .ok
    · subst ho
      obtain ⟨o', u, fs, h', hd'⟩ := runPrims_spec (q :: ps) { t with stepIx := t.stepIx + 1#2 } (by simp) (by
        intro x hx
        exact hc x (by simp [List.dropLast_cons_of_ne_nil] at hx ⊢; exact .inr hx))
      have hpc : p.continues = true := hc p (by simp)
      refine ⟨o', u, es ++ fs, h', ?_⟩
      have hlim : t.limit = s.limit := hk.limit
      exact {
        ends := .goesOn p q ps o' es fs hd.ends (by rw [← hlim]; exact hd'.ends)
        ran := hd.ran.trans (hd'.ran.congr rfl rfl rfl rfl rfl rfl)
        count := fun h => hd'.count (hd.count h)
        phase := by
          rw [hd'.phase, ← phaseAfter_append hd.ends.write_of_ok (hd.ends.no_stop_of_ok hpc), ← hd.phase]
        rxByte := by
          rw [hd'.rxByte, lastByte?_append]
          have := hd.rxByte
          cases hf : lastByte? fs with
          | some x => simp
          | none => simpa using this
        sample := by
          rw [hd'.sample, lastSample?_append]
          have := hd.sample
          cases hf : lastSample? fs with
          | some x => simp
          | none => simpa using this
        fresh := fun hp => (hd'.fresh fun x hx => hp x (List.mem_cons_of_mem p hx)).trans (hd.fresh (hp p (by simp)))
        stepOk := fun ho => by
          rw [hd'.stepOk ho, hk.stepIx, BitVec.add_assoc]
          congr 1
          apply BitVec.eq_of_toNat_eq
          simp
          omega
        stepOne := fun hl => by simp at hl
        lat := hd'.lat.trans hk.lat
        busy := hd'.busy.trans hk.busy
        limit := hd'.limit.trans hk.limit
        rsp := hd'.rsp.trans hk.rsp
        rspValid := hd'.rspValid.trans hk.rspValid
        pos := hd'.pos.trans hk.pos
        pins := hd'.pins.trans hk.pins
        cfg := hd'.cfg.trans hk.cfg
        moves := hd'.moves.trans hk.moves
        responses := hd'.responses.trans hk.responses
        replies := hd'.replies.trans hk.replies }
    · refine ⟨o, t, es, ?_, ?_⟩
      · cases o with
        | ok => exact absurd rfl ho
        | _ => rfl
      · exact {
          ends := .fails p q ps o es hd.ends ho
          ran := hd.ran
          count := hd.count
          phase := hd.phase
          rxByte := hd.rxByte
          sample := hd.sample
          fresh := fun hp => hd.fresh (hp p (by simp))
          stepOk := fun h => absurd h ho
          stepOne := fun hl => by simp at hl
          lat := hk.lat
          busy := hk.busy
          limit := hk.limit
          rsp := hk.rsp
          rspValid := hk.rspValid
          pos := hk.pos
          pins := hk.pins
          cfg := hk.cfg
          moves := hk.moves
          responses := hk.responses
          replies := hk.replies }

theorem primsOf_ne_nil (i : Instr) : primsOf i ≠ [] := by cases i <;> simp [primsOf]

theorem primsOf_continues (i : Instr) : ∀ p ∈ (primsOf i).dropLast, p.continues = true := by
  cases i <;> simp [primsOf, Prim.continues]

/-- What a command can do: the run of its steps, then its response (R36, R127). -/
theorem exec_spec (i : Instr) (s : State) : ∃ o u es, exec i s = .next (u.respond (returnsByte i) o) ∧
    RunDid (primsOf i) s o u es := by
  obtain ⟨o, u, es, h, hd⟩ := runPrims_spec (primsOf i) s (primsOf_ne_nil i) (primsOf_continues i)
  exact ⟨o, u, es, by rw [exec_eq, h]; rfl, hd⟩

/-- The response of a run, seen from its first state. -/
theorem RunDid.answered {ps : List Prim} {s u : State} {o : TxOutcome} {es : List Event} (h : RunDid ps s o u es)
    (byte : Bool) :
    Answered s (u.respond byte o) o (byte && decide (o = .ok)) := by
  obtain ⟨h1, h2, h3, h4, h5, h6, h7, h8, h9⟩ := answered_respond byte o u
  exact ⟨h1, h2, h3, by rw [h4, h.responses], h5, h6, h7, h8, h9⟩

theorem RunDid.ran_respond {ps : List Prim} {s u : State} {o : TxOutcome} {es : List Event} (h : RunDid ps s o u es)
    (byte : Bool) :
    Ran s (u.respond byte o) es := h.ran.congr rfl rfl rfl rfl rfl rfl

end Sys2Proof.Machine
end

