-- ==== Sys2Proof/Laws/Contract.lean ====
section
/-!
SUPPORT. Runs of adapter events with an adapter, and what stays true along them.
-/

namespace Sys2Proof.Machine.Adapter

variable {A : Adapter} {e e' e'' : A.State} {ev : Event} {evs evs' : List Event}

theorem Quiet.trans (h : A.Quiet e e') (h' : A.Quiet e' e'') : A.Quiet e e'' := by
  induction h with
  | refl => exact h'
  | own act e e1 e2 ho hm _ ih => exact .own act e e1 _ ho hm (ih h')
  | read e e1 e2 b hm _ ih => exact .read e e1 _ b hm (ih h')

/-- What every move of the environment's own keeps stays true while nothing but own moves and status reads happens. -/
theorem Quiet.keeps (pure : A.StatusReadsPure) (P : A.State → Prop)
    (own : ∀ act e e', act.own = true → A.move act e e' → P e → P e') (h : A.Quiet e e') : P e → P e' := by
  induction h with
  | refl => exact id
  | own act e e1 e2 ho hm _ ih => exact fun hp => ih (own act e e1 ho hm hp)
  | read e e1 e2 b hm _ ih => exact fun hp => ih ((pure e e1 b hm).1 ▸ hp)

/-- With no event left, only moves of the environment's own happen. -/
theorem Plays.nil_inv (h : A.Plays e [] e') : A.Quiet e e' := by
  generalize hn : ([] : List Event) = l at h
  induction h with
  | nil e => exact .refl e
  | own act e e1 e2 evs ho hm _ ih => exact .own act e e1 e2 ho hm (ih hn)
  | event => cases hn

/-- The next event, with what happens before it and after it. -/
theorem Plays.cons_inv (h : A.Plays e (ev :: evs) e') :
    ∃ e1 e2, A.Quiet e e1 ∧ A.move (.engine ev) e1 e2 ∧ A.Plays e2 evs e' := by
  generalize hn : ev :: evs = l at h
  induction h with
  | nil e => cases hn
  | own act e e1 e2 evs ho hm _ ih =>
    obtain ⟨a, b, hq, hr⟩ := ih hn
    exact ⟨a, b, .own act e e1 a ho hm hq, hr⟩
  | event e e1 e2 ev evs hm hp _ =>
    cases hn
    exact ⟨e, e1, .refl e, hm, hp⟩

theorem Plays.append (h : A.Plays e evs e') (h' : A.Plays e' evs' e'') : A.Plays e (evs ++ evs') e'' := by
  induction h with
  | nil e => exact h'
  | own act e e1 e2 evs ho hm _ ih => exact .own act e e1 _ _ ho hm (ih h')
  | event e e1 e2 ev evs hm _ ih => exact .event e e1 _ ev _ hm (ih h')

/-- Two runs, one after the other. -/
theorem Plays.append_inv (h : A.Plays e (evs ++ evs') e'') : ∃ e', A.Plays e evs e' ∧ A.Plays e' evs' e'' := by
  generalize hn : evs ++ evs' = l at h
  induction h generalizing evs with
  | nil e =>
    obtain ⟨rfl, rfl⟩ := List.append_eq_nil_iff.1 hn
    exact ⟨e, .nil e, .nil e⟩
  | own act e e1 e2 l ho hm _ ih =>
    obtain ⟨m, h1, h2⟩ := ih hn
    exact ⟨m, .own act e e1 m _ ho hm h1, h2⟩
  | event e e1 e2 ev l hm hp ih =>
    cases evs with
    | nil =>
      cases hn
      exact ⟨e, .nil e, .event e e1 e2 ev l hm hp⟩
    | cons =>
      cases hn
      obtain ⟨m, h1, h2⟩ := ih rfl
      exact ⟨m, .event e e1 m _ _ hm h1, h2⟩

/-- Status reads with nothing but moves of the environment's own between them. -/
theorem Plays.reads_inv {bs : List Byte} (h : A.Plays e (bs.map .readStatus) e') : A.Quiet e e' := by
  induction bs generalizing e with
  | nil => exact h.nil_inv
  | cons b bs ih =>
    obtain ⟨e1, e2, hq, hm, hp⟩ := h.cons_inv
    exact hq.trans (.read e1 e2 e' b hm (ih hp))

end Sys2Proof.Machine.Adapter
end

