-- ==== Sys2Proof/Laws/Decode.lean ====
section
/-!
SUPPORT. The fields of a packed command word, and what the decoder does with a word whose fields are known.
-/

namespace Sys2Proof

section Pack

variable (op : BitVec 4) (ap : BitVec 1) (dir : DirField) (addr : SlaveAddr) (reg data : Byte)

/-- The formula of R81 is the concatenation of the fields of R67 with bits 27 and 23 zero. -/
theorem packCommand_eq_append :
    packCommand op ap dir addr reg data = op ++ 0#1 ++ ap ++ dir ++ 0#1 ++ addr ++ reg ++ data := by
  apply BitVec.eq_of_getLsbD_eq
  intro i hi
  simp only [packCommand, BitVec.getLsbD_or, BitVec.getLsbD_shiftLeft, BitVec.getLsbD_setWidth, BitVec.getLsbD_append]
  interval_cases i <;> simp

@[simp] theorem fieldOp_pack : fieldOp (packCommand op ap dir addr reg data) = op := by
  apply BitVec.eq_of_getLsbD_eq
  intro i hi
  rw [packCommand_eq_append]
  simp only [fieldOp, BitVec.getLsbD_extractLsb', BitVec.getLsbD_append]
  interval_cases i <;> simp

@[simp] theorem fieldZ1_pack : fieldZ1 (packCommand op ap dir addr reg data) = 0#1 := by
  apply BitVec.eq_of_getLsbD_eq
  intro i hi
  rw [packCommand_eq_append]
  simp only [fieldZ1, BitVec.getLsbD_extractLsb', BitVec.getLsbD_append]
  interval_cases i; simp

@[simp] theorem fieldAp_pack : fieldAp (packCommand op ap dir addr reg data) = ap := by
  apply BitVec.eq_of_getLsbD_eq
  intro i hi
  rw [packCommand_eq_append]
  simp only [fieldAp, BitVec.getLsbD_extractLsb', BitVec.getLsbD_append]
  interval_cases i; simp

@[simp] theorem fieldDir_pack : fieldDir (packCommand op ap dir addr reg data) = dir := by
  apply BitVec.eq_of_getLsbD_eq
  intro i hi
  rw [packCommand_eq_append]
  simp only [fieldDir, BitVec.getLsbD_extractLsb', BitVec.getLsbD_append]
  interval_cases i <;> simp

@[simp] theorem fieldZ0_pack : fieldZ0 (packCommand op ap dir addr reg data) = 0#1 := by
  apply BitVec.eq_of_getLsbD_eq
  intro i hi
  rw [packCommand_eq_append]
  simp only [fieldZ0, BitVec.getLsbD_extractLsb', BitVec.getLsbD_append]
  interval_cases i; simp

@[simp] theorem fieldAddr_pack : fieldAddr (packCommand op ap dir addr reg data) = addr := by
  apply BitVec.eq_of_getLsbD_eq
  intro i hi
  rw [packCommand_eq_append]
  simp only [fieldAddr, BitVec.getLsbD_extractLsb', BitVec.getLsbD_append]
  interval_cases i <;> simp

@[simp] theorem fieldReg_pack : fieldReg (packCommand op ap dir addr reg data) = reg := by
  apply BitVec.eq_of_getLsbD_eq
  intro i hi
  rw [packCommand_eq_append]
  simp only [fieldReg, BitVec.getLsbD_extractLsb', BitVec.getLsbD_append]
  interval_cases i <;> simp

@[simp] theorem fieldData_pack : fieldData (packCommand op ap dir addr reg data) = data := by
  apply BitVec.eq_of_getLsbD_eq
  intro i hi
  rw [packCommand_eq_append]
  simp only [fieldData, BitVec.getLsbD_extractLsb', BitVec.getLsbD_append]
  interval_cases i <;> simp

/-- A packed word is decoded by its opcode alone. -/
theorem decode_pack :
    decode (packCommand op ap dir addr reg data) = decodeOp (packCommand op ap dir addr reg data) := by
  simp [decode]

end Pack

@[simp] theorem policyOfCode_policyCode (p : AckPolicy) : policyOfCode (policyCode p) = p := by
  cases p <;> decide

/-- The opcode of a decoded command is the word's `op`, and the reserved bits of the word are 0. -/
theorem decode_ok_fields {w : Word} {i : Instr} (h : decode w = .ok i) :
    fieldZ1 w = 0#1 ∧ fieldZ0 w = 0#1 ∧ decodeOp w = .ok i := by
  unfold decode at h
  split at h
  · cases h
  · split at h
    · cases h
    · refine ⟨?_, ?_, h⟩ <;> bv_omega

end Sys2Proof
end

