-- ==== Sys2Proof/Laws/Events.lean ====
section
/-!
SUPPORT. Which events a run can make, that an environment answers a run in one way only, and that a scripted environment
can answer any run.
-/

namespace Sys2Proof.Machine

/-! ### Which events a run makes -/

/-- The events a primitive can make, by the primitive that makes them. -/
theorem StepEnds.events {limit p o es} (h : StepEnds limit p o es) : ∀ e ∈ es, (∃ b, e = .readStatus b) ∨
   (∃ a f d, (p = .start a f ∨ p = .rstart a f) ∧ direction? f = some d ∧ e = .writeAddr (compose a d)) ∨
       (∃ x, p = .send x ∧ e = .writeData x) ∨
   (∃ q x, p = .recv q ∧ o = .ok ∧ e = .readData x) ∨ (∃ q, p = .recv q ∧ e = .command (receiveCmd q)) ∨
       (p = .stop ∧ e = .command .stop) ∨
   (∃ a f, p = .start a f ∧ o = .nack ∧ e = .command .stop) := by
  cases h <;> intro e he <;> simp [statusReads] at he <;> aesop

/-- The events a list of primitives can make. -/
theorem StepsEnd.events {limit ps o es} (h : StepsEnd limit ps o es) : ∀ e ∈ es, (∃ b, e = .readStatus b) ∨
   (∃ a f d, (.start a f ∈ ps ∨ .rstart a f ∈ ps) ∧ direction? f = some d ∧ e = .writeAddr (compose a d)) ∨
       (∃ x, .send x ∈ ps ∧ e = .writeData x) ∨
   (∃ q x, .recv q ∈ ps ∧ e = .readData x) ∨ (∃ q, .recv q ∈ ps ∧ e = .command (receiveCmd q)) ∨ (e = .command .stop) := by
  have key : ∀ (p : Prim) o es, StepEnds limit p o es → ∀ ps : List Prim, p ∈ ps → ∀ e ∈ es,  (∃ b, e = .readStatus b) ∨
   (∃ a f d, (.start a f ∈ ps ∨ .rstart a f ∈ ps) ∧ direction? f = some d ∧ e = .writeAddr (compose a d)) ∨
       (∃ x, .send x ∈ ps ∧ e = .writeData x) ∨
   (∃ q x, .recv q ∈ ps ∧ e = .readData x) ∨ (∃ q, .recv q ∈ ps ∧ e = .command (receiveCmd q)) ∨ (e = .command .stop) := by
    intro p o es h ps hp e he
    rcases h.events e he with h | ⟨a, f, d, h1 | h1, h2, h3⟩ | ⟨x, rfl, h9⟩ | ⟨q, x, rfl, _, h'⟩ | ⟨q, rfl, h9⟩ | ⟨_, h9⟩ |
        ⟨_, _, _, _, h9⟩
    · exact .inl h
    · subst h1; exact .inr (.inl ⟨a, f, d, .inl hp, h2, h3⟩)
    · subst h1; exact .inr (.inl ⟨a, f, d, .inr hp, h2, h3⟩)
    · exact .inr (.inr (.inl ⟨x, hp, h9⟩))
    · exact .inr (.inr (.inr (.inl ⟨q, x, hp, h'⟩)))
    · exact .inr (.inr (.inr (.inr (.inl ⟨q, hp, h9⟩))))
    · exact .inr (.inr (.inr (.inr (.inr h9))))
    · exact .inr (.inr (.inr (.inr (.inr h9))))
  have key2 : ∀ ps o es, StepsEnd limit ps o es → ∀ qs : List Prim, ps ⊆ qs → ∀ e ∈ es,  (∃ b, e = .readStatus b) ∨
   (∃ a f d, (.start a f ∈ qs ∨ .rstart a f ∈ qs) ∧ direction? f = some d ∧ e = .writeAddr (compose a d)) ∨
       (∃ x, .send x ∈ qs ∧ e = .writeData x) ∨
   (∃ q x, .recv q ∈ qs ∧ e = .readData x) ∨ (∃ q, .recv q ∈ qs ∧ e = .command (receiveCmd q)) ∨ (e = .command .stop) := by
    intro ps o es h qs
    induction h with
    | last p o es h => intro hs; exact key p o es h qs (hs (by simp))
    | fails p q ps o es h => intro hs; exact key p o es h qs (hs (by simp))
    | goesOn p q ps o es fs h h' ih =>
      intro hs e he
      rcases List.mem_append.1 he with he | he
      · exact key p _ es h qs (hs (by simp)) e he
      · exact ih (fun x hx => hs (List.mem_cons_of_mem _ hx)) e he
  exact key2 ps o es h ps (fun _ h => h)

/-! ### Scripted environments -/

/-- The status samples of a run. -/
def statusAnswers (es : List Event) : List Byte := es.filterMap fun | .readStatus b => some b | _ => none
/-- The data bytes of a run. -/
def dataAnswers (es : List Event) : List Byte := es.filterMap fun | .readData b => some b | _ => none

@[simp] theorem statusAnswers_append (es fs) : statusAnswers (es ++ fs) = statusAnswers es ++ statusAnswers
    fs := by simp [statusAnswers]
@[simp] theorem dataAnswers_append (es fs) : dataAnswers (es ++ fs) = dataAnswers es ++ dataAnswers
    fs := by simp [dataAnswers]
@[simp] theorem statusAnswers_sr (bs) : statusAnswers (statusReads bs) =
    bs := by induction bs <;> simp_all [statusAnswers, statusReads]
@[simp] theorem dataAnswers_sr (bs) : dataAnswers (statusReads bs) =
    [] := by induction bs <;> simp_all [dataAnswers, statusReads]
@[simp] theorem statusAnswers_cons (e es) : statusAnswers (e :: es) = (match e with | .readStatus b => [b] | _ => []) ++
    statusAnswers es := by
  cases e <;> simp [statusAnswers]
@[simp] theorem dataAnswers_cons (e es) : dataAnswers (e :: es) = (match e with | .readData b => [b] | _ => []) ++
    dataAnswers es := by
  cases e <;> simp [dataAnswers]
@[simp] theorem statusAnswers_nil : statusAnswers [] = [] := rfl
@[simp] theorem dataAnswers_nil : dataAnswers [] = [] := rfl

@[simp] theorem replay_sr_scripted (n) (bs rest ds) : Env.replay n (.scripted (bs ++ rest) ds) (statusReads bs) = some
    (.scripted rest ds) := by
  induction bs generalizing n with
  | nil => rfl
  | cons b bs ih => simpa [statusReads, Env.replay, Env.respond, Env.readStatus] using ih _

/-- A scripted environment answers any run whose answers it holds. -/
theorem replay_scripted (es : List Event) (n rs rd) : Env.replay n
    (.scripted (statusAnswers es ++ rs) (dataAnswers es ++ rd)) es = some (.scripted rs rd) := by
  induction es generalizing n with
  | nil => rfl
  | cons e es ih =>
    cases e <;> simp [Env.replay, Env.respond, Env.readStatus, Env.readData, Env.writeAddr, Env.writeData, Env.command] <;>
        exact ih _

/-! ### An environment answers a run in one way only -/

/-- A wait sample by sample: `true` when the flag was seen, `false` when the bound was reached. -/
inductive WaitRun (f : CompletionFlag) : Nat → List Byte → Bool → Prop
  | exp : WaitRun f 0 [] false
  | sees (n b) : f.seenIn b = true → WaitRun f (n+1) [b] true
  | miss (n b bs r) : f.seenIn b = false → WaitRun f n bs r → WaitRun f (n+1) (b :: bs) r


theorem WaitRun.of_expires {f n} : ∀ {bs : List Byte}, bs.length = n → (∀ x ∈ bs, f.seenIn x = false) → WaitRun f n bs false
  | [], h, _ => by subst h; exact .exp
  | b :: bs, h, hf => by
    subst h; exact .miss _ _ _ _ (hf b (by simp)) (WaitRun.of_expires rfl fun x hx => hf x (by simp [hx]))

theorem WaitRun.of_sees {f} {b : Byte} (hb : f.seenIn b = true) : ∀ {n} {bs : List Byte}, bs.length < n →
    (∀ x ∈ bs, f.seenIn x = false) → WaitRun f n (bs ++ [b]) true
  | n+1, [], _, _ => .sees n b hb
  | n+1, c :: bs, h, hf => .miss _ _ _ _ (hf c (by simp)) (WaitRun.of_sees hb (by simpa using h) fun x hx => hf x
      (by simp [hx]))
theorem WaitExpires.waitRun {f limit bs} (h : WaitExpires f limit bs) : WaitRun f limit.toNat bs false := .of_expires h.1 h.2
theorem WaitSees.waitRun {f limit bs b} (h : WaitSees f limit bs b) : WaitRun f limit.toNat (bs ++ [b]) true := .of_sees
    h.2.2 h.1 h.2.1


theorem replay_cons_inv {n e ev es e1} (h : Env.replay n e (ev :: es) = some e1) :
   ∃ e', e.respond (Config.freeAnswer n) ev = some e' ∧ Env.replay (if ev.isRead then n + 1 else n) e' es = some e1 := by
  simp only [Env.replay] at h; split at h
  · exact ⟨_, ‹_›, h⟩
  · cases h

theorem respond_status {e : Env} {free b c e1 e2} (h : e.respond free (.readStatus b) = some e1)
    (h' : e.respond free (.readStatus c) = some e2) : b = c := by
  simp only [Env.respond] at h h'
  split at h <;> split at h' <;> simp_all
theorem respond_data {e : Env} {free b c e1 e2} (h : e.respond free (.readData b) = some e1)
    (h' : e.respond free (.readData c) = some e2) : b = c := by
  simp only [Env.respond] at h h'
  split at h <;> split at h' <;> simp_all

/-- From one environment two waits for a flag go the same way. -/
theorem WaitRun.det {f m bs r} (h : WaitRun f m bs r) : ∀ {cs q n e e1 e2 es fs}, WaitRun f m cs q → Env.replay n e
    (statusReads bs ++ es) = some e1 →
    Env.replay n e (statusReads cs ++ fs) = some e2 → bs = cs ∧ r = q := by
  induction h with
  | exp => intro cs q n e e1 e2 es fs h' _ _; cases h'; exact ⟨rfl, rfl⟩
  | sees m b hb =>
    intro cs q n e e1 e2 es fs h' h1 h2
    obtain ⟨_, k1, _⟩ := replay_cons_inv (ev := .readStatus b) h1
    cases h' with
    | sees _ c hc => obtain ⟨_, k2, _⟩ := replay_cons_inv (ev := .readStatus c) h2; rw [respond_status k1 k2]; exact
        ⟨rfl, rfl⟩
    | miss _ c _ _ hc => obtain ⟨_, k2, _⟩ := replay_cons_inv (ev := .readStatus c) h2; rw [respond_status k1 k2] at hb; simp
        [hc] at hb
  | miss m b bs r hb h ih =>
    intro cs q n e e1 e2 es fs h' h1 h2
    obtain ⟨_, k1, l1⟩ := replay_cons_inv (ev := .readStatus b) h1
    cases h' with
    | sees _ c hc => obtain ⟨_, k2, _⟩ := replay_cons_inv (ev := .readStatus c) h2; rw [respond_status k1 k2] at hb; simp
        [hc] at hb
    | miss _ c cs _ hc h' =>
      obtain ⟨_, k2, l2⟩ := replay_cons_inv (ev := .readStatus c) h2
      have := respond_status k1 k2; subst this
      rw [k1] at k2; cases k2
      obtain ⟨rfl, rfl⟩ := ih h' l1 l2
      exact ⟨rfl, rfl⟩

/-- A primitive's run in one shape for all primitives. -/
inductive PrimRun (limit : Nat) : Prim → TxOutcome → List Event → Prop
  | inv {p : Prim} : p.directionOk = false → PrimRun limit p .invalidDirection []
  | busy {p : Prim} {st b} : p.directionOk = true → p.required? = some st → busOf b ≠ st → PrimRun limit p
      (.busBusy (busOf b)) [.readStatus b]
  | stop : PrimRun limit .stop .ok [.command .stop]
  | wr {p : Prim} {st b0 w bs r} {t : List Event} {o} : p.directionOk = true → p.required? = some st → busOf b0 = st → 
     w = (match p with | .start a _ => [.writeAddr (compose a p.direction)] | .rstart a _ => [.writeAddr (compose a p.direction)] | .send x => [.writeData x] | _ => []) →
     WaitRun p.flag limit bs r → 
     (if r then (match p with | .recv q => ∃ x, t = [.readData x, .command (receiveCmd q)] ∧ o = .ok 
                              | .start _ _ => if rxnackOf (bs.getLastD 0) then t = [.command .stop] ∧ o = .nack else t = [] ∧
                                  o = .ok
                              | _ => t = [] ∧ o = if rxnackOf (bs.getLastD 0) then .nack else .ok)
        else t = [] ∧ o = p.timeout) → PrimRun limit p o (.readStatus b0 :: (w ++ (statusReads bs ++ t)))

theorem directionOk_some {f d} (h : direction? f = some d) : (direction? f).isSome = true ∧ (direction? f).getD .write =
    d := by simp [h]

theorem StepEnds.primRun {limit : Count} {p o es} (h : StepEnds limit p o es) : PrimRun limit.toNat p o es := by
  cases h with
  | startInvalid a f hd => exact .inv (by simp [Prim.directionOk, hd])
  | rstartInvalid a f hd => exact .inv (by simp [Prim.directionOk, hd])
  | startBusBusy a f d b hd hb => exact .busy (by simp [Prim.directionOk, hd]) rfl hb
  | rstartBusBusy a f d b hd hb => exact .busy (by simp [Prim.directionOk, hd]) rfl hb
  | sendBusBusy x b hb => exact .busy rfl rfl hb
  | recvBusBusy x b hb => exact .busy rfl rfl hb
  | startTimeout a f d b0 bs hd hb hw =>
    have := PrimRun.wr (p := .start a f) (t := []) (o := .sendTimeout) (by simp [Prim.directionOk, hd]) rfl hb rfl
        (by simpa [Prim.flag, Prim.direction, hd] using hw.waitRun) (by simp [Prim.timeout])
    simpa [Prim.direction, hd] using this
  | startNack a f d b0 bs b hd hb hw hn =>
    have := PrimRun.wr (p := .start a f) (t := [.command .stop]) (o := .nack) (by simp [Prim.directionOk, hd]) rfl hb rfl
        (by simpa [Prim.flag, Prim.direction, hd] using hw.waitRun) (by simp [hn])
    simpa [Prim.direction, hd] using this
  | startOk a f d b0 bs b hd hb hw hn =>
    have := PrimRun.wr (p := .start a f) (t := []) (o := .ok) (by simp [Prim.directionOk, hd]) rfl hb rfl
        (by simpa [Prim.flag, Prim.direction, hd] using hw.waitRun) (by simp [hn])
    simpa [Prim.direction, hd] using this
  | rstartTimeout a f d b0 bs hd hb hw =>
    have := PrimRun.wr (p := .rstart a f) (t := []) (o := .sendTimeout) (by simp [Prim.directionOk, hd]) rfl hb rfl
        (by simpa [Prim.flag, Prim.direction, hd] using hw.waitRun) (by simp [Prim.timeout])
    simpa [Prim.direction, hd] using this
  | rstartNack a f d b0 bs b hd hb hw hn =>
    have := PrimRun.wr (p := .rstart a f) (t := []) (o := .nack) (by simp [Prim.directionOk, hd]) rfl hb rfl
        (by simpa [Prim.flag, Prim.direction, hd] using hw.waitRun) (by simp [hn])
    simpa [Prim.direction, hd] using this
  | rstartOk a f d b0 bs b hd hb hw hn =>
    have := PrimRun.wr (p := .rstart a f) (t := []) (o := .ok) (by simp [Prim.directionOk, hd]) rfl hb rfl
        (by simpa [Prim.flag, Prim.direction, hd] using hw.waitRun) (by simp [hn])
    simpa [Prim.direction, hd] using this
  | stopOk => exact .stop
  | sendTimeout x b0 bs hb hw =>
    simpa using PrimRun.wr (p := .send x) (t := []) (o := .sendTimeout) rfl rfl hb rfl hw.waitRun (by simp [Prim.timeout])
  | sendNack x b0 bs b hb hw hn =>
    simpa using PrimRun.wr (p := .send x) (t := []) (o := .nack) rfl rfl hb rfl hw.waitRun (by simp [hn])
  | sendOk x b0 bs b hb hw hn =>
    simpa using PrimRun.wr (p := .send x) (t := []) (o := .ok) rfl rfl hb rfl hw.waitRun (by simp [hn])
  | recvTimeout q b0 bs hb hw =>
    simpa using PrimRun.wr (p := .recv q) (t := []) (o := .receiveTimeout) rfl rfl hb rfl hw.waitRun (by simp [Prim.timeout])
  | recvOk q b0 bs b x hb hw =>
    simpa using PrimRun.wr (p := .recv q) (t := [.readData x, .command (receiveCmd q)]) (o := .ok) rfl rfl hb rfl hw.waitRun
        (by simp)

theorem replay_append_inv {n e es fs e1} (h : Env.replay n e (es ++ fs) = some e1) : 
   ∃ e', Env.replay n e es = some e' ∧ Env.replay (n + es.countP Event.isRead) e' fs = some e1 := by
  rw [Env.replay_append] at h; split at h
  · exact ⟨_, ‹_›, h⟩
  · cases h

/-- From one environment two runs of a primitive are the same run. -/
theorem PrimRun.det {limit p o es o' es' n e X Y e1 e2} (h : PrimRun limit p o es) (h' : PrimRun limit p o' es')
   (r : Env.replay n e (es ++ X) = some e1) (r' : Env.replay n e (es' ++ Y) = some e2) : o = o' ∧ es = es' := by
  cases h with
  | inv hd => cases h' <;> simp_all [Prim.directionOk]
  | stop => cases h' <;> simp_all [Prim.directionOk, Prim.required?]
  | busy hd hr hb =>
    cases h' with
    | inv => simp_all
    | stop => simp_all [Prim.required?]
    | busy hd' hr' hb' =>
      obtain ⟨_, k1, _⟩ := replay_cons_inv r
      obtain ⟨_, k2, _⟩ := replay_cons_inv r'
      rw [respond_status k1 k2]; exact ⟨rfl, rfl⟩
    | wr hd' hr' hb' =>
      obtain ⟨_, k1, _⟩ := replay_cons_inv r
      obtain ⟨_, k2, _⟩ := replay_cons_inv r'
      have := respond_status k1 k2; simp_all
  | @wr _ st b0 w bs q t o hd hr hb hw hW ht =>
    cases h' with
    | inv => simp_all
    | stop => simp_all [Prim.required?]
    | busy hd' hr' hb' =>
      obtain ⟨_, k1, _⟩ := replay_cons_inv r
      obtain ⟨_, k2, _⟩ := replay_cons_inv r'
      have := respond_status k1 k2; simp_all
    | @wr _ st' b0' w' bs' q' t' o' hd' hr' hb' hw' hW' ht' =>
      obtain ⟨_, k1, l1⟩ := replay_cons_inv r
      obtain ⟨_, k2, l2⟩ := replay_cons_inv r'
      have := respond_status k1 k2; subst this
      rw [k1] at k2; cases k2
      have hww : w = w' := by rw [hw, hw']
      subst hww
      simp only [List.append_eq, List.append_assoc] at l1 l2
      obtain ⟨_, m1, l1⟩ := replay_append_inv l1
      obtain ⟨_, m2, l2⟩ := replay_append_inv l2
      rw [m1] at m2; cases m2
      obtain ⟨rfl, rfl⟩ := hW.det hW' l1 l2
      obtain ⟨_, m1, l1⟩ := replay_append_inv l1
      obtain ⟨_, m2, l2⟩ := replay_append_inv l2
      rw [m1] at m2; cases m2
      cases q with
      | false => simp at ht ht'; simp [ht, ht']
      | true =>
        cases p with
        | recv pol =>
          simp at ht ht'
          obtain ⟨⟨x, rfl⟩, rfl⟩ := ht
          obtain ⟨⟨y, rfl⟩, rfl⟩ := ht'
          simp only [List.cons_append] at l1 l2
          obtain ⟨_, k1, _⟩ := replay_cons_inv l1
          obtain ⟨_, k2, _⟩ := replay_cons_inv l2
          rw [respond_data k1 k2]; exact ⟨rfl, rfl⟩
        | start a f => by_cases hx : rxnackOf (bs.getLast?.getD 0#8) <;> simp [hx] at ht ht' <;> simp [ht, ht']
        | rstart a f => simp at ht ht'; simp [ht, ht']
        | send a => simp at ht ht'; simp [ht, ht']
        | stop => simp at ht ht'; simp [ht, ht']

/-- From one environment two runs of a list of primitives are the same run. -/
theorem StepsEnd.det {limit ps o es} (h : StepsEnd limit ps o es) : ∀ {o' es' n e X Y e1 e2}, StepsEnd limit ps o' es' →
   Env.replay n e (es ++ X) = some e1 → Env.replay n e (es' ++ Y) = some e2 → o = o' ∧ es = es' := by
  induction h with
  | last p o es h => intro o' es' n e X Y e1 e2 h' r r'; cases h' with | last _ _ _ h' => exact h.primRun.det h'.primRun r r'
  | fails p q ps o es h ho =>
    intro o' es' n e X Y e1 e2 h' r r'; cases h' with
    | fails _ _ _ _ _ h' => exact h.primRun.det h'.primRun r r'
    | goesOn _ _ _ _ es' fs h' h'' =>
      rw [List.append_assoc] at r'
      exact absurd (h.primRun.det h'.primRun r r').1 ho
  | goesOn p q ps o es fs h hs ih =>
    intro o' es' n e X Y e1 e2 h' r r'
    rw [List.append_assoc] at r
    cases h' with
    | fails _ _ _ _ _ h' ho => exact absurd (h.primRun.det h'.primRun r r').1.symm ho
    | goesOn _ _ _ _ es' fs' h' h'' =>
      rw [List.append_assoc] at r'
      obtain ⟨-, rfl⟩ := h.primRun.det h'.primRun r r'
      obtain ⟨_, m1, l1⟩ := replay_append_inv r
      obtain ⟨_, m2, l2⟩ := replay_append_inv r'
      rw [m1] at m2; cases m2
      obtain ⟨rfl, rfl⟩ := ih h'' l1 l2
      exact ⟨rfl, rfl⟩

/-! ### Well-formed environments -/

theorem Env.respond_wf {f e ev e'} (h : Env.respond f e ev = some e') (hw : e.wf = true) : e'.wf = true := by
  cases ev with
  | readStatus b => simp only [Env.respond] at h; split at h <;> cases h; exact Env.readStatus_wf f hw
  | readData b => simp only [Env.respond] at h; split at h <;> cases h; exact Env.readData_wf f hw
  | writeAddr b => simp only [Env.respond] at h; cases h; exact Env.writeAddr_wf b hw
  | writeData b => simp only [Env.respond] at h; cases h; exact Env.writeData_wf b hw
  | command b => simp only [Env.respond] at h; cases h; exact Env.command_wf b hw

theorem Env.replay_wf {n e es e'} (h : Env.replay n e es = some e') (hw : e.wf = true) : e'.wf = true := by
  induction es generalizing n e with
  | nil => simp [Env.replay] at h; exact h ▸ hw
  | cons ev es ih =>
    simp only [Env.replay] at h; split at h
    · next e1 he => exact ih h (Env.respond_wf he hw)
    · cases h

end Sys2Proof.Machine
end

