-- ==== Sys2Proof/Laws/Sequencer.lean ====
section
/-!
SUPPORT. The engine event by event (10_state.md R37) does what the primitive steps do: one lemma for a wait, one for the address
phase, one for each primitive, one for a list of primitives.
-/

namespace Sys2Proof.Machine

/-- The latches of a word that decodes hold the command it decodes to (R18, R35). -/
theorem latches_of_decode {w : Word} {i : Instr} (h : decode w = .ok i) : (latchesOf w).instr? = some i := by
  have h := (decode_ok_fields h).2.2
  unfold decodeOp at h
  unfold Latches.instr? latchesOf
  dsimp only
  split at h <;> first
    | (next hop => cases h; simp only [hop])
    | cases h

/-- At rest the engine stays. -/
theorem runEngine_rest {s : State} (h : ¬ s.busy = true) (n : Nat) : runEngine n s = s := by
  cases n with
  | zero => rfl
  | succ n => show (if s.busy then _ else s) = s; rw [if_neg h]

theorem runEngine_add (m n : Nat) (s : State) : runEngine (m + n) s = runEngine n (runEngine m s) := by
  induction m generalizing s with
  | zero => simp [runEngine]
  | succ m ih =>
    by_cases h : s.busy = true
    · rw [show m + 1 + n = (m + n) + 1 by omega]
      show (if s.busy then runEngine (m + n) (engineStep s) else s) = runEngine n
          (if s.busy then runEngine m (engineStep s) else s)
      rw [if_pos h, if_pos h, ih]
    · rw [runEngine_rest h, runEngine_rest h, runEngine_rest h]

theorem runEngine_one {s : State} (h : s.busy = true) : runEngine 1 s = engineStep s := by
  unfold runEngine; rw [if_pos h]; rfl

theorem run_step {s : State} (h : s.busy = true) (n : Nat) : runEngine (n + 1) s = runEngine n (engineStep s) := by
  rw [show runEngine (n+1) s = if s.busy then runEngine n (engineStep s) else s from rfl, if_pos h]

theorem latchReturnsByte_congr {s t : State} (h : t.lat = s.lat) : t.latchReturnsByte =
    s.latchReturnsByte := by unfold State.latchReturnsByte; rw [h]

theorem currentPrim_congr {s t : State} (h1 : t.lat = s.lat) (h2 : t.stepIx = s.stepIx) : t.currentPrim = s.currentPrim := by
  unfold State.currentPrim State.prims; rw [h1, h2]

/-- A wait does not depend on the position. -/
theorem pollLoop_pos (f : CompletionFlag) (k : Nat) (s : State) (x : SeqPos) :
    State.pollLoop f k { s with pos := x } = ((State.pollLoop f k s).1, { (State.pollLoop f k s).2 with pos := x }) := by
  induction k generalizing s with
  | zero => rfl
  | succ k ih =>
    unfold State.pollLoop
    have : ({ s with pos := x } : State).pollOnce = { s.pollOnce with pos := x } := rfl
    rw [this]
    by_cases h : f.seenIn s.pollOnce.sample = true
    · rw [if_pos h, if_pos (by exact h)]
    · rw [if_neg h, if_neg (by exact h)]; exact ih _

theorem engine_poll {s : State} {p} (hp : s.pos = .poll) (hc : s.currentPrim = some p) : engineStep s = pollStep p s := by
  unfold engineStep; rw [hc]; dsimp only; rw [hp]

/-- A wait in progress, iteration by iteration. -/
theorem poll_run (p : Prim) (k : Nat) (s : State) (hb : s.busy = true) (hpos : s.pos = .poll) (hc : s.currentPrim = some p)
    (hk : s.pollCnt.toNat + k = s.limit.toNat) :
    ((State.pollLoop p.flag k s).1 = .expired ∧ runEngine k s = (State.pollLoop p.flag k s).2 ∧ ¬
        (State.pollLoop p.flag k s).2.pollCnt < (State.pollLoop p.flag k s).2.limit ∧
       (State.pollLoop p.flag k s).2.trace.length = s.trace.length + k) ∨
    ((State.pollLoop p.flag k s).1 = .done ∧ ∃ n, runEngine n s = completionStep p (State.pollLoop p.flag k s).2 ∧
       (State.pollLoop p.flag k s).2.trace.length = s.trace.length + n) := by
  induction k generalizing s with
  | zero => 
    refine .inl ⟨rfl, rfl, ?_, rfl⟩
    show ¬ s.pollCnt < s.limit
    rw [BitVec.lt_def]; omega
  | succ k ih =>
    have hlt : s.pollCnt < s.limit := by rw [BitVec.lt_def]; omega
    have he : engineStep s = if p.flag.seenIn s.pollOnce.sample then completionStep p s.pollOnce else s.pollOnce := by
      rw [engine_poll hpos hc]; unfold pollStep; rw [if_pos hlt]
    unfold State.pollLoop
    by_cases h : p.flag.seenIn s.pollOnce.sample = true
    · rw [if_pos h]; rw [if_pos h] at he
      refine .inr ⟨rfl, 1, ?_, by simp [State.pollOnce, State.paReadStatus]⟩
      rw [runEngine_one hb, he]
    · rw [if_neg h]; rw [if_neg h] at he
      have := s.limit.isLt
      have hcnt : s.pollOnce.pollCnt.toNat = s.pollCnt.toNat + 1 := by
        show (s.pollCnt + 1#16).toNat = _
        rw [BitVec.toNat_add]; simp; omega
      have := ih s.pollOnce hb hpos hc (by rw [hcnt]; show s.pollCnt.toNat + 1 + k = s.limit.toNat; omega)
      have hl : s.pollOnce.trace.length = s.trace.length + 1 := by simp [State.pollOnce, State.paReadStatus]
      rcases this with ⟨h1, h2, h3, h4⟩ | ⟨h1, n, h2, h3⟩
      · exact .inl ⟨h1, by rw [run_step hb, he]; exact h2, h3, by omega⟩
      · exact .inr ⟨h1, n + 1, by rw [run_step hb, he]; exact h2, by omega⟩

/-- What follows a primitive does not depend on the position. -/
theorem advance_pos (o) (t : State) (x) : advance o { t with pos := x } = advance o t := rfl

/-- A failed primitive ends the operation. -/
theorem advance_fails {o} (h : o ≠ .ok) (t : State) : advance o t = t.respond t.latchReturnsByte o := by
  unfold advance; rw [if_neg (fun k => h k.1)]

/-- From `s`, after one step for each event of the primitive, the engine stands before going on from `t` with the outcome `o`. -/
def Settles (s t : State) (o : TxOutcome) : Prop :=
  ∃ n u, runEngine n s = u ∧ u.busy = true ∧ engineStep u = advance o t ∧ t.trace.length = s.trace.length + n

theorem Settles.cons {s s' t : State} {o} (hb : s.busy = true) (he : engineStep s = s')
    (hl : s'.trace.length = s.trace.length + 1) (h : Settles s' t o) : Settles s t o := by
  obtain ⟨n, u, h1, h2, h3, h4⟩ := h
  exact ⟨n + 1, u, by rw [run_step hb, he]; exact h1, h2, h3, by omega⟩

theorem engine_begin {s : State} {p} (hpos : s.pos = .begin) (hc : s.currentPrim = some p) (hd : p.directionOk = true) :
    engineStep s = beginStep p s := by
  unfold engineStep; rw [hc]; dsimp only; rw [hpos]; dsimp only; unfold beginPrim; rw [if_pos hd]

theorem engine_done {s : State} {p o} (hpos : s.pos = .done o) (hc : s.currentPrim = some p) : engineStep s = settle o s := by
  unfold engineStep; rw [hc]; dsimp only; rw [hpos]

theorem engine_ackCheck {s : State} {p} (hpos : s.pos = .ackCheck) (hc : s.currentPrim = some p) :
    engineStep s = ackCheckStep p s := by
  unfold engineStep; rw [hc]; dsimp only; rw [hpos]

/-- A wait from its beginning. -/
theorem wait_run (p : Prim) (s : State) (hb : s.busy = true) (hpos : s.pos = .poll) (hc : s.currentPrim = some p)
    (h0 : s.pollCnt = 0#16) :
    ((s.poll p.flag).1 = .expired ∧ ∃ u, runEngine s.limit.toNat s = u ∧ u.busy = true ∧
        engineStep u = ({ (s.poll p.flag).2 with phase := .data } : State).respond s.latchReturnsByte p.timeout ∧
        (s.poll p.flag).2.trace.length = s.trace.length + s.limit.toNat) ∨
    ((s.poll p.flag).1 = .done ∧ ∃ n, runEngine n s = completionStep p (s.poll p.flag).2 ∧
        (s.poll p.flag).2.trace.length = s.trace.length + n) := by
  have hs : ({ s with pollCnt := 0#16 } : State) = s := by rw [← h0]
  have hp : s.poll p.flag = State.pollLoop p.flag s.limit.toNat s := by unfold State.poll; rw [hs]
  have hk := (poll_spec p.flag s)
  have h := poll_run p s.limit.toNat s hb hpos hc (by rw [h0]; simp)
  have hkept : Kept s (s.poll p.flag).2 := by
    generalize s.poll p.flag = r at hk
    cases hk with
    | expired t bs _ hw _ => exact hw.kept
    | seen t bs b _ hw _ _ => exact hw.kept
  rw [hp] at hkept ⊢
  rcases h with ⟨h1, h2, h3, h4⟩ | ⟨h1, n, h2, h3⟩
  · refine .inl ⟨h1, _, h2, hkept.busy.trans hb, ?_, h4⟩
    rw [engine_poll (hkept.pos.trans hpos) ((currentPrim_congr hkept.lat hkept.stepIx).trans hc)]
    unfold pollStep; rw [if_neg h3]
    congr 1
    unfold State.latchReturnsByte; rw [hkept.lat]
  · exact .inr ⟨h1, n, h2, h3⟩

theorem poll_pos0 (f) (s : State) (x) (h : s.pollCnt = 0#16) (y : State)
    (hy : ({ y with pollCnt := 0#16, pos := x } : State) = s) :
    s.poll f = ((y.poll f).1, { (y.poll f).2 with pos := x }) := by
  have hs : ({ s with pollCnt := 0#16 } : State) = s := by rw [← h]
  unfold State.poll; rw [hs, ← hy]
  exact pollLoop_pos f y.limit.toNat { y with pollCnt := 0#16 } x

theorem flag_start {a f d} (h : direction? f = some d) : (Prim.start a f).flag = addressFlag d ∧ (Prim.start a f).direction =
    d ∧ (Prim.start a f).directionOk = true := by
  simp [Prim.flag, Prim.direction, Prim.directionOk, h]

theorem flag_rstart {a f d} (h : direction? f = some d) : (Prim.rstart a f).flag = addressFlag d ∧
    (Prim.rstart a f).direction = d ∧ (Prim.rstart a f).directionOk = true := by
  simp [Prim.flag, Prim.direction, Prim.directionOk, h]

theorem runs_kept {s t : State} (h : Kept s t) (hb : s.busy = true) : t.busy = true := h.busy.trans hb

theorem poll_kept (f) (s : State) : Kept s (s.poll f).2 := by
  have hk := poll_spec f s
  generalize s.poll f = r at hk
  cases hk with
  | expired t bs _ hw _ => exact hw.kept
  | seen t bs b _ hw _ _ => exact hw.kept

/-- A primitive that one event brings to its outcome. -/
theorem settles_one {s v t : State} {o p} (hb : s.busy = true) (he : engineStep s = v) (hv : v.pos = .done o)
    (hvb : v.busy = true) (hvc : v.currentPrim = some p) (hs : settle o v = advance o t)
    (hl : t.trace.length = s.trace.length + 1) : Settles s t o :=
  ⟨1, v, (runEngine_one hb).trans he, hvb, (engine_done hv hvc).trans hs, hl⟩

/-- The state in which the awaited flag has been seen. -/
def State.judging (s : State) : State := { s with phase := .ackCheck, pos := .ackCheck }

/-- The end of a wait for an acknowledged byte, when the check makes no stop. -/
theorem held_run {kind : AckKind} {t : State} {p} (hb : t.busy = true) (hc : t.currentPrim = some p)
    (hstep : ackCheckStep p t.judging = settle (if rxnackOf t.sample then .nack else .ok) t.judging)
    (hk : kind = .freshAddress → rxnackOf t.sample = false) :
    Settles t.judging (t.ackCheck kind).2 (t.ackCheck kind).1 := by
  have hcj : t.judging.currentPrim = some p := hc
  refine ⟨0, t.judging, rfl, hb, (engine_ackCheck rfl hcj).trans (hstep.trans ?_), ?_⟩
  · unfold State.ackCheck
    by_cases hn : rxnackOf t.sample = true
    · cases kind with
      | freshAddress => rw [hk rfl] at hn; cases hn
      | _ => dsimp only; rw [if_pos hn, if_pos hn]; rfl
    · dsimp only; rw [if_neg hn, if_neg hn]; rfl
  · unfold State.ackCheck
    by_cases hn : rxnackOf t.sample = true
    · cases kind with
      | freshAddress => rw [hk rfl] at hn; cases hn
      | _ => dsimp only; rw [if_pos hn]; rfl
    · dsimp only; rw [if_neg hn]; rfl

/-- The end of a wait for a fresh address, implicit stop included. -/
theorem fresh_run {t : State} {a f} (hb : t.busy = true) (hc : t.currentPrim = some (.start a f)) (hfr : t.fresh = true) :
    Settles t.judging (t.ackCheck .freshAddress).2 (t.ackCheck .freshAddress).1 := by
  by_cases hn : rxnackOf t.sample = true
  · have hcj : t.judging.currentPrim = some (.start a f) := hc
    have he : engineStep t.judging =
        { ({ t.judging with phase := .stop } : State).paCommand .stop with pos := .done .nack } := by
      rw [engine_ackCheck rfl hcj]; unfold ackCheckStep; dsimp only
      rw [if_pos (by exact hn), if_pos (by exact hfr)]
    have hr : t.ackCheck .freshAddress = (.nack, { t.paCommand .stop with phase := .idle }) := by
      unfold State.ackCheck; dsimp only; rw [if_pos hn]; rfl
    rw [hr]
    exact settles_one (s := t.judging) hb he rfl hb hc rfl
      (by show (t.trace ++ [_]).length = t.trace.length + 1; simp)
  · refine held_run hb hc ?_ (fun _ => by simpa using hn)
    unfold ackCheckStep; dsimp only
    rw [if_neg (by exact hn), if_neg hn]

/-- The address phase of START and RSTART. -/
theorem address_run (p : Prim) (kind : AckKind) (a : SlaveAddr) (d : Direction) (s : State) (hb : s.busy = true)
    (hpos : s.pos = .write) (hc : s.currentPrim = some p) (hf : p.flag = addressFlag d) (hto : p.timeout = .sendTimeout)
    (hcs : ∀ t, completionStep p t = t.judging)
    (y : State) (hy : writeStep p s = (y.paWriteAddr (compose a d)).startWait .address) (hyl : y.lat = s.lat)
    (hyb : y.busy = true) (hys : y.stepIx = s.stepIx) (hyt : y.trace = s.trace)
    (hcomp : ∀ t : State, t.fresh = y.fresh → t.busy = true → t.currentPrim = some p →
      Settles t.judging (t.ackCheck kind).2 (t.ackCheck kind).1) :
    Settles s (addressPhase kind a d y).2 (addressPhase kind a d y).1 := by
  have hew : engineStep s = writeStep p s := by unfold engineStep; rw [hc]; dsimp only; rw [hpos]
  refine Settles.cons hb (hew.trans hy) (by simp [State.startWait, State.paWriteAddr, hyt]) ?_
  set s1 := (y.paWriteAddr (compose a d)).startWait .address with hs1
  have hc1 : s1.currentPrim = some p := (currentPrim_congr (s := s) hyl hys).trans hc
  have hw := wait_run p s1 hyb rfl hc1 rfl
  have hp := poll_pos0 p.flag s1 .poll rfl { y.paWriteAddr (compose a d) with phase := .address } rfl
  have hkept := poll_kept p.flag s1
  have hfr : (s1.poll p.flag).2.fresh = y.fresh := by
    have hk := poll_spec p.flag s1
    generalize s1.poll p.flag = r at hk
    cases hk with
    | expired t bs _ hw _ => exact hw.fresh
    | seen t bs b _ hw _ _ => exact hw.fresh
  unfold addressPhase
  rw [← hf]
  set r := State.poll p.flag ({ y.paWriteAddr (compose a d) with phase := .address } : State) with hr
  obtain ⟨r1, r2⟩ := r
  rw [hp] at hw hkept hfr
  rcases hw with ⟨h1, u, h2, h3, h4, h5⟩ | ⟨h1, n, h2, h3⟩
  · cases h1
    refine ⟨_, u, h2, h3, ?_, h5⟩
    rw [h4, hto, advance_fails (by simp), latchReturnsByte_congr (s := s1) (t := { r2 with phase := .data }) hkept.lat]; rfl
  · cases h1
    have hcr : ({ r2 with pos := .poll } : State).currentPrim = some p :=
      (currentPrim_congr (s := s1) (t := { r2 with pos := .poll }) hkept.lat hkept.stepIx).trans hc1
    obtain ⟨m, u, hm1, hm2, hm3, hm4⟩ := hcomp { r2 with pos := .poll } hfr (hkept.busy.trans hyb) hcr
    have hack : State.ackCheck kind ({ r2 with pos := .poll } : State) =
        ((r2.ackCheck kind).1, { (r2.ackCheck kind).2 with pos := .poll }) := by
      unfold State.ackCheck
      dsimp only
      by_cases h : rxnackOf r2.sample = true
      · rw [if_pos h, if_pos (by exact h)]; cases kind <;> rfl
      · rw [if_neg h, if_neg (by exact h)]
    rw [hack] at hm3 hm4
    refine ⟨n + m, u, by rw [runEngine_add, h2, hcs]; exact hm1, hm2, hm3, ?_⟩
    have h3' : r2.trace.length = s1.trace.length + n := h3
    have hm4' : (r2.ackCheck kind).2.trace.length = r2.trace.length + m := hm4
    show (r2.ackCheck kind).2.trace.length = _
    omega

/-- A primitive whose precondition read ends it. -/
theorem busBusy_run {p : Prim} {s : State} (hb : s.busy = true) (hc : s.currentPrim = some p)
    (he : engineStep s = { s.paReadStatus with pos := .done (.busBusy (busOf s.paReadStatus.sample)) })
    (hph : s.phase.rest = s.phase) : Settles s s.paReadStatus (.busBusy (busOf s.paReadStatus.sample)) := by
  refine settles_one (p := p) hb he rfl hb hc ?_ (by simp [State.paReadStatus])
  unfold settle
  show advance _ { s.paReadStatus with phase := s.phase.rest, pos := _ } = _
  rw [hph]; rfl

/-- Every primitive, from its first event. -/
theorem prim_run (p : Prim) (s : State) (hb : s.busy = true) (hpos : s.pos = .begin) (hc : s.currentPrim = some p)
    (hph : s.phase.rest = s.phase) : Settles s (primStep p s).2 (primStep p s).1 := by
  cases p with
  | start a f =>
    cases hd : direction? f with
    | none =>
      have : primStep (.start a f) s = (.invalidDirection, s) := by show startStep a f s = _; unfold startStep; rw [hd]
      rw [this]
      refine ⟨0, s, rfl, hb, ?_, rfl⟩
      unfold engineStep; rw [hc]; dsimp only; rw [hpos]; dsimp only; unfold beginPrim
      rw [if_neg (by simp [Prim.directionOk, hd]), advance_fails (by simp)]
    | some d =>
      obtain ⟨h1, h2, h3⟩ := flag_start (a := a) hd
      have heb := engine_begin hpos hc h3
      unfold beginStep at heb
      dsimp only [Prim.required?] at heb
      have hps : primStep (.start a f) s = if busOf s.paReadStatus.sample ≠ .idle then
          (.busBusy (busOf s.paReadStatus.sample), s.paReadStatus) else addressPhase .freshAddress a d
          { s.paReadStatus with fresh := true } := by
        show startStep a f s = _; unfold startStep; rw [hd]
      rw [hps]
      by_cases hbus : busOf s.paReadStatus.sample ≠ .idle
      · rw [if_pos hbus] at heb ⊢
        exact busBusy_run hb hc heb hph
      · rw [if_neg hbus] at heb ⊢
        refine Settles.cons hb heb (by simp [State.paReadStatus]) ?_
        exact address_run (.start a f) .freshAddress a d ({ s.paReadStatus with pos := .write } : State) hb rfl hc h1 rfl
          (fun _ => rfl) { s.paReadStatus with fresh := true } (by unfold writeStep; rw [h2]; rfl) rfl hb rfl rfl
          (fun t hfr htb hct => fresh_run htb hct hfr)
  | rstart a f =>
    cases hd : direction? f with
    | none =>
      have : primStep (.rstart a f) s = (.invalidDirection, s) := by show rstartStep a f s = _; unfold rstartStep; rw [hd]
      rw [this]
      refine ⟨0, s, rfl, hb, ?_, rfl⟩
      unfold engineStep; rw [hc]; dsimp only; rw [hpos]; dsimp only; unfold beginPrim
      rw [if_neg (by simp [Prim.directionOk, hd]), advance_fails (by simp)]
    | some d =>
      obtain ⟨h1, h2, h3⟩ := flag_rstart (a := a) hd
      have heb := engine_begin hpos hc h3
      unfold beginStep at heb
      dsimp only [Prim.required?] at heb
      have hps : primStep (.rstart a f) s = if busOf s.paReadStatus.sample ≠ .owner then
          (.busBusy (busOf s.paReadStatus.sample), s.paReadStatus) else addressPhase .repeatedAddress a d
          { s.paReadStatus with fresh := false } := by
        show rstartStep a f s = _; unfold rstartStep; rw [hd]
      rw [hps]
      by_cases hbus : busOf s.paReadStatus.sample ≠ .owner
      · rw [if_pos hbus] at heb ⊢
        exact busBusy_run hb hc heb hph
      · rw [if_neg hbus] at heb ⊢
        refine Settles.cons hb heb (by simp [State.paReadStatus]) ?_
        refine address_run (.rstart a f) .repeatedAddress a d ({ s.paReadStatus with pos := .write } : State) hb rfl hc h1
          rfl (fun _ => rfl) { s.paReadStatus with fresh := false } (by unfold writeStep; rw [h2]; rfl) rfl hb rfl rfl
          (fun t hfr htb hct => held_run htb hct ?_ (by simp))
        unfold ackCheckStep; dsimp only
        by_cases hn : rxnackOf t.sample = true
        · rw [if_pos (by exact hn), if_pos hn, if_neg (by show ¬ t.fresh = true; rw [hfr]; simp)]
        · rw [if_neg (by exact hn), if_neg hn]
  | stop =>
    have heb := engine_begin hpos hc rfl
    exact settles_one (p := .stop) hb heb rfl hb hc rfl (by simp [primStep, stopStep, State.paCommand])
  | send x =>
    have heb := engine_begin hpos hc rfl
    unfold beginStep at heb
    dsimp only [Prim.required?] at heb
    show Settles s (sendStep x s).2 (sendStep x s).1
    unfold sendStep
    dsimp only
    by_cases hbus : busOf s.paReadStatus.sample ≠ .owner
    · rw [if_pos hbus] at heb ⊢
      exact busBusy_run hb hc heb hph
    · rw [if_neg hbus] at heb ⊢
      refine Settles.cons hb heb (by simp [State.paReadStatus]) ?_
      have hew : engineStep ({ s.paReadStatus with pos := .write } : State) = (s.paReadStatus.paWriteData x).startWait
          .data := by
        have : ({ s.paReadStatus with pos := .write } : State).currentPrim = some (.send x) := hc
        unfold engineStep; rw [this]; rfl
      refine Settles.cons hb hew (by simp [State.startWait, State.paWriteData]) ?_
      set s1 := (s.paReadStatus.paWriteData x).startWait .data with hs1
      have hw := wait_run (.send x) s1 hb rfl hc rfl
      have hp := poll_pos0 .wif s1 .poll rfl { s.paReadStatus.paWriteData x with phase := .data } rfl
      have hk := poll_spec .wif s1
      have hkept := poll_kept .wif s1
      dsimp only [Prim.flag] at hw
      set r := State.poll .wif ({ s.paReadStatus.paWriteData x with phase := .data } : State) with hr
      obtain ⟨r1, r2⟩ := r
      rw [hp] at hw hk hkept
      rcases hw with ⟨h1, u, h2, h3, h4, h5⟩ | ⟨h1, n, h2, h3⟩
      · cases h1
        have hph : r2.phase = .data := by cases hk with | expired t bs _ hw _ => exact hw.phase
        refine ⟨_, u, h2, h3, ?_, h5⟩
        rw [h4, advance_fails (by simp), latchReturnsByte_congr (s := s1) (t := r2) hkept.lat]; dsimp only [Prim.timeout]
        show State.respond _ _ { r2 with phase := .data, pos := .poll } = _
        rw [← hph]; rfl
      · cases h1
        have hc2 : r2.currentPrim = some (.send x) :=
          (currentPrim_congr (s := s) (t := r2) (by exact hkept.lat) (by exact hkept.stepIx)).trans hc
        obtain ⟨m, u, hm1, hm2, hm3, hm4⟩ := held_run (kind := .dataSent) (t := r2) (p := .send x)
          (hkept.busy.trans hb) hc2 rfl (by simp)
        refine ⟨n + m, u, by rw [runEngine_add, h2]; exact hm1, hm2, hm3, ?_⟩
        have h3' : r2.trace.length = s1.trace.length + n := h3
        have hm4' : (r2.ackCheck .dataSent).2.trace.length = r2.trace.length + m := hm4
        show (r2.ackCheck .dataSent).2.trace.length = _
        omega
  | recv q =>
    have heb := engine_begin hpos hc rfl
    unfold beginStep at heb
    dsimp only [Prim.required?] at heb
    show Settles s (recvStep q s).2 (recvStep q s).1
    unfold recvStep
    dsimp only
    by_cases hbus : busOf s.paReadStatus.sample ≠ .owner
    · rw [if_pos hbus] at heb ⊢
      exact busBusy_run hb hc heb hph
    · rw [if_neg hbus] at heb ⊢
      refine Settles.cons hb heb (by simp [State.startWait, State.paReadStatus]) ?_
      set s1 := s.paReadStatus.startWait .data with hs1
      have hw := wait_run (.recv q) s1 hb rfl hc rfl
      have hp := poll_pos0 .rif s1 .poll rfl { s.paReadStatus with phase := .data } rfl
      have hk := poll_spec .rif s1
      have hkept := poll_kept .rif s1
      dsimp only [Prim.flag] at hw
      set r := State.poll .rif ({ s.paReadStatus with phase := .data } : State) with hr
      obtain ⟨r1, r2⟩ := r
      rw [hp] at hw hk hkept
      rcases hw with ⟨h1, u, h2, h3, h4, h5⟩ | ⟨h1, n, h2, h3⟩
      · cases h1
        have hph : r2.phase = .data := by cases hk with | expired t bs _ hw _ => exact hw.phase
        refine ⟨_, u, h2, h3, ?_, h5⟩
        rw [h4, advance_fails (by simp), latchReturnsByte_congr (s := s1) (t := r2) hkept.lat]; dsimp only [Prim.timeout]
        show State.respond _ _ { r2 with phase := .data, pos := .poll } = _
        rw [← hph]; rfl
      · cases h1
        have hb2 : r2.busy = true := hkept.busy.trans hb
        have hc2 : r2.currentPrim = some (.recv q) := (currentPrim_congr (s := s) (t := r2) (by exact hkept.lat)
          (by exact hkept.stepIx)).trans hc
        have e1 : engineStep { r2 with pos := .dataRead } =
            { r2.paReadData with phase := .ackCheck, pos := .receiveCommand } := by
          have : ({ r2 with pos := .dataRead } : State).currentPrim = some (.recv q) := hc2
          unfold engineStep; rw [this]; rfl
        have e2 : engineStep { r2.paReadData with phase := .ackCheck, pos := .receiveCommand } =
            receiveCommandStep (.recv q) { r2.paReadData with phase := .ackCheck, pos := .receiveCommand } := by
          have : ({ r2.paReadData with phase := .ackCheck, pos := .receiveCommand } : State).currentPrim = some (.recv q) := hc2
          unfold engineStep; rw [this]
        refine ⟨n + 2, receiveCommandStep (.recv q) { r2.paReadData with phase := .ackCheck, pos := .receiveCommand }, ?_, ?_,
          ?_, ?_⟩
        · rw [runEngine_add, h2]
          show runEngine 2 { r2 with pos := .dataRead } = _
          rw [run_step (s := { r2 with pos := .dataRead }) hb2, e1, runEngine_one (by exact hb2), e2]
        · cases q <;> exact hb2
        · cases q with
          | ack => exact (engine_done (p := .recv .ack) (s := receiveCommandStep (.recv .ack)
              { r2.paReadData with phase := .ackCheck, pos := .receiveCommand }) (o := .ok) rfl hc2).trans rfl
          | nack => exact (engine_done (p := .recv .nack) (s := receiveCommandStep (.recv .nack)
              { r2.paReadData with phase := .ackCheck, pos := .receiveCommand }) (o := .ok) rfl hc2).trans rfl
        · have : r2.trace.length = s1.trace.length + n := h3
          cases q <;> simp [receiveByte, State.paReadData, State.paCommand, this] <;> omega

/-- No command has more than four steps. -/
theorem prims_length_le (s : State) : s.prims.length ≤ 4 := by
  unfold State.prims; split
  · next i _ => cases i <;> simp [primsOf]
  · simp

/-- After a primitive `phase` is at rest when it was before, so that the next can begin. -/
theorem rest_of_phase {s : State} (h : s.phase.rest = s.phase) (p : Prim) :
    (primStep p s).2.phase.rest = (primStep p s).2.phase := by
  obtain ⟨o, t, es, he, hd⟩ := primStep_spec p s
  rw [he]
  show t.phase.rest = t.phase
  have := hd.phase
  rw [this]
  unfold phaseAfter
  repeat' split
  all_goals first | rfl | exact h

/-- A list of primitives, from its first event to the state before the end of the operation. -/
theorem list_run (ps : List Prim) (hne : ps ≠ []) (s : State) (hb : s.busy = true) (hpos : s.pos = .begin)
    (hph : s.phase.rest = s.phase) (hps : s.prims.drop s.stepIx.toNat = ps) :
    ∃ n u, runEngine n s = u ∧ u.busy = true ∧ engineStep u = (runPrims ps s).2.respond s.latchReturnsByte (runPrims ps s).1
        ∧
      (runPrims ps s).2.trace.length = s.trace.length + n := by
  induction ps generalizing s with
  | nil => exact absurd rfl hne
  | cons p qs ih =>
    have hlt : s.stepIx.toNat < s.prims.length := by
      by_contra hn
      rw [List.drop_eq_nil_iff.2 (by omega)] at hps; cases hps
    have hdr := List.drop_eq_getElem_cons hlt
    rw [hps] at hdr
    injection hdr with hp1 hq1
    have hc : s.currentPrim = some p := by unfold State.currentPrim; rw [List.getElem?_eq_getElem hlt, hp1]
    have hr := prim_run p s hb hpos hc hph
    have hrest := rest_of_phase hph p
    obtain ⟨o, t, es, he, hd⟩ := primStep_spec p s
    have hk := hd.kept
    rw [he] at hr hrest
    obtain ⟨n, u, h1, h2, h3, h4⟩ := hr
    have h4' : t.trace.length = s.trace.length + n := h4
    have htp : t.prims = s.prims := by unfold State.prims; rw [hk.lat]
    have hlast : t.onLastStep = decide (s.prims.length ≤ s.stepIx.toNat + 1) := by
      unfold State.onLastStep; rw [htp, hk.stepIx]
    have hend : ¬ (o = .ok ∧ t.onLastStep = false) → engineStep u = t.respond s.latchReturnsByte o := by
      intro hne
      rw [h3]; unfold advance; rw [if_neg hne, latchReturnsByte_congr hk.lat]
    cases qs with
    | nil =>
      have h0 : runPrims [p] s = (o, t) := he
      rw [h0]
      have hl : t.onLastStep = true := by
        rw [hlast]
        have := congrArg List.length hps; simp at this; simp; omega
      exact ⟨n, u, h1, h2, hend (by simp [hl]), h4'⟩
    | cons q qs =>
      have hl : t.onLastStep = false := by
        rw [hlast]
        have := congrArg List.length hps; simp at this; simp; omega
      by_cases ho : o = .ok
      · subst ho
        have h0 : runPrims (p :: q :: qs) s = runPrims (q :: qs) { t with stepIx := t.stepIx + 1#2 } := by
          show State.andThen (primStep p s) _ = _; rw [he]; rfl
        have hx : (t.stepIx + 1#2).toNat = s.stepIx.toNat + 1 := by
          rw [hk.stepIx]
          have := congrArg List.length hps; simp at this
          have := prims_length_le s
          rw [BitVec.toNat_add]; simp; omega
        have hpb : t.pos = .begin := hk.pos.trans hpos
        have e : t.nextStep = { t with stepIx := t.stepIx + 1#2 } := by unfold State.nextStep; rw [← hpb]
        rw [h0, ← e]
        have hdrop : t.nextStep.prims.drop t.nextStep.stepIx.toNat = q :: qs := by
          show t.prims.drop (t.stepIx + 1#2).toNat = _
          rw [hx, htp, ← hq1]
        have hcq : t.nextStep.currentPrim = some q := by
          have h := congrArg (·[0]?) hdrop
          simpa [State.currentPrim] using h
        have hnext : engineStep u = engineStep t.nextStep := by
          rw [h3]; unfold advance; rw [if_pos ⟨rfl, hl⟩, hcq]
          unfold engineStep; rw [hcq]; rfl
        have hbn : t.nextStep.busy = true := hk.busy.trans hb
        obtain ⟨m, v, k1, k2, k3, k4⟩ := ih (by simp) t.nextStep hbn rfl hrest hdrop
        have hlat : t.nextStep.latchReturnsByte = s.latchReturnsByte := latchReturnsByte_congr hk.lat
        rw [hlat] at k3
        have k4' : (runPrims (q :: qs) t.nextStep).2.trace.length = t.trace.length + m := k4
        cases m with
        | zero =>
          have k1 : t.nextStep = v := k1
          exact ⟨n, u, h1, h2, by rw [hnext, k1]; exact k1 ▸ k3, by omega⟩
        | succ m =>
          rw [run_step hbn] at k1
          exact ⟨n + (m + 1), v, by rw [runEngine_add, h1, run_step h2, hnext]; exact k1, k2, k3, by omega⟩
      · have h0 : runPrims (p :: q :: qs) s = (o, t) := by
          show State.andThen (primStep p s) _ = _; rw [he]; cases o <;> first | rfl | exact absurd rfl ho
        rw [h0]
        exact ⟨n, u, h1, h2, hend (fun h => ho h.1), h4'⟩

end Sys2Proof.Machine
end

