-- ==== Sys2Proof/Laws/Invariant.lean ====
section
/-!
SUPPORT. Each operation of the step keeps the invariant of Safety.lean: a whole command, an illegal word, reset, acceptance,
and one engine step.
-/

namespace Sys2Proof.Machine

/-- The outside world moves. -/
theorem inv_outside {s : State} (h : s.Inv) (p : Pins) (c : AdapterCfg) {m : List Move} (hm : ∀ x ∈ m, x.wf = true) :
    ({ s with pins := p, cfg := c, moves := m } : State).Inv :=
  ⟨h.count_bound, h.busy_no_response, h.rest_quiet, h.rest_phase, h.running, h.fresh_kind, h.pending, h.response_form,
      h.no_none, ⟨h.env_wf.1, hm⟩⟩

/-- A whole command. -/
theorem inv_exec {i : Instr} {s t : State} (hc : s.pollCnt ≤ s.limit) (hph : s.phase.atRest = true)
    (hn : Event.command .none ∉ s.trace) (he : s.env.wf = true) (hm : ∀ x ∈ s.moves, x.wf = true)
   (h : exec i s = .next t) : t.Inv := by
  obtain ⟨o, u, es, h1, h2⟩ := exec_spec i s
  rw [h1] at h; injection h with h; subst h
  have hr := h2.ran_respond (returnsByte i)
  constructor
  · exact h2.count hc
  · intro h; cases h
  · intro _; exact ⟨rfl, rfl⟩
  · intro _; show u.phase.atRest = true; rw [h2.phase, phaseAfter]; repeat' split
    all_goals first | rfl | exact hph
  · intro h; cases h
  · intro h; cases h
  · intro h; cases h
  · exact ⟨outcomeRsp_wellFormed o _ _, fun _ => by show (u.responses ++ [_]).getLast? = _; simp⟩
  · rw [hr.1]; simp only [List.mem_append, not_or]; refine ⟨hn, fun hm => ?_⟩
    have := h2.ends.events _ hm; simp at this; obtain ⟨q, _, hq⟩ := this; cases q <;> cases hq
  · exact ⟨Env.replay_wf hr.2.1 he, by show ∀ m ∈ u.moves, _; rw [h2.moves]; exact hm⟩

/-- An illegal word. -/
theorem inv_illegal {s : State} (h : s.Inv) (hb : s.busy = false) (w) : (s.answerIllegal w).Inv := by
  constructor
  · exact h.count_bound
  · intro h; cases h
  · intro _; exact ⟨rfl, rfl⟩
  · intro _; exact h.rest_phase hb
  · intro h; cases h
  · intro h; cases h
  · intro h; cases h
  · exact ⟨illegalRsp_wellFormed _, fun _ => by show (s.responses ++ [_]).getLast? = _; simp⟩
  · exact h.no_none
  · exact h.env_wf

/-- Reset. -/
theorem inv_reset {s : State} (h : s.Inv) : s.resetEngine.Inv := by
  constructor
  · exact BitVec.le_refl _
  · intro h; cases h
  · intro _; exact ⟨rfl, rfl⟩
  · intro _; rfl
  · intro h; cases h
  · intro h; cases h
  · intro h; cases h
  · exact ⟨by show rspWellFormed 0 = true; decide, fun h => by cases h⟩
  · exact h.no_none
  · exact h.env_wf

/-- Acceptance. -/
theorem inv_accept {s : State} (h : s.Inv) (hb : s.busy = false) {w i} (hd : decode w = .ok i) (n) : (s.accept w n).Inv := by
  have hi : (s.accept w n).lat.instr? = some i := latches_of_decode hd
  have hcp : ∃ p, (s.accept w n).currentPrim = some p := by
    unfold State.currentPrim State.prims; rw [hi]
    show ∃ p, (primsOf i)[0]? = some p
    cases i <;> exact ⟨_, rfl⟩
  constructor
  · show (0#16) ≤ n; bv_omega
  · intro _; rfl
  · intro h; cases h
  · intro h; cases h
  · intro _; obtain ⟨p, hp⟩ := hcp; exact ⟨p, hp, h.rest_phase hb⟩
  · intro _ h; rcases h with h | h <;> cases h
  · intro _ _ h; cases h
  · exact ⟨h.response_form.1, fun h => by cases h⟩
  · exact h.no_none
  · exact h.env_wf

/-- What an event of a running operation leaves alone. -/
structure Running (s t : State) : Prop where
  busy : t.busy = s.busy
  rv : t.rspValid = s.rspValid
  rsp : t.rsp = s.rsp
  resp : t.responses = s.responses
  moves : t.moves = s.moves
  lat : t.lat = s.lat
  limit : t.limit = s.limit

/-- STOP and RECV are last steps, of every command that has them (R123). -/
theorem last_of_primsOf {i : Instr} {k : Nat} {p : Prim} (h : (primsOf i)[k]? = some p)
    (hp : p = .stop ∨ ∃ q, p = .recv q) : (primsOf i).length ≤ k + 1 := by
  cases i <;> (rcases k with _ | _ | _ | _ | k) <;> simp [primsOf] at h ⊢ <;> subst h <;> simp at hp

theorem last_of_prim {s : State} {p : Prim} (h : s.currentPrim = some p) (hp : p = .stop ∨ ∃ q, p = .recv q) :
    s.onLastStep = true := by
  unfold State.currentPrim State.prims at h
  unfold State.onLastStep State.prims
  cases hi : s.lat.instr? with
  | none => rw [hi] at h; simp at h
  | some i => rw [hi] at h; simpa using last_of_primsOf h hp

/-- An event inside a primitive. -/
theorem inv_inside {s t : State} (h : s.Inv) (hb : s.busy = true) {p} (hp : s.currentPrim = some p) (hr : Running s t)
    (hs : t.stepIx = s.stepIx) (hc : t.pollCnt ≤ t.limit) (hph : posFits p t.pos t.phase = true)
    (hfr : (t.pos = .poll ∨ t.pos = .ackCheck) →
      (∀ a d, p = .start a d → t.fresh = true) ∧ (∀ a d, p = .rstart a d → t.fresh = false))
    (hnd : ∀ o, t.pos = .done o → canReturn p o = true ∧ (o = .ok → s.onLastStep = true))
    (htr : Event.command .none ∉ t.trace) (he : t.env.wf = true) : t.Inv := by
  have hprims : t.prims = s.prims := by unfold State.prims; rw [hr.lat]
  have hcp : t.currentPrim = some p := by unfold State.currentPrim; rw [hprims, hs]; exact hp
  have hols : t.onLastStep = s.onLastStep := by unfold State.onLastStep; rw [hprims, hs]
  constructor
  · exact hc
  · intro _; rw [hr.rv]; exact h.busy_no_response hb
  · intro h; rw [hr.busy, hb] at h; cases h
  · intro h; rw [hr.busy, hb] at h; cases h
  · intro _; exact ⟨p, hcp, hph⟩
  · intro _ hpos q hq; rw [hcp] at hq; cases hq; exact hfr hpos
  · intro _ o ho q hq; rw [hcp] at hq; cases hq; rw [hols]; exact hnd o ho
  · exact ⟨by rw [hr.rsp]; exact h.response_form.1, fun hv => by
        rw [hr.rv, h.busy_no_response hb] at hv; cases hv⟩
  · exact htr
  · exact ⟨he, by rw [hr.moves]; exact h.env_wf.2⟩

/-- The end of an operation. -/
theorem inv_respond {s t : State} (h : s.Inv) (hm : t.moves = s.moves) (hc : t.pollCnt ≤ t.limit)
    (hph : t.phase.atRest = true) (htr : Event.command .none ∉ t.trace) (he : t.env.wf = true) (byte o) :
   (t.respond byte o).Inv := by
  constructor
  · exact hc
  · intro h; cases h
  · intro _; exact ⟨rfl, rfl⟩
  · intro _; exact hph
  · intro h; cases h
  · intro h; cases h
  · intro h; cases h
  · exact ⟨outcomeRsp_wellFormed o _ _, fun _ => by show (t.responses ++ [_]).getLast? = _; simp⟩
  · exact htr
  · exact ⟨he, by show ∀ m ∈ t.moves, _; rw [hm]; exact h.env_wf.2⟩

/-- The beginning of a primitive. -/
theorem inv_begin {s : State} (h : s.Inv) (hb : s.busy = true) {p} (hp : s.currentPrim = some p)
    (hph : s.phase.atRest = true) : (beginPrim p s).Inv := by
  have htr := h.no_none
  have htr' : ∀ e : Event, e ≠ .command .none → Event.command .none ∉ s.trace ++ [e] := by
    intro e he; simp [htr]; exact fun h => he h.symm
  have hew := h.env_wf.1
  have hcb := h.count_bound
  unfold beginPrim
  split
  · next hd =>
    unfold beginStep
    cases hq : p.required? with
    | none =>
      have hps : p = .stop := by cases p <;> first | rfl | cases hq
      subst hps
      exact inv_inside h hb hp ⟨rfl, rfl, rfl, rfl, rfl, rfl, rfl⟩ (by rfl) hcb (by rfl)
        (fun h => by rcases h with h | h <;> cases h)
        (fun o ho => by cases ho; exact ⟨rfl, fun _ => last_of_prim hp (.inl rfl)⟩) (htr' _ (by simp)) (Env.command_wf _ hew)
    | some b =>
      dsimp only
      split
      · next hbb =>
        refine inv_inside h hb hp ⟨rfl, rfl, rfl, rfl, rfl, rfl, rfl⟩ (by rfl) hcb (by cases p <;> exact hph)
          (fun h => by rcases h with h | h <;> cases h)
          (fun o ho => ?_) (htr' _ (by simp)) (Env.readStatus_wf _ hew)
        cases ho
        refine ⟨?_, fun h => by cases h⟩
        show decide (p.required? ≠ none ∧ p.required? ≠ some (busOf s.paReadStatus.sample)) = true
        rw [hq]; simpa using fun h => hbb h.symm
      · cases p <;> dsimp only
        case stop => cases hq
        case recv q =>
          refine inv_inside h hb hp ⟨rfl, rfl, rfl, rfl, rfl, rfl, rfl⟩ (by rfl) ?_ rfl (fun _ => by simp)
              (by intro o ho; cases ho) (htr' _ (by simp)) (Env.readStatus_wf _ hew)
          show (0#16) ≤ s.limit; bv_omega
        all_goals
          refine inv_inside h hb hp ⟨rfl, rfl, rfl, rfl, rfl, rfl, rfl⟩ (by rfl) hcb ?_
              (fun h => by rcases h with h | h <;> cases h)
              (by intro o ho; cases ho) (htr' _ (by simp)) (Env.readStatus_wf _ hew)
          simp [posFits, State.paReadStatus, hph]
          try exact hd
  · exact inv_respond h (by rfl) hcb hph htr hew _ _

theorem Phase.rest_atRest (p : Phase) : p.rest.atRest = true := by cases p <;> rfl

/-- The end of a primitive: the next begins, or the operation ends. -/
theorem inv_settle {s : State} (h : s.Inv) (hb : s.busy = true) (o) : (settle o s).Inv := by
  unfold settle advance
  split
  · next hk =>
    have hlt : s.stepIx.toNat + 1 < s.prims.length := by
      have : s.onLastStep = false := hk.2
      unfold State.onLastStep at this; simpa using this
    have hx : (s.stepIx + 1#2).toNat = s.stepIx.toNat + 1 := by
      have := prims_length_le s; rw [BitVec.toNat_add]; simp; omega
    have hc : ({ s with phase := s.phase.rest } : State).nextStep.currentPrim = some s.prims[s.stepIx.toNat + 1] := by
      show s.prims[(s.stepIx + 1#2).toNat]? = _
      rw [hx]; exact List.getElem?_eq_getElem hlt
    rw [hc]
    refine inv_begin (s := ({ s with phase := s.phase.rest } : State).nextStep) ?_ hb hc (Phase.rest_atRest _)
    constructor
    · exact h.count_bound
    · intro _; exact h.busy_no_response hb
    · intro h; have : s.busy = false := h; rw [hb] at this; cases this
    · intro _; exact Phase.rest_atRest _
    · intro _; exact ⟨_, hc, Phase.rest_atRest _⟩
    · intro _ h; rcases h with h | h <;> cases h
    · intro _ _ h; cases h
    · exact ⟨h.response_form.1, fun hv => by
        have : s.rspValid = true := hv
        rw [h.busy_no_response hb] at this; cases this⟩
    · exact h.no_none
    · exact h.env_wf
  · exact inv_respond (s := s) (t := { s with phase := s.phase.rest }) h (by rfl) h.count_bound (Phase.rest_atRest _) h.no_none
      h.env_wf.1 _ _

/-- One engine step of a running operation. -/
theorem inv_engine {s : State} (h : s.Inv) (hb : s.busy = true) : (engineStep s).Inv := by
  obtain ⟨p, hp, hpf⟩ := h.running hb
  have htr := h.no_none
  have htr' : ∀ e : Event, e ≠ .command .none → Event.command .none ∉ s.trace ++ [e] := by
    intro e he; simp [htr]; exact fun h => he h.symm
  have hew := h.env_wf.1
  have hcb := h.count_bound
  have z : (0#16) ≤ s.limit := by bv_omega
  unfold engineStep
  rw [hp]; dsimp only
  cases hpos : s.pos with
  | begin => rw [hpos] at hpf; exact inv_begin h hb hp (by cases p <;> exact hpf)
  | write =>
    rw [hpos] at hpf
    cases p with
    | start a d =>
      simp [posFits] at hpf
      exact inv_inside h hb hp ⟨rfl, rfl, rfl, rfl, rfl, rfl, rfl⟩ (by rfl) z
          (by simp [writeStep, posFits, State.startWait, hpf]) (fun _ => ⟨fun _ _ _ => rfl, fun _ _ h => (by cases h)⟩)
          (by intro o ho; cases ho) (htr' _ (by simp)) (Env.writeAddr_wf _ hew)
    | rstart a d =>
      simp [posFits] at hpf
      exact inv_inside h hb hp ⟨rfl, rfl, rfl, rfl, rfl, rfl, rfl⟩ (by rfl) z
          (by simp [writeStep, posFits, State.startWait, hpf]) (fun _ => ⟨fun _ _ h => (by cases h), fun _ _ h => rfl⟩)
          (by intro o ho; cases ho) (htr' _ (by simp)) (Env.writeAddr_wf _ hew)
    | send x =>
      exact inv_inside h hb hp ⟨rfl, rfl, rfl, rfl, rfl, rfl, rfl⟩ (by rfl) z rfl (fun _ => by simp)
          (by intro o ho; cases ho) (htr' _ (by simp)) (Env.writeData_wf _ hew)
    | stop => simp [posFits] at hpf
    | recv q => simp [posFits] at hpf
  | poll =>
    rw [hpos] at hpf
    show (pollStep p s).Inv
    unfold pollStep
    split
    · next hlt =>
      have hc' : s.pollCnt + 1#16 ≤ s.limit := by bv_omega
      have ht' : Event.command .none ∉ s.pollOnce.trace := htr' _ (by simp)
      have he' : s.pollOnce.env.wf = true := Env.readStatus_wf _ hew
      have hfk := h.fresh_kind hb (.inl hpos) p hp
      dsimp only
      split
      · unfold completionStep
        cases p with
        | recv q =>
          exact inv_inside h hb hp ⟨rfl, rfl, rfl, rfl, rfl, rfl, rfl⟩ (by rfl) hc' hpf
            (fun h => by rcases h with h | h <;> cases h) (by intro o ho; cases ho) ht' he'
        | stop => simp [posFits] at hpf
        | _ =>
          exact inv_inside h hb hp ⟨rfl, rfl, rfl, rfl, rfl, rfl, rfl⟩ (by rfl) hc' rfl (fun _ => hfk)
            (by intro o ho; cases ho) ht' he'
      · exact inv_inside h hb hp ⟨rfl, rfl, rfl, rfl, rfl, rfl, rfl⟩ (by rfl) hc'
          (by show posFits p s.pos s.phase = true; rw [hpos]; exact hpf) (fun _ => hfk)
          (by intro o ho; have : s.pos = .done o := ho; rw [hpos] at this; cases this) ht' he'
    · exact inv_respond (t := { s with phase := .data }) h (by rfl) hcb (by rfl) htr hew _ _
  | ackCheck =>
    rw [hpos] at hpf
    show (ackCheckStep p s).Inv
    unfold ackCheckStep
    cases p with
    | send x => exact inv_settle h hb _
    | stop => simp [posFits] at hpf
    | recv q => simp [posFits] at hpf
    | start a d =>
      dsimp only
      split
      · split
        · exact inv_inside h hb hp ⟨rfl, rfl, rfl, rfl, rfl, rfl, rfl⟩ (by rfl) hcb (by rfl)
            (fun h => by rcases h with h | h <;> cases h) (fun o ho => by cases ho; exact ⟨rfl, fun h => by cases h⟩)
            (htr' _ (by simp)) (Env.command_wf _ hew)
        · exact inv_settle h hb _
      · exact inv_settle h hb _
    | rstart a d =>
      dsimp only
      split
      · split
        · next hf => have := (h.fresh_kind hb (.inr hpos) _ hp).2 a d rfl; rw [hf] at this; cases this
        · exact inv_settle h hb _
      · exact inv_settle h hb _
  | dataRead =>
    rw [hpos] at hpf
    cases p with
    | recv q =>
      exact inv_inside h hb hp ⟨rfl, rfl, rfl, rfl, rfl, rfl, rfl⟩ (by rfl) hcb rfl
        (fun h => by rcases h with h | h <;> cases h) (by intro o ho; cases ho) (htr' _ (by simp)) (Env.readData_wf _ hew)
    | _ => simp [posFits] at hpf
  | receiveCommand =>
    rw [hpos] at hpf
    have hph : s.phase = .ackCheck := by
      cases p with
      | recv q => cases q <;> simpa [posFits] using hpf
      | _ => simp [posFits] at hpf
    cases p with
    | recv q =>
      cases q with
      | ack =>
        exact inv_inside h hb hp ⟨rfl, rfl, rfl, rfl, rfl, rfl, rfl⟩ (by rfl) hcb
          (by show decide (s.phase = .ackCheck) = true; rw [hph]; rfl)
          (fun h => by rcases h with h | h <;> cases h)
          (fun o ho => by cases ho; exact ⟨rfl, fun _ => last_of_prim hp (.inr ⟨_, rfl⟩)⟩)
          (htr' _ (by simp [receiveCmd])) (Env.command_wf _ hew)
      | nack =>
        exact inv_inside h hb hp ⟨rfl, rfl, rfl, rfl, rfl, rfl, rfl⟩ (by rfl) hcb (by rfl)
          (fun h => by rcases h with h | h <;> cases h)
          (fun o ho => by cases ho; exact ⟨rfl, fun _ => last_of_prim hp (.inr ⟨_, rfl⟩)⟩)
          (htr' _ (by simp [receiveCmd])) (Env.command_wf _ hew)
    | _ => simp [posFits] at hpf
  | done o => exact inv_settle h hb _

/-- Any number of engine steps. -/
theorem inv_run {s : State} (h : s.Inv) (n : Nat) : (runEngine n s).Inv := by
  induction n generalizing s with
  | zero => exact h
  | succ n ih =>
    unfold runEngine
    split
    · next hb => exact ih (inv_engine h hb)
    · exact h

/-- One clock edge. -/
theorem inv_edge {s : State} (h : s.Inv) : (clockEdge s).Inv := by
  unfold clockEdge
  split
  · exact inv_reset h
  · split
    · next hb => exact inv_engine h hb
    · next hb =>
      have hb : s.busy = false := by simpa using hb
      split
      · split
        · next i hd => exact inv_accept h hb hd _
        · exact inv_illegal h hb _
      · exact ⟨h.count_bound, h.busy_no_response, fun hb => ⟨rfl, (h.rest_quiet hb).2⟩, h.rest_phase, h.running,
          h.fresh_kind, h.pending, h.response_form, h.no_none, h.env_wf⟩

end Sys2Proof.Machine
end

