-- ==== Sys2Proof/Laws/PerInstr.lean ====
section
/-!
SUPPORT. The statements made for each instruction: where an encoded command carries its opcode (30_encoding.md R72), and that its
reserved bits are 0 (R73).
-/

/-- The word of `i` carries the opcode of its row in bits 31:28 and 0 in bits 27 and 23. -/
def Sys2Proof.Laws.OpcodeField.Statement (i : Sys2Proof.Instr) : Prop :=
  Sys2Proof.fieldOp (Sys2Proof.encode i) = i.opcode ∧ Sys2Proof.fieldZ1 (Sys2Proof.encode i) = 0#1 ∧
  Sys2Proof.fieldZ0 (Sys2Proof.encode i) = 0#1

namespace Sys2Proof.Laws.OpcodeField

theorem start (addr : SlaveAddr) (dir : DirField) : Statement (.start addr dir) := by simp [Statement, encode, Instr.opcode]
theorem rstart (addr : SlaveAddr) (dir : DirField) : Statement (.rstart addr dir) := by simp [Statement, encode, Instr.opcode]
theorem stop : Statement .stop := by simp [Statement, encode, Instr.opcode]
theorem send (data : Byte) : Statement (.send data) := by simp [Statement, encode, Instr.opcode]
theorem recv (ap : AckPolicy) : Statement (.recv ap) := by simp [Statement, encode, Instr.opcode]
theorem wrreg (addr : SlaveAddr) (reg data : Byte) : Statement (.wrreg addr reg data) := by
  simp [Statement, encode, Instr.opcode]
theorem rdreg (addr : SlaveAddr) (reg : Byte) : Statement (.rdreg addr reg) := by simp [Statement, encode, Instr.opcode]
theorem wrbyte (addr : SlaveAddr) (data : Byte) : Statement (.wrbyte addr data) := by simp [Statement, encode, Instr.opcode]
theorem rdbyte (addr : SlaveAddr) : Statement (.rdbyte addr) := by simp [Statement, encode, Instr.opcode]

end Sys2Proof.Laws.OpcodeField
end

