-- ==== Sys2Proof/Laws/Slave.lean ====
section
/-!
SUPPORT. What runs of events do to `RefBus` (20_memory.md R59 to R66): the state after a run, that the run's answers are its
own, and the address phase and the data writes of its slave.
-/

namespace Sys2Proof.Machine

theorem direction_write : direction? (dirField .write) = some .write := by decide

theorem direction_read : direction? (dirField .read) = some .read := by decide

/-- `RefBus` after one event. -/
def RefBus.afterEvent (r : RefBus) : Event → RefBus
  | .readStatus _ => r.tick
  | .readData _ => r
  | .writeAddr b => r.writeAddr b
  | .writeData b => r.writeData b
  | .command c => r.command c

/-- `RefBus` after a list of events. -/
def RefBus.after (r : RefBus) (es : List Event) : RefBus := es.foldl RefBus.afterEvent r

/-- The answers in a list of events are those `RefBus` gives. -/
def RefBus.Answers (r : RefBus) : List Event → Prop
  | [] => True
  | .readStatus b :: es => b = r.tick.status ∧ RefBus.Answers r.tick es
  | .readData b :: es => b = r.dreg ∧ RefBus.Answers r es
  | e :: es => RefBus.Answers (RefBus.afterEvent r e) es

theorem refBus_respond_status (r : RefBus) (f b) : (Env.refBus r).respond f (.readStatus b) = if r.tick.status = b then some
    (.refBus r.tick) else none := rfl

theorem refBus_respond_data (r : RefBus) (f b) : (Env.refBus r).respond f (.readData b) = if r.dreg = b then some (.refBus r)
    else none := rfl

/-- A run `RefBus` answers leaves it as its events say. -/
theorem refBus_replay {n r es e'} (h : Env.replay n (.refBus r) es = some e') : e' = .refBus (RefBus.after r es) ∧
    RefBus.Answers r es := by
  induction es generalizing n r with
  | nil => simp [Env.replay] at h; subst h; exact ⟨rfl, trivial⟩
  | cons e es ih =>
    simp only [Env.replay] at h
    cases e <;> try simp only [refBus_respond_status, refBus_respond_data] at h
    case readStatus b => 
      by_cases hb : r.tick.status = b
      rotate_left
      · rw [if_neg hb] at h; cases h
      rw [if_pos hb] at h
      obtain ⟨h1, h2⟩ := ih h
      exact ⟨h1, hb.symm, h2⟩
    case readData b => 
      by_cases hb : r.dreg = b
      rotate_left
      · rw [if_neg hb] at h; cases h
      rw [if_pos hb] at h
      obtain ⟨h1, h2⟩ := ih h
      exact ⟨h1, hb.symm, h2⟩
    case writeAddr b => obtain ⟨h1, h2⟩ := ih (r := RefBus.afterEvent r (.writeAddr b)) (n := n) h; exact ⟨h1, h2⟩
    case writeData b => obtain ⟨h1, h2⟩ := ih (r := RefBus.afterEvent r (.writeData b)) (n := n) h; exact ⟨h1, h2⟩
    case command b => obtain ⟨h1, h2⟩ := ih (r := RefBus.afterEvent r (.command b)) (n := n) h; exact ⟨h1, h2⟩

theorem refBus_ran {s t : State} {es r} (h : Ran s t es) (hr : s.env = .refBus r) : t.env = .refBus (RefBus.after r es) ∧
    RefBus.Answers r es := by
  have := h.2.1; rw [hr] at this; exact refBus_replay this

/-- Without a data write the memory stays. -/
theorem after_mem {r : RefBus} {es} (h : ∀ x, Event.writeData x ∉ es) : (RefBus.after r es).mem = r.mem := by
  induction es generalizing r with
  | nil => rfl
  | cons e es ih =>
    show (RefBus.after (RefBus.afterEvent r e) es).mem = _
    rw [ih (fun x hx => h x (by simp [hx]))]
    cases e <;> simp [RefBus.afterEvent]
    exact absurd (List.mem_cons_self) (h _)

/-- A scripted environment stays one. -/
theorem scripted_replay {n bs ds es e'} (h : Env.replay n (.scripted bs ds) es = some e') : ∃ bs ds, e' = .scripted bs
    ds := by
  induction es generalizing n bs ds with
  | nil => simp [Env.replay] at h; exact ⟨_, _, h.symm⟩
  | cons e es ih =>
    simp only [Env.replay] at h
    cases e <;> simp only [Env.respond, Env.writeAddr, Env.writeData, Env.command] at h
    case readStatus b => 
      by_cases hb : (Env.readStatus (Config.freeAnswer n) (Env.scripted bs ds)).1 = b
      rotate_left
      · rw [if_neg hb] at h; cases h
      rw [if_pos hb] at h
      cases bs <;> exact ih h
    case readData b => 
      by_cases hb : (Env.readData (Config.freeAnswer n) (Env.scripted bs ds)).1 = b
      rotate_left
      · rw [if_neg hb] at h; cases h
      rw [if_pos hb] at h
      cases ds <;> exact ih h
    all_goals exact ih h

theorem after_statusReads_mem (r : RefBus) (bs : List Byte) : (RefBus.after r (statusReads bs)).mem = r.mem := after_mem
    (by simp [statusReads])

theorem RefBus.after_append (r : RefBus) (es fs) : RefBus.after r (es ++ fs) = RefBus.after (RefBus.after r es)
    fs := by simp [RefBus.after]

theorem RefBus.answers_append (r : RefBus) (es fs) : RefBus.Answers r (es ++ fs) ↔ RefBus.Answers r es ∧ RefBus.Answers
    (RefBus.after r es) fs := by
  induction es generalizing r with
  | nil => simp [RefBus.Answers, RefBus.after]
  | cons e es ih =>
    cases e <;> simp only [List.cons_append, RefBus.Answers]
    · rw [ih, and_assoc]; rfl
    · rw [ih]; rfl
    · rw [ih]; rfl
    · rw [ih, and_assoc]; rfl
    · rw [ih]; rfl

/-- Two states that agree on everything a status read leaves alone. -/
structure SameButFlags (r r' : RefBus) : Prop where
  bus : r'.bus = r.bus
  rxnack : r'.rxnack = r.rxnack
  dreg : r'.dreg = r.dreg
  mem : r'.mem = r.mem
  ptr : r'.ptr = r.ptr
  mode : r'.mode = r.mode
  first : r'.first = r.first
  saddr : r'.saddr = r.saddr
  lat : r'.lat = r.lat

theorem SameButFlags.refl (r : RefBus) : SameButFlags r r := ⟨rfl,rfl,rfl,rfl,rfl,rfl,rfl,rfl,rfl⟩

theorem SameButFlags.trans {a b c} (h : SameButFlags a b) (k : SameButFlags b c) : SameButFlags a c := 
  ⟨k.1.trans h.1, k.2.trans h.2, k.3.trans h.3, k.4.trans h.4, k.5.trans h.5, k.6.trans h.6, k.7.trans h.7, k.8.trans h.8,
      k.9.trans h.9⟩

theorem sameButFlags_tick (r : RefBus) : SameButFlags r r.tick :=
    ⟨by simp, by simp, by simp, by simp, by simp, by simp, by simp, by simp, by simp⟩

theorem sameButFlags_reads (r : RefBus) (bs : List Byte) : SameButFlags r (RefBus.after r (statusReads bs)) := by
  induction bs generalizing r with
  | nil => exact .refl r
  | cons b bs ih => exact (sameButFlags_tick r).trans (ih r.tick)

theorem last_sample {r : RefBus} {bs b} (h : RefBus.Answers r (statusReads (bs ++ [b]))) : b =
    (RefBus.after r (statusReads (bs ++ [b]))).status := by
  rw [statusReads_append, RefBus.answers_append] at h
  rw [statusReads_append, RefBus.after_append]
  exact h.2.1

theorem compose_write_bit : ∀ a : SlaveAddr, (compose a .write).getLsbD 0 = false := by decide

theorem compose_write_addr : ∀ a : SlaveAddr, (compose a .write).extractLsb' 1 7 = a := by decide

/-- After a START for writing that returned Ok the slave is addressed and receiving. -/
theorem start_ok_addresses {limit a es r} (h : StepEnds limit (.start a (dirField .write)) .ok es) (hk : RefBus.Answers r es)
    :
   (RefBus.after r es).mem = r.mem ∧ (RefBus.after r es).mode = .rx ∧ (RefBus.after r es).first = true ∧
       (RefBus.after r es).bus = .owner ∧ (RefBus.after r es).saddr = r.saddr ∧ a = r.saddr ∧ (RefBus.after r es).lat =
       r.lat := by
  cases h with
  | startOk _ _ d b0 bs b hd hb hw hn =>
    rw [direction_write] at hd; cases hd
    have e : ∀ fs, RefBus.after r (.readStatus b0 :: .writeAddr (compose a .write) :: fs) = RefBus.after
        (r.tick.writeAddr (compose a .write)) fs := fun _ => rfl
    have hk' : RefBus.Answers (r.tick.writeAddr (compose a .write)) (statusReads (bs ++ [b])) := hk.2
    have hb0 : b0 = r.tick.status := hk.1
    have hs := sameButFlags_reads (r.tick.writeAddr (compose a .write)) (bs ++ [b])
    have hl := last_sample hk'
    rw [e]
    have hbus : r.bus = .idle := by subst hb0; simpa using hb
    have hr : (r.tick.writeAddr (compose a .write)).rxnack = false := by
      rw [hl] at hn; rw [← hs.rxnack]; simpa using hn
    have hc : (compose a .write).getLsbD 0 = false := compose_write_bit a
    have hc7 : (compose a .write).extractLsb' 1 7 = a := compose_write_addr a
    have hsa : a = r.saddr := by
      unfold RefBus.writeAddr at hr
      by_contra hne
      simp [hbus, hc7, hne] at hr
    have hfull : r.tick.writeAddr (compose a .write) =
        { r.tick with wif := false, rif := false, bus := .owner, rxnack := false, mode := .rx, first := true, pend := r.tick.pendW } := by
      unfold RefBus.writeAddr
      rw [if_pos (by left; simpa using hbus), if_pos (by simpa [hc7] using hsa), if_neg (by simpa using hc)]
    rw [hs.mem, hs.mode, hs.first, hs.bus, hs.saddr, hs.lat, hfull]
    simp [hsa]

/-- The first data byte after the address sets the pointer (R62). -/
theorem send_sets_pointer {limit x o es r} (h : StepEnds limit (.send x) o es) (hk : RefBus.Answers r es) (hm : r.mode = .rx)
    (hf : r.first = true) (hb : r.bus = .owner) :
   (RefBus.after r es).mem = r.mem ∧ (RefBus.after r es).mode = .rx ∧ (RefBus.after r es).first = false ∧
       (RefBus.after r es).bus = .owner ∧ (RefBus.after r es).ptr = x ∧ (RefBus.after r es).saddr = r.saddr ∧
       (RefBus.after r es).lat = r.lat := by
  have hfull : r.tick.writeData x =
      { r.tick with wif := false, rxnack := false, ptr := x, first := false, pend := r.tick.pendW } := by
    unfold RefBus.writeData RefBus.take
    simp [hb, hm, hf, RefBus.pendW]
  have key : ∀ b0 bs, es = .readStatus b0 :: .writeData x :: statusReads bs → (RefBus.after r es).mem = r.mem ∧
      (RefBus.after r es).mode = .rx ∧ (RefBus.after r es).first = false ∧ (RefBus.after r es).bus = .owner ∧
      (RefBus.after r es).ptr = x ∧ (RefBus.after r es).saddr = r.saddr ∧ (RefBus.after r es).lat = r.lat := by
    rintro b0 bs rfl
    have e : RefBus.after r (.readStatus b0 :: .writeData x :: statusReads bs) = RefBus.after (r.tick.writeData x)
        (statusReads bs) := rfl
    have hs := sameButFlags_reads (r.tick.writeData x) bs
    rw [e, hs.mem, hs.mode, hs.first, hs.bus, hs.ptr, hs.saddr, hs.lat, hfull]
    simp [hm, hb]
  cases h with
  | sendBusBusy _ b hb' => have : b = r.tick.status := hk.1; subst this; simp [hb] at hb'
  | sendTimeout _ b0 bs => exact key _ _ rfl
  | sendNack _ b0 bs b => exact key _ _ rfl
  | sendOk _ b0 bs b => exact key _ _ rfl

/-- A later data byte is stored at the pointer (R62). -/
theorem send_stores {limit x o es r} (h : StepEnds limit (.send x) o es) (hk : RefBus.Answers r es) (hm : r.mode = .rx)
    (hf : r.first = false) (hb : r.bus = .owner) :
   (RefBus.after r es).mem = r.mem.write r.ptr.toNat x ∧ (RefBus.after r es).bus = .owner ∧ (RefBus.after r es).saddr =
       r.saddr ∧ (RefBus.after r es).lat = r.lat := by
  have hfull : r.tick.writeData x =
      { r.tick with wif := false, rxnack := false, mem := r.mem.write r.ptr.toNat x, ptr := r.ptr + 1#8, pend := r.tick.pendW } := by
    unfold RefBus.writeData RefBus.take
    simp [hb, hm, hf, RefBus.pendW]
  have key : ∀ b0 bs, es = .readStatus b0 :: .writeData x :: statusReads bs → (RefBus.after r es).mem = r.mem.write
      r.ptr.toNat x ∧ (RefBus.after r es).bus = .owner ∧ (RefBus.after r es).saddr = r.saddr ∧ (RefBus.after r es).lat =
      r.lat := by
    rintro b0 bs rfl
    have e : RefBus.after r (.readStatus b0 :: .writeData x :: statusReads bs) = RefBus.after (r.tick.writeData x)
        (statusReads bs) := rfl
    have hs := sameButFlags_reads (r.tick.writeData x) bs
    rw [e, hs.mem, hs.bus, hs.saddr, hs.lat, hfull]
    simp [hb]
  cases h with
  | sendBusBusy _ b hb' => have : b = r.tick.status := hk.1; subst this; simp [hb] at hb'
  | sendTimeout _ b0 bs => exact key _ _ rfl
  | sendNack _ b0 bs b => exact key _ _ rfl
  | sendOk _ b0 bs b => exact key _ _ rfl

/-- A primitive other than SEND leaves the memory alone. -/
theorem StepEnds.memory_of_no_send {limit p o es r} (h : StepEnds limit p o es) (hp : ∀ x, p ≠ .send x) :
    (RefBus.after r es).mem = r.mem := by
  apply after_mem; intro x hx; have := h.events _ hx; simp at this; exact hp x this

end Sys2Proof.Machine
end

