-- ==== Sys2Proof/Tests/Slice0.lean ====
section
/-!
SUPPORT. The model's own tests: the checks of written lines, words written out from the spec's encodings, one small step for each
command with the trace and the response of 95_test_vectors.md, and a witness for the hypotheses of each statement.
-/

namespace Sys2Proof.Tests

open Sys2Proof.Machine

/-! ### The checks refuse ill-formed lines (30_encoding.md R71, R81) -/

theorem test_line_addr_128_refused :
    AsmLine.toInstr? (.start 128 0) = none ∧ AsmLine.toInstr? (.rstart 128 0) = none ∧
    AsmLine.toInstr? (.wrreg 128 0 0) = none ∧ AsmLine.toInstr? (.rdreg 128 0) = none ∧
    AsmLine.toInstr? (.wrbyte 128 0) = none ∧ AsmLine.toInstr? (.rdbyte 128) = none := by decide
theorem test_line_byte_256_refused :
    AsmLine.toInstr? (.send 256) = none ∧ AsmLine.toInstr? (.wrreg 0 256 0) = none ∧
    AsmLine.toInstr? (.wrreg 0 0 256) = none ∧ AsmLine.toInstr? (.rdreg 0 256) = none ∧
    AsmLine.toInstr? (.wrbyte 0 256) = none := by decide
theorem test_line_direction_4_refused :
    AsmLine.toInstr? (.start 0 4) = none ∧ AsmLine.toInstr? (.rstart 0 4) = none := by decide
theorem test_line_policy_2_refused : AsmLine.toInstr? (.recv 2) = none := by decide

/-- The lines of R85 assemble to the words beside them. -/
theorem test_lines_assemble :
    assemble (.start 0x50 0) = some 0x10500000#32 ∧ assemble (.start 0x50 2) = some 0x12500000#32 ∧
    assemble (.rstart 0x50 1) = some 0x21500000#32 ∧ assemble .stop = some 0x30000000#32 ∧
    assemble (.send 0x10) = some 0x40000010#32 ∧ assemble (.recv 1) = some 0x54000000#32 ∧
    assemble (.wrreg 0x50 0x10 0xAB) = some 0x805010AB#32 ∧ assemble (.rdreg 0x50 0x10) = some 0x90501000#32 ∧
    assemble (.wrbyte 0x7F 0xFF) = some 0xA07F00FF#32 ∧ assemble (.rdbyte 0x00) = some 0xB0000000#32 := by decide

/-! ### Decoding words written out bit by bit: op, z1, ap, dir, z0, addr, reg, data (R68) -/

theorem test_decode_start :
    decode (0b0001#4 ++ 0b0#1 ++ 0b0#1 ++ 0b01#2 ++ 0b0#1 ++ 0b1010000#7 ++ 0b00000000#8 ++ 0b00000000#8) =
      .ok (.start 0x50#7 1#2) := by decide
theorem test_decode_rstart :
    decode (0b0010#4 ++ 0b0#1 ++ 0b0#1 ++ 0b10#2 ++ 0b0#1 ++ 0b0101010#7 ++ 0b00000000#8 ++ 0b00000000#8) =
      .ok (.rstart 0x2A#7 2#2) := by decide
theorem test_decode_stop :
    decode (0b0011#4 ++ 0b0#1 ++ 0b0#1 ++ 0b00#2 ++ 0b0#1 ++ 0b0000000#7 ++ 0b00000000#8 ++ 0b00000000#8) = .ok .stop := by decide
theorem test_decode_send :
    decode (0b0100#4 ++ 0b0#1 ++ 0b0#1 ++ 0b00#2 ++ 0b0#1 ++ 0b0000000#7 ++ 0b00000000#8 ++ 0b10000001#8) =
      .ok (.send 0x81#8) := by decide
theorem test_decode_recv :
    decode (0b0101#4 ++ 0b0#1 ++ 0b1#1 ++ 0b00#2 ++ 0b0#1 ++ 0b0000000#7 ++ 0b00000000#8 ++ 0b00000000#8) =
      .ok (.recv .nack) := by decide
theorem test_decode_wrreg :
    decode (0b1000#4 ++ 0b0#1 ++ 0b0#1 ++ 0b00#2 ++ 0b0#1 ++ 0b1100110#7 ++ 0b00010010#8 ++ 0b10101011#8) =
      .ok (.wrreg 0x66#7 0x12#8 0xAB#8) := by decide
/-- The field extraction example of 95_test_vectors.md Part 6, with unread fields not 0. -/
theorem test_decode_rdreg : decode 0x965A3CF0#32 = .ok (.rdreg 0x5A#7 0x3C#8) := by decide
theorem test_decode_wrbyte :
    decode (0b1010#4 ++ 0b0#1 ++ 0b0#1 ++ 0b00#2 ++ 0b0#1 ++ 0b1111111#7 ++ 0b00000000#8 ++ 0b11111110#8) =
      .ok (.wrbyte 0x7F#7 0xFE#8) := by decide
theorem test_decode_rdbyte :
    decode (0b1011#4 ++ 0b0#1 ++ 0b0#1 ++ 0b00#2 ++ 0b0#1 ++ 0b0000001#7 ++ 0b00000000#8 ++ 0b00000000#8) =
      .ok (.rdbyte 0x01#7) := by decide

/-- V80 to V88: the illegal words, refused by name. -/
theorem test_decode_illegal :
    decode 0x00000000#32 = .error (.reservedOpcode 0x0#4) ∧ decode 0x60000000#32 = .error (.reservedOpcode 0x6#4) ∧
    decode 0x70000000#32 = .error (.reservedOpcode 0x7#4) ∧ decode 0xC0000000#32 = .error (.reservedOpcode 0xC#4) ∧
    decode 0xF0000000#32 = .error (.reservedOpcode 0xF#4) ∧ decode 0x38000000#32 = .error .reservedBit27 ∧
    decode 0x30800000#32 = .error .reservedBit23 ∧ decode 0x10D00000#32 = .error .reservedBit23 ∧
    decode 0xFFFFFFFF#32 = .error .reservedBit27 := by decide

theorem test_decodeTableWord : decodeTableWord 32 0x805010AB = some (.wrreg 0x50#7 0x10#8 0xAB#8) := by decide

/-! ### Codes and words of 95_test_vectors.md section 0, Part 2 and 70_reset_and_hazards.md R148 -/

/-- V1 to V9. -/
theorem test_compose :
    compose 0x50#7 .write = 0xA0#8 ∧ compose 0x50#7 .read = 0xA1#8 ∧ compose 0x00#7 .write = 0x00#8 ∧
    compose 0x00#7 .read = 0x01#8 ∧ compose 0x7F#7 .write = 0xFE#8 ∧ compose 0x7F#7 .read = 0xFF#8 ∧
    compose 0x51#7 .write = 0xA2#8 ∧ compose 0x51#7 .read = 0xA3#8 ∧ compose 0x3C#7 .read = 0x79#8 := by decide

theorem test_status_fields :
    busOf 0x00#8 = .unknown ∧ busOf 0x01#8 = .idle ∧ busOf 0x02#8 = .owner ∧ busOf 0x03#8 = .busy ∧
    wifOf 0x42#8 = true ∧ rifOf 0x42#8 = false ∧ rifOf 0x92#8 = true ∧ rxnackOf 0x92#8 = true ∧ rxnackOf 0x42#8 = false ∧
    packStatus true true true .owner = 0xD2#8 ∧ packStatus false true true .owner = 0x52#8 := by decide

/-- The low byte of the response to each outcome, and the whole word when it carries a byte. -/
theorem test_response_words :
    (∀ d : Byte, (outcomeRsp .ok false d).extractLsb' 0 8 = 0x00#8 ∧ (outcomeRsp .nack false d).extractLsb' 0 8 = 0x01#8 ∧
      (outcomeRsp (.busBusy .unknown) false d).extractLsb' 0 8 = 0x02#8 ∧
      (outcomeRsp (.busBusy .idle) false d).extractLsb' 0 8 = 0x0A#8 ∧
      (outcomeRsp (.busBusy .owner) false d).extractLsb' 0 8 = 0x12#8 ∧
      (outcomeRsp (.busBusy .busy) false d).extractLsb' 0 8 = 0x1A#8) ∧
    (∀ d : Byte, (outcomeRsp .invalidDirection false d).extractLsb' 0 8 = 0x03#8 ∧
      (outcomeRsp .sendTimeout false d).extractLsb' 0 8 = 0x04#8 ∧
      (outcomeRsp .receiveTimeout false d).extractLsb' 0 8 = 0x05#8 ∧ (illegalRsp d).extractLsb' 0 8 = 0x47#8) ∧
    outcomeRsp .ok true 0xAB#8 = 0xAB20#16 := by
  refine ⟨by decide, by decide, by decide⟩

theorem test_baud :
    baudValue? 32000000 100000 = some 155 ∧ baudValue? 32000000 400000 = some 35 ∧ baudValue? 2000000 400000 = none ∧
    baudValue? 1000000 0 = none := by decide

/-- R40: what is not a capability takes no access; location 3 is the command with the code of its low bits. -/
theorem test_capabilities :
    State.capRead 0#2 State.reset = none ∧ State.capRead 3#2 State.reset = none ∧ State.capWrite 2#2 0#8 State.reset = none ∧
    (State.capWrite 3#2 0xFD#8 State.reset).map (·.trace) = some [.command .stop] ∧
    (State.capWrite 0#2 0xA0#8 State.reset).map (·.trace) = some [.writeAddr 0xA0#8] ∧
    (State.capWrite 1#2 0x10#8 State.reset).map (·.trace) = some [.writeData 0x10#8] := by decide

/-! ### One step for each command, the environment being `RefBus` or a script -/

/-- The command `w` presented, under `limit`, to an engine after reset in the environment `e`. -/
def present (w : Word) (limit : Count) (e : Env) : State := { State.reset with env := e, moves := [.command w limit] }

/-- What a test looks at: the events, the phase, and the environment. -/
def seen : Host.Outcome State Fault Refusal → Option (List Event × Phase × Env)
  | .next t => some (t.trace, t.phase, t.env)
  | _ => none

/-- The response words of the outcome of a step. -/
def rsps : Host.Outcome State Fault Refusal → List (BitVec 16)
  | .next t => t.responses
  | _ => []

/-- `RefBus` after V20: addressed for writing. -/
def opened : RefBus := { RefBus.initial with bus := .owner, wif := true, mode := .rx, first := true }

/-- `RefBus` after V32: addressed for reading, 0xAB in the data register. -/
def reading : RefBus :=
  { RefBus.initial with bus := .owner, rif := true, mode := .tx, mem := [(0x10, 0xAB#8)], ptr := 0x11#8, dreg := 0xAB#8 }

theorem test_V22_start_nack :
    seen (step (present 0x10510000#32 1000#16 (.refBus .initial))) =
      some ([.readStatus 0x01#8, .writeAddr 0xA2#8, .readStatus 0x52#8, .command .stop], .idle,
        .refBus { RefBus.initial with rxnack := true }) := by decide
theorem test_V31_rstart_not_owner :
    seen (step (present 0x21500000#32 1000#16 (.refBus .initial))) =
      some ([.readStatus 0x01#8], .idle, .refBus .initial) := by decide
theorem test_V33_rstart_nack_keeps_bus :
    seen (step (present 0x21510000#32 1000#16 (.refBus opened))) =
      some ([.readStatus 0x42#8, .writeAddr 0xA3#8, .readStatus 0x92#8], .data,
        .refBus { opened with wif := false, rif := true, rxnack := true, mode := .none }) := by decide
theorem test_V38_stop_bus_busy :
    seen (step (present 0x30000000#32 1000#16 (.refBus { RefBus.initial with bus := .busy }))) =
      some ([.command .stop], .idle, .refBus { RefBus.initial with bus := .busy }) := by decide
theorem test_V40_send :
    seen (step (present 0x40000010#32 1000#16 (.refBus opened))) =
      some ([.readStatus 0x42#8, .writeData 0x10#8, .readStatus 0x42#8], .data,
        .refBus { opened with ptr := 0x10#8, first := false }) := by decide
theorem test_V43b_send_in_read :
    (seen (step (present 0x40000033#32 1000#16 (.refBus reading)))).map (·.1) =
      some [.readStatus 0x82#8, .writeData 0x33#8, .readStatus 0xD2#8] := by decide
theorem test_V44_recv_nack :
    seen (step (present 0x54000000#32 1000#16 (.refBus reading))) =
      some ([.readStatus 0x82#8, .readStatus 0x82#8, .readData 0xAB#8, .command .nackAndStop], .idle,
        .refBus { reading with bus := .idle, rif := false, mode := .none }) ∧
    rsps (step (present 0x54000000#32 1000#16 (.refBus reading))) = [0xAB20#16] := by decide
theorem test_V46_recv_ack :
    seen (step (present 0x50000000#32 1000#16 (.refBus { reading with mem := [(0x10, 0xAB#8), (0x11, 0xCD#8)] }))) =
      some ([.readStatus 0x82#8, .readStatus 0x82#8, .readData 0xAB#8, .command .continueReceive], .data,
        .refBus { reading with
          mem := [(0x10, 0xAB#8), (0x11, 0xCD#8)], rif := false, dreg := 0xCD#8, ptr := 0x12#8, pend := .r 0 }) := by decide
theorem test_V50_wrreg :
    seen (step (present 0x805010AB#32 1000#16 (.refBus .initial))) =
      some ([.readStatus 0x01#8, .writeAddr 0xA0#8, .readStatus 0x42#8, .readStatus 0x42#8, .writeData 0x10#8,
          .readStatus 0x42#8, .readStatus 0x42#8, .writeData 0xAB#8, .readStatus 0x42#8, .command .stop], .idle,
        .refBus { RefBus.initial with mem := [(0x10, 0xAB#8)], ptr := 0x11#8 }) := by decide
/-- The bus is lost between two steps, and the second step's own check catches it. -/
theorem test_V71_wrreg_bus_lost :
    (seen (step (present 0x805010AB#32 1000#16 (.scripted [0x01#8, 0x42#8, 0x03#8] [])))).map (·.1) =
      some [.readStatus 0x01#8, .writeAddr 0xA0#8, .readStatus 0x42#8, .readStatus 0x03#8] := by decide
theorem test_V52_rdreg :
    seen (step (present 0x90501000#32 1000#16 (.refBus { RefBus.initial with mem := [(0x10, 0xAB#8)] }))) =
      some ([.readStatus 0x01#8, .writeAddr 0xA0#8, .readStatus 0x42#8, .readStatus 0x42#8, .writeData 0x10#8,
          .readStatus 0x42#8, .readStatus 0x42#8, .writeAddr 0xA1#8, .readStatus 0x82#8, .readStatus 0x82#8,
          .readStatus 0x82#8, .readData 0xAB#8, .command .nackAndStop], .idle,
        .refBus { RefBus.initial with mem := [(0x10, 0xAB#8)], dreg := 0xAB#8, ptr := 0x11#8 }) ∧
    rsps (step (present 0x90501000#32 1000#16 (.refBus { RefBus.initial with mem := [(0x10, 0xAB#8)] }))) = [0xAB20#16] := by
  refine ⟨by decide, by decide⟩
/-- The repeated-start address is not acknowledged: no stop, no RECV. -/
theorem test_V70_rdreg_nack :
    (seen (step (present 0x90501000#32 1000#16
      (.scripted [0x01#8, 0x42#8, 0x42#8, 0x42#8, 0x42#8, 0x92#8] [])))).map (·.1) =
      some [.readStatus 0x01#8, .writeAddr 0xA0#8, .readStatus 0x42#8, .readStatus 0x42#8, .writeData 0x10#8,
        .readStatus 0x42#8, .readStatus 0x42#8, .writeAddr 0xA1#8, .readStatus 0x92#8] := by decide
theorem test_V55_wrbyte :
    seen (step (present 0xA0500022#32 1000#16 (.refBus .initial))) =
      some ([.readStatus 0x01#8, .writeAddr 0xA0#8, .readStatus 0x42#8, .readStatus 0x42#8, .writeData 0x22#8,
          .readStatus 0x42#8, .command .stop], .idle,
        .refBus { RefBus.initial with ptr := 0x22#8 }) := by decide
theorem test_V57_rdbyte :
    seen (step (present 0xB0500000#32 1000#16 (.refBus { RefBus.initial with mem := [(0, 0x5A#8)] }))) =
      some ([.readStatus 0x01#8, .writeAddr 0xA1#8, .readStatus 0x82#8, .readStatus 0x82#8, .readStatus 0x82#8,
          .readData 0x5A#8, .command .nackAndStop], .idle,
        .refBus { RefBus.initial with mem := [(0, 0x5A#8)], dreg := 0x5A#8, ptr := 0x01#8 }) := by decide

/-! ### The rules on waits, checks, illegal words and reset -/

/-- V66: the flag at iteration `LIMIT` exactly is seen. -/
theorem test_V66_wrbyte_last_iteration :
    (seen (step (present 0xA0500022#32 3#16 (.refBus { RefBus.initial with lat := some 2 })))).map (·.1) =
      some [.readStatus 0x01#8, .writeAddr 0xA0#8, .readStatus 0x02#8, .readStatus 0x02#8, .readStatus 0x42#8,
        .readStatus 0x42#8, .writeData 0x22#8, .readStatus 0x02#8, .readStatus 0x02#8, .readStatus 0x42#8, .command .stop] := by
  decide

/-- V12's shape: the flag would show one iteration later; exactly `LIMIT` reads, no stop. -/
theorem test_V12_rdbyte_timeout :
    (seen (step (present 0xB0500000#32 3#16 (.refBus { RefBus.initial with lat := some 3 })))).map (·.1) =
      some [.readStatus 0x01#8, .writeAddr 0xA1#8, .readStatus 0x02#8, .readStatus 0x02#8, .readStatus 0x02#8] ∧
    rsps (step (present 0xB0500000#32 3#16 (.refBus { RefBus.initial with lat := some 3 }))) =
      [outcomeRsp .sendTimeout false (Config.freeByte 0)] := ⟨by decide, rfl⟩

/-- V27: the direction is checked before the bus. -/
theorem test_V27_invalid_direction :
    (seen (step (present 0x12500000#32 1000#16 (.refBus { RefBus.initial with bus := .busy })))).map (·.1) = some [] ∧
    rsps (step (present 0x12500000#32 1000#16 (.refBus { RefBus.initial with bus := .busy }))) =
      [outcomeRsp .invalidDirection false (Config.freeByte 0)] := ⟨by decide, rfl⟩

/-- V84: an illegal word makes no access and is answered with low byte 0x47. -/
theorem test_V84_illegal_word :
    seen (step (present 0xF0000000#32 1000#16 (.refBus .initial))) = some ([], .idle, .refBus .initial) ∧
    rsps (step (present 0xF0000000#32 1000#16 (.refBus .initial))) = [illegalRsp (Config.freeByte 0)] := ⟨by decide, rfl⟩

/-- An engine in the middle of V16: the address byte written, two polls made, `RefBus` never completing. -/
def midPoll : State :=
  { State.reset with
    lat := latchesOf 0x10500000#32, busy := true, limit := 0xFFFF#16, pollCnt := 2#16, phase := .address, fresh := true
    pos := .poll, sample := 0x02#8, access := some (.readStatus 0x02#8)
    env := .refBus { RefBus.initial with bus := .owner, mode := .rx, first := true, lat := none }
    trace := [.readStatus 0x01#8, .writeAddr 0xA0#8, .readStatus 0x02#8, .readStatus 0x02#8], reads := 3 }

/-- The reset paragraph of Part 7: no further event, no response, the bus still held. -/
theorem test_reset_mid_operation :
    step { midPoll with moves := [.edge ⟨true, true, 0x30000000#32, 3#16⟩] } =
      .next { State.reset with
        pins := ⟨true, true, 0x30000000#32, 3#16⟩, env := midPoll.env, trace := midPoll.trace, reads := 3 } := rfl

/-- The word `w` accepted from `RefBus`, and the value of `dbg_phase` after each of the engine's steps until the end. -/
def accepted (w : Word) (limit : Count) (r : RefBus) : State := State.accept w limit { State.reset with env := .refBus r }

def phases (n : Nat) (s : State) : List Phase := (List.range n).map fun k => (runEngine (k + 1) s).phase

/-- R33's rows, in the order of the events of V57, V40, V22, V46, V30's STOP and V12. -/
theorem test_R33_phases :
    phases 8 (accepted 0xB0500000#32 1000#16 .initial) = [.idle, .address, .ackCheck, .data, .data, .ackCheck, .stop, .idle] ∧
    phases 4 (accepted 0x40000010#32 1000#16 opened) = [.idle, .data, .ackCheck, .data] ∧
    phases 5 (accepted 0x10510000#32 1000#16 .initial) = [.idle, .address, .ackCheck, .stop, .idle] ∧
    phases 5 (accepted 0x50000000#32 1000#16 reading) = [.data, .data, .ackCheck, .ackCheck, .data] ∧
    phases 2 (accepted 0x30000000#32 1000#16 opened) = [.stop, .idle] ∧
    phases 5 (accepted 0xB0500000#32 2#16 { RefBus.initial with lat := some 3 }) =
      [.idle, .address, .address, .address, .data] := by decide

theorem test_withFetchWord_runs_next :
    seen (step (State.reset.withFetchWord 32 0x30000000)) = some ([.command .stop], .idle, .scripted [] []) := by decide

/-! ### Witnesses for the hypotheses of the statements -/

theorem witness_UnreadFieldsAreIgnoredAndLatched :
    decode 0x805010AB#32 = .ok (.wrreg 0x50#7 0x10#8 0xAB#8) ∧
    0x875010AB#32 &&& readMask (.wrreg 0x50#7 0x10#8 0xAB#8) = 0x805010AB#32 &&& readMask (.wrreg 0x50#7 0x10#8 0xAB#8) ∧
    0x875010AB#32 ≠ 0x805010AB#32 := by decide

theorem witness_TableRowSelectsItsCommand : decode 0x965A3CF0#32 = .ok (.rdreg 0x5A#7 0x3C#8) := by decide

/-- A reset that comes with an edge, and one that stands on the pin, each in the middle of an operation. -/
theorem witness_ResetEdgeFromAnyState :
    (∃ (s : State) (p : Pins) (rest : List Move), s.moves = .edge p :: rest ∧ p.rst = true ∧ s.busy = true) ∧
    ∃ s : State, s.moves = [] ∧ s.pins.rst = true ∧ s.busy = true :=
  ⟨⟨{ midPoll with moves := [.edge ⟨true, false, 0#32, 0#16⟩] }, _, _, rfl, rfl, rfl⟩,
    ⟨{ midPoll with pins := ⟨true, false, 0#32, 0#16⟩ }, rfl, rfl, rfl⟩⟩

theorem witness_ResetLeavesTheOutsideAlone :
    ∃ (s : State) (p : Pins) (rest : List Move), s.moves = .edge p :: rest ∧ p.rst = true ∧ s.trace ≠ [] ∧ rest ≠ [] :=
  ⟨{ midPoll with moves := [.edge ⟨true, false, 0#32, 0#16⟩, .adapter .enable] }, _, _, rfl, rfl, by decide, by decide⟩

/-- A running state that meets the invariant. -/
theorem midPoll_inv : midPoll.Inv where
  count_bound := by decide
  busy_no_response _ := rfl
  rest_quiet h := by cases h
  rest_phase h := by cases h
  running _ := ⟨.start 0x50#7 0#2, by decide, by decide⟩
  fresh_kind _ _ p hp := by
    have : midPoll.currentPrim = some (.start 0x50#7 0#2) := by decide
    rw [this] at hp
    cases hp
    exact ⟨fun _ _ _ => rfl, fun _ _ h => by cases h⟩
  pending _ _ h := by cases h
  response_form := ⟨by decide, fun h => by cases h⟩
  no_none := by decide
  env_wf := ⟨by decide, by decide⟩

/-- A state at rest, a response valid, that meets the invariant; `moves` to be chosen. -/
def atRest (moves : List Move) : State :=
  { State.reset with rsp := 0x0000#16, rspValid := true, responses := [0x0000#16], phase := .data, moves := moves }

theorem atRest_inv {moves : List Move} (h : ∀ m ∈ moves, m.wf = true) : (atRest moves).Inv where
  count_bound := by show (0#16) ≤ 0#16; decide
  busy_no_response h := by cases h
  rest_quiet _ := ⟨rfl, rfl⟩
  rest_phase _ := rfl
  running h := by cases h
  fresh_kind h := by cases h
  pending h := by cases h
  response_form := ⟨by show rspWellFormed 0x0000#16 = true; decide, fun _ => rfl⟩
  no_none := by show Event.command .none ∉ []; simp
  env_wf := ⟨rfl, h⟩

theorem witness_EveryStepKeepsTheInvariant : ∃ s t, s.Inv ∧ step s = .next t ∧ t ≠ s :=
  ⟨midPoll, _, midPoll_inv, rfl, by decide⟩

theorem witness_StepRunsThePresentedCommand :
    ∃ (s : State) (w : Word) (limit : Count) (rest : List Move) (i : Instr),
      s.moves = .command w limit :: rest ∧ s.busy = false ∧ decode w = .ok i :=
  ⟨present 0x30000000#32 3#16 (.refBus .initial), _, _, _, .stop, rfl, rfl, by decide⟩

theorem witness_AcceptanceLatchesOnce :
    (∃ (s : State) (p : Pins) (rest : List Move) (i : Instr), s.moves = .edge p :: rest ∧ p.rst = false ∧ s.busy = false ∧
      p.cmdValid = true ∧ decode p.cmdWord = .ok i) ∧
    (∃ (s : State) (p q : Pins), s.busy = true ∧ p.rst = false ∧ q.rst = false ∧ p ≠ q) :=
  ⟨⟨atRest [.edge ⟨false, true, 0x30000000#32, 3#16⟩], _, _, .stop, rfl, rfl, rfl, rfl, by decide⟩,
    ⟨midPoll, ⟨false, true, 0#32, 0#16⟩, ⟨false, false, 1#32, 7#16⟩, rfl, rfl, rfl, by decide⟩⟩

theorem witness_PresentedCommandWaits : midPoll.busy = true := rfl

theorem witness_EngineAtRestWaits :
    ∃ (s : State) (p : Pins) (rest : List Move), s.moves = .edge p :: rest ∧ s.Inv ∧ s.busy = false ∧ p.rst = false ∧
      p.cmdValid = false :=
  ⟨atRest [.edge ⟨false, false, 0x30000000#32, 3#16⟩], _, _, rfl, atRest_inv (by decide), rfl, rfl, rfl⟩

/-- An illegal word as a command, and at an edge. -/
theorem witness_IllegalWordIsAnswered :
    (∃ (s : State) (w : Word) (n : Count) (rest : List Move), s.moves = .command w n :: rest ∧ s.busy = false ∧
      legalWord w = false) ∧
    ∃ (s : State) (p : Pins) (rest : List Move), s.moves = .edge p :: rest ∧ p.rst = false ∧ p.cmdValid = true ∧
      s.busy = false ∧ legalWord p.cmdWord = false :=
  ⟨⟨present 0x38000000#32 3#16 (.refBus .initial), _, _, _, rfl, rfl, by decide⟩,
    ⟨atRest [.edge ⟨false, true, 0xF0000000#32, 3#16⟩], _, _, rfl, rfl, rfl, rfl, by decide⟩⟩

/-- A call while busy; a configuration at the least and just below the least quotient, and with no speed; the two other calls. -/
theorem witness_AdapterCallsBypassTheEngine :
    (∃ (s : State) (c : AdapterCall) (rest : List Move), s.moves = .adapter c :: rest ∧ s.busy = true) ∧
    (∃ (s : State) (rest : List Move), s.moves = .adapter (.configure 10 1 0 0) :: rest ∧ s.busy = false ∧
      ¬ (1 = 0 ∨ 10 / (2 * 1) < 5)) ∧
    (∃ (s : State) (rest : List Move), s.moves = .adapter (.configure 9 1 0 0) :: rest ∧ s.busy = false ∧ 9 / (2 * 1) < 5) ∧
    (∃ (s : State) (rest : List Move), s.moves = .adapter (.configure 9 0 0 0) :: rest ∧ s.busy = false) ∧
    State.reset.busy = false :=
  ⟨⟨{ midPoll with moves := [.adapter .enable] }, _, _, rfl, rfl⟩,
    ⟨atRest [.adapter (.configure 10 1 0 0)], _, rfl, rfl, by decide⟩,
    ⟨atRest [.adapter (.configure 9 1 0 0)], _, rfl, rfl, by decide⟩,
    ⟨atRest [.adapter (.configure 9 0 0 0)], _, rfl, rfl⟩, rfl⟩

/-- Claimable, once with the condition of a refusal and once without. -/
theorem witness_ClaimableStepIsRefusedOnlyMidOperation :
    (∃ s : State, s.Claimable ∧ s.busy = true ∧ ∃ c rest, s.moves = .adapter c :: rest) ∧
    (∃ s : State, s.Claimable ∧ s.busy = false ∧ ∃ w n rest, s.moves = .command w n :: rest) :=
  ⟨⟨{ midPoll with moves := [.adapter .disable] }, ⟨by decide, by decide⟩, rfl, _, _, rfl⟩,
    ⟨present 0x30000000#32 3#16 (.refBus .initial), ⟨by decide, by decide⟩, rfl, _, _, _, rfl⟩⟩

/-- Both ends of a wait at the bound 3: no flag in three answers; the flag in the third. -/
theorem witness_PollCountIsExact :
    (∃ (f : CompletionFlag) (s : State) (bs rest ds : List Byte), (∀ x ∈ bs, f.seenIn x = false) ∧
      s.env = .scripted (bs ++ rest) ds ∧ bs.length = s.limit.toNat) ∧
    (∃ (f : CompletionFlag) (s : State) (bs rest ds : List Byte) (b : Byte), (∀ x ∈ bs, f.seenIn x = false) ∧
      s.env = .scripted (bs ++ b :: rest) ds ∧ bs.length < s.limit.toNat ∧ f.seenIn b = true) ∧
    (∃ s : State, s.env = .scripted ([] ++ [0x42#8]) [] ∧ ([] : List Byte).length = s.limit.toNat) :=
  ⟨⟨.wif, { State.reset with limit := 3#16, env := .scripted [0x02#8, 0x82#8, 0x12#8, 0x42#8] [] },
      [0x02#8, 0x82#8, 0x12#8], [0x42#8], [], by decide, rfl, by decide⟩,
    ⟨.rif, { State.reset with limit := 3#16, env := .scripted [0x02#8, 0x42#8, 0x82#8] [] },
      [0x02#8, 0x42#8], [], [], 0x82#8, by decide, rfl, by decide, by decide⟩,
    ⟨{ State.reset with env := .scripted [0x42#8] [] }, rfl, by decide⟩⟩

/-- V71 as a run of the protocol relation: START Ok, then SEND finds the bus lost. -/
theorem witness_EveryProtocolRunIsARunOfTheModel :
    StepsEnd 3#16 (primsOf (.wrreg 0x50#7 0x10#8 0xAB#8)) (.busBusy .busy)
      ([.readStatus 0x01#8, .writeAddr 0xA0#8, .readStatus 0x42#8] ++ [.readStatus 0x03#8]) :=
  .goesOn _ _ _ _ _ _
    (.startOk 0x50#7 0#2 .write 0x01#8 [] 0x42#8 (by decide) (by decide) ⟨by decide, by decide, by decide⟩ (by decide))
    (.fails _ _ _ _ _ (.sendBusBusy 0x10#8 0x03#8 (by decide)) (by decide))

theorem witness_EventBoundsAreReached :
    1 ≤ (1#16 : Count).toNat ∧ (∀ (a : SlaveAddr) (d : DirField), (Instr.start 0x50#7 1#2 = .start a d ∨
      Instr.start 0x50#7 1#2 = .rstart a d) → d = 0#2 ∨ d = 1#2) :=
  ⟨by decide, fun a d h => by rcases h with h | h <;> cases h; exact .inr rfl⟩

/-- Two states with one environment that differ in everything an earlier command leaves. -/
theorem witness_CommandsIgnoreTheEnginesHistory :
    ∃ s s' : State, s.env = s'.env ∧ s.reads = s'.reads ∧ s.limit = s'.limit ∧ s.phase ≠ s'.phase ∧ s.rxByte ≠ s'.rxByte ∧
      s.sample ≠ s'.sample ∧ s.fresh ≠ s'.fresh :=
  ⟨State.reset, { State.reset with phase := .data, rxByte := 0xAB#8, sample := 0x52#8, fresh := true }, rfl, rfl, rfl, by decide,
    by decide, by decide, by decide⟩

theorem witness_CommandFrame :
    (∃ t, exec .stop State.reset = .next t) ∧
    (∃ t, exec (.rdbyte 0x50#7) { State.reset with limit := 3#16, env := .refBus .initial } = .next t ∧
      rspOutcome t.rsp = 0#3) ∧
    (∃ t, exec (.recv .ack) { State.reset with env := .refBus .initial } = .next t ∧ rspOutcome t.rsp = 2#3) :=
  ⟨⟨_, rfl⟩, ⟨_, rfl, by decide⟩, ⟨_, rfl, (answered_respond true (.busBusy .idle) _).2.2.2.2.1⟩⟩

/-- Each of the five, on a memory that holds a byte. -/
theorem witness_NonSendingCommandsLeaveMemory :
    ∃ s : State, s.readMem 0x10 = 0xAB#8 ∧ (∃ t, exec (.start 0x50#7 0#2) s = .next t) ∧
      (∃ t, exec (.rstart 0x50#7 1#2) s = .next t) ∧ (∃ t, exec .stop s = .next t) ∧ (∃ t, exec (.recv .nack) s = .next t) ∧
      ∃ t, exec (.rdbyte 0x50#7) s = .next t :=
  ⟨{ State.reset with env := .refBus reading }, by decide, ⟨_, rfl⟩, ⟨_, rfl⟩, ⟨_, rfl⟩, ⟨_, rfl⟩, ⟨_, rfl⟩⟩

/-- A slave that stores the next byte at 0xFF, and one that takes it as its pointer. -/
theorem witness_SendStoresOnlyAtThePointer :
    (∃ (s t : State) (r : RefBus), s.env = .refBus r ∧ r.wf = true ∧ exec (.send 0x01#8) s = .next t ∧
      r.tick.storeAddr? = some 0xFF) ∧
    (∃ (s t : State) (r : RefBus), s.env = .refBus r ∧ r.wf = true ∧ exec (.send 0x01#8) s = .next t ∧
      r.tick.storeAddr? = none) :=
  ⟨⟨{ State.reset with env := .refBus { opened with first := false, ptr := 0xFF#8 } }, _, _, rfl, by decide, rfl, by decide⟩,
    ⟨{ State.reset with env := .refBus opened }, _, _, rfl, by decide, rfl, by decide⟩⟩

theorem witness_CompositesStoreOnlyAtTheRegister :
    ∃ (s t : State) (r : RefBus), s.env = .refBus r ∧ r.wf = true ∧ exec (.wrreg 0x50#7 0xFF#8 0xAB#8) s = .next t ∧
      t.readMem 0xFF = 0xAB#8 :=
  ⟨{ State.reset with limit := 3#16, env := .refBus .initial }, _, _, rfl, by decide, rfl, by decide⟩

/-- `RefBus` after V32 with what has been on its bus. -/
theorem witness_CommandsPlayWithRefBus :
    ∃ (s : State) (x : { x : RefBus × Wire // x.1.Linked x.2 }), s.env = .refBus x.1.1 ∧ x.1.1.bus = .owner ∧ x.1.2.reading = true :=
  ⟨{ State.reset with env := .refBus reading },
    ⟨⟨reading, ⟨[.start, .sent 0xA1#8 true, .received 0xAB#8], .ours, .none, some ⟨0xA1#8, true, true⟩, true, some 0xAB#8, false⟩⟩, {
      wf := by decide
      owner := by decide
      idle := by decide
      busy := by decide
      stopped := by decide
      pend := trivial
      byte := fun _ h => Option.some.inj h
      last := fun _ h _ => by cases h; decide }⟩, rfl, rfl, rfl⟩

/-! A small adapter that keeps the contract, apart from `RefBus`: a bus with no other participant whose slave answers as it likes and
when it likes. -/

structure Desk where
  wire   : Wire
  wif    : Bool
  rif    : Bool
  rxnack : Bool
  reg    : Byte
  deriving DecidableEq, Repr

def Desk.bus (d : Desk) : BusState := if d.wire.holder = .ours then .owner else .idle

def Desk.status (d : Desk) : Byte := packStatus d.rif d.wif d.rxnack d.bus

/-- The states the desk can be in. -/
structure Desk.Ok (d : Desk) : Prop where
  holder  : d.wire.holder = .ours ∨ d.wire.holder = .free
  stopped : d.wire.stopped = true → d.wire.holder = .free
  flags   : d.wire.holder = .free → d.wif = false ∧ d.rif = false
  last    : ∀ o, d.wire.last = some o → (d.wif = true ∨ (d.rif = true ∧ o.isAddress = true ∧ o.byte.getLsbD 0 = true)) →
    d.rxnack = !o.acked
  byte    : ∀ x, d.wire.byte = some x → d.reg = x

/-- What a move does to the flags and the data register. The start condition is made at the address write. -/
def Desk.Shows (act : Act) (d d' : Desk) : Prop :=
  match act with
  | .engine (.readStatus b) => d' = d ∧ b = d.status
  | .engine (.readData b) => d' = d ∧ b = d.reg
  | .engine (.writeAddr b) =>
    d' = ⟨(d.wire.asked b).started, false, false, d.rxnack, d.reg⟩
  | .engine (.writeData _) => d' = ⟨d'.wire, false, false, d.rxnack, d.reg⟩
  | .engine (.command .none) => d' = d
  | .engine (.command _) => d' = ⟨d'.wire, false, false, d.rxnack, d.reg⟩
  | .time => d' = d
  | .sentOver a =>
    d.wire.holder = .ours ∧
    ((∃ b, d.wire.pending = .address b true ∧ d' = ⟨d.wire.sentOver a, !b.getLsbD 0, b.getLsbD 0, !a, d.reg⟩) ∨
      ∃ b, d.wire.pending = .data b ∧ d' = ⟨d.wire.sentOver a, true, false, !a, d.reg⟩)
  | .readOver x => d.wire.holder = .ours ∧ d' = ⟨d.wire.readOver x, false, true, false, x⟩
  | _ => False

def desk : Adapter where
  State        := { d : Desk // d.Ok }
  move act x y := x.1.wire.Follows x.1.bus act y.1.wire ∧ x.1.wire.Admits act ∧ x.1.Shows act y.1
  status x     := x.1.status
  dataReg x    := x.1.reg
  wire x       := x.1.wire

theorem desk_bus (x : { d : Desk // d.Ok }) : desk.bus x = x.1.bus := by
  cases h : x.1.bus <;> simp [Adapter.bus, desk, Desk.status, h]

theorem desk_flags (x : { d : Desk // d.Ok }) :
    desk.shows .wif x = x.1.wif ∧ desk.shows .rif x = x.1.rif ∧ rxnackOf (desk.status x) = x.1.rxnack := by
  simp [Adapter.shows, desk, Desk.status, CompletionFlag.seenIn]

theorem desk_bus_owner (x : { d : Desk // d.Ok }) : desk.bus x = .owner ↔ x.1.wire.holder = .ours := by
  rw [desk_bus]
  unfold Desk.bus
  split <;> simp_all

theorem desk_bus_idle (x : { d : Desk // d.Ok }) : desk.bus x = .idle ↔ x.1.wire.holder = .free := by
  rw [desk_bus]
  unfold Desk.bus
  have := x.2.holder
  split <;> simp_all

/-- A move of the desk's own is time, or the end of a byte on an owned bus, which stays owned. -/
theorem desk_own {x y : { d : Desk // d.Ok }} {act : Act} (ho : act.own = true) (h : desk.move act x y) :
    (act = .time ∧ y.1 = x.1) ∨
    (x.1.wire.holder = .ours ∧ y.1.wire.holder = .ours ∧
      ((∃ a b, act = .sentOver a ∧ x.1.wire.pending = .address b true ∧
          y.1 = ⟨x.1.wire.sentOver a, !b.getLsbD 0, b.getLsbD 0, !a, x.1.reg⟩) ∨
        (∃ a b, act = .sentOver a ∧ x.1.wire.pending = .data b ∧ y.1 = ⟨x.1.wire.sentOver a, true, false, !a, x.1.reg⟩) ∨
        ∃ v, act = .readOver v ∧ y.1 = ⟨x.1.wire.readOver v, false, true, false, v⟩)) := by
  obtain ⟨_, _, hs⟩ := h
  cases act with
  | time => exact .inl ⟨rfl, hs⟩
  | sentOver a =>
    obtain ⟨hh, ⟨b, hp, hs⟩ | ⟨b, hp, hs⟩⟩ := hs
    · exact .inr ⟨hh, by rw [hs]; simp [Wire.sentOver, hp, hh], .inl ⟨a, b, rfl, hp, hs⟩⟩
    · exact .inr ⟨hh, by rw [hs]; simp [Wire.sentOver, hp, hh], .inr (.inl ⟨a, b, rfl, hp, hs⟩)⟩
  | readOver v =>
    obtain ⟨hh, hs⟩ := hs
    exact .inr ⟨hh, by rw [hs]; simp only [Wire.readOver]; split <;> exact hh, .inr (.inr ⟨v, rfl, hs⟩)⟩
  | engine => cases ho
  | _ => cases hs

/-- An access leaves the flags or clears them. -/
theorem desk_access {x y : { d : Desk // d.Ok }} {ev : Event} (h : desk.move (.engine ev) x y) :
    y.1.rxnack = x.1.rxnack ∧ y.1.reg = x.1.reg ∧ ((y.1.wif = false ∧ y.1.rif = false) ∨ y = x) := by
  obtain ⟨_, _, hs⟩ := h
  cases ev with
  | readStatus => exact ⟨by rw [hs.1], by rw [hs.1], .inr (Subtype.ext hs.1)⟩
  | readData => exact ⟨by rw [hs.1], by rw [hs.1], .inr (Subtype.ext hs.1)⟩
  | writeAddr => have hs : y.1 = _ := hs; rw [hs]; exact ⟨rfl, rfl, .inl ⟨rfl, rfl⟩⟩
  | writeData => have hs : y.1 = _ := hs; rw [hs]; exact ⟨rfl, rfl, .inl ⟨rfl, rfl⟩⟩
  | command c =>
    cases c with
    | none => have hs : y.1 = _ := hs; exact ⟨by rw [hs], by rw [hs], .inr (Subtype.ext hs)⟩
    | _ => have hs : y.1 = _ := hs; rw [hs]; exact ⟨rfl, rfl, .inl ⟨rfl, rfl⟩⟩

theorem desk_starts : desk.AddressStarts where
  completes := by
    intro e e' b g a h hp
    have hp : e.1.wire.pending = _ := hp
    rcases desk_own rfl h with ⟨h, _⟩ | ⟨_, ho, ⟨a', b', h, hp', hs⟩ | ⟨a', b', _, hp', _⟩ | ⟨v, h, _⟩⟩
    · cases h
    · cases h
      rw [hp] at hp'
      cases hp'
      refine ⟨?_, by rw [(desk_flags e').2.2, hs], fun _ => (desk_bus_owner e').2 ho⟩
      cases hb : b.getLsbD 0
      · exact (desk_flags e').1.trans (by rw [hs, hb]; rfl)
      · exact (desk_flags e').2.1.trans (by rw [hs, hb])
    · rw [hp] at hp'
      cases hp'
    · cases h
  firstByte := by
    intro e e' b g x h hp
    rcases desk_own rfl h with ⟨h, _⟩ | ⟨_, ho, ⟨a', b', h, _⟩ | ⟨a', b', h, _⟩ | ⟨v, h, hs⟩⟩
    · cases h
    · cases h
    · cases h
    · exact ⟨(desk_flags e').2.1.trans (by rw [hs]), (desk_flags e').2.2.trans (by rw [hs]),
        fun _ => (desk_bus_owner e').2 ho⟩

theorem desk_rise : desk.FlagsRise where
  wif := by
    intro act e e' h h0 h1
    rw [(desk_flags e).1] at h0
    rw [(desk_flags e').1] at h1
    by_cases ho : act.own = true
    · rcases desk_own ho h with ⟨_, hs⟩ | ⟨_, _, ⟨a, b, hact, hp, hs⟩ | ⟨a, b, hact, hp, _⟩ | ⟨v, _, hs⟩⟩
      · rw [hs, h0] at h1
        cases h1
      · rw [hs] at h1
        exact ⟨a, hact, .inl ⟨b, true, hp, by simpa using h1⟩⟩
      · exact ⟨a, hact, .inr ⟨b, hp⟩⟩
      · rw [hs] at h1
        cases h1
    · cases act with
      | engine ev =>
        rcases (desk_access h).2.2 with hs | hs
        · rw [hs.1] at h1
          cases h1
        · rw [hs, h0] at h1
          cases h1
      | _ => exact absurd rfl ho
  rif := by
    intro act e e' h h0 h1
    rw [(desk_flags e).2.1] at h0
    rw [(desk_flags e').2.1] at h1
    by_cases ho : act.own = true
    · rcases desk_own ho h with ⟨_, hs⟩ | ⟨_, _, ⟨a, b, hact, hp, hs⟩ | ⟨a, b, hact, hp, hs⟩ | ⟨v, hact, hs⟩⟩
      · rw [hs, h0] at h1
        cases h1
      · rw [hs] at h1
        exact .inl ⟨a, b, true, hact, hp, h1⟩
      · rw [hs] at h1
        cases h1
      · exact .inr ⟨v, hact⟩
    · cases act with
      | engine ev =>
        rcases (desk_access h).2.2 with hs | hs
        · rw [hs.2] at h1
          cases h1
        · rw [hs, h0] at h1
          cases h1
      | _ => exact absurd rfl ho

theorem desk_cleared : desk.FlagsCleared where
  byAddress := by
    intro e e1 b h
    have h : e1.1 = _ := h.2.2
    rw [(desk_flags e1).1, (desk_flags e1).2.1, h]
    exact ⟨rfl, rfl⟩
  byData := by
    intro e e1 b h
    have h : e1.1 = _ := h.2.2
    rw [(desk_flags e1).1, h]
  byCommand := by
    intro e e1 c hc h
    rw [(desk_flags e1).1, (desk_flags e1).2.1]
    have h := h.2.2
    cases c with
    | none => exact absurd rfl hc
    | _ => have h : e1.1 = _ := h; rw [h]; exact ⟨rfl, rfl⟩

theorem desk_bus_means : desk.BusMeans where
  idle e h := (desk_bus_idle e).1 h
  owner e h := (desk_bus_owner e).1 h
  busy e h := by
    rw [desk_bus e] at h
    unfold Desk.bus at h
    split at h <;> cases h
  held e h _ := (desk_bus_owner e).2 h
  stays := by
    intro act e e' h ho _ _ hb
    rw [desk_bus_owner e] at hb
    rw [desk_bus_owner e']
    rcases ho with ho | ⟨b, rfl | rfl⟩
    · rcases desk_own ho h with ⟨_, hs⟩ | ⟨_, h', _⟩
      · rw [hs]
        exact hb
      · exact h'
    · rw [show e'.1 = e.1 from h.2.2.1]
      exact hb
    · rw [show e'.1 = e.1 from h.2.2.1]
      exact hb

theorem desk_keeps : desk.Keeps where
  record := ⟨fun _ e _ h => by rw [desk_bus e]; exact h.1, fun _ _ _ h => h.2.1⟩
  pure _ _ _ h := ⟨Subtype.ext h.2.2.1, h.2.2.2⟩
  starts := desk_starts
  rise := desk_rise
  cleared := desk_cleared
  rxnack := {
    valid := by
      intro e o ho hf
      rw [(desk_flags e).1, (desk_flags e).2.1] at hf
      rw [(desk_flags e).2.2]
      exact e.2.last o ho hf
    dataOver := by
      intro e e' b a h hp
      have hp : e.1.wire.pending = _ := hp
      rw [(desk_flags e').1, (desk_flags e').2.2]
      rcases desk_own rfl h with ⟨h, _⟩ | ⟨_, _, ⟨a', b', _, hp', _⟩ | ⟨a', b', h, _, hs⟩ | ⟨v, h, _⟩⟩
      · cases h
      · rw [hp] at hp'
        cases hp'
      · cases h
        rw [hs]
        exact ⟨rfl, rfl⟩
      · cases h }
  bus := desk_bus_means
  stop := {
    released := fun e h => (desk_bus_idle e).2 (e.2.stopped h)
    harmless := by
      intro e e1 hb h
      have hs : e1.1 = _ := h.2.2
      have hw : e1.1.wire = e.1.wire := by
        have hf := h.1
        rw [desk_bus e] at hb
        simpa [Wire.Follows, hb] using hf
      obtain ⟨hwf, hrf⟩ := e.2.flags (e.2.holder.resolve_left fun ho => hb ((desk_bus_owner e).2 ho))
      obtain ⟨hx, hr, _⟩ := desk_access h
      have hfl : e1.1.wif = false ∧ e1.1.rif = false := by rw [hs]; exact ⟨rfl, rfl⟩
      refine ⟨?_, hr⟩
      show Desk.status e1.1 = Desk.status e.1
      simp only [Desk.status, Desk.bus, hw, hx, hwf, hrf, hfl] }
  receives := {
    ready := by
      intro e e' x h
      rcases desk_own rfl h with ⟨h, _⟩ | ⟨_, ho, ⟨a', b', h, _⟩ | ⟨a', b', h, _⟩ | ⟨v, h, hs⟩⟩
      · cases h
      · cases h
      · cases h
      · exact (desk_flags e').2.1.trans (by rw [hs])
    holds := fun e x h => e.2.byte x h
    answers := fun _ _ _ h => h.2.2.2 }

theorem desk_alone : desk.NoOtherParticipant where
  noStart _ _ h := h.2.2
  idleStays := by
    intro act e e' ho h hb
    rw [desk_bus_idle e] at hb
    rw [desk_bus_idle e']
    rcases desk_own ho h with ⟨_, hs⟩ | ⟨h', _⟩
    · exact .inl (by rw [hs]; exact hb)
    · rw [hb] at h'
      cases h'

theorem desk_sound : desk.NoFault := ⟨fun _ _ h => h.2.2, fun _ _ h => h.2.2⟩

/-- A byte written on the desk, its start condition made, and what it leaves when it is over. -/
def Desk.address (b : Byte) (d : Desk) : Desk := ⟨(d.wire.asked b).started, false, false, d.rxnack, d.reg⟩
def Desk.over (a : Bool) (b : Byte) (d : Desk) : Desk := ⟨d.wire.sentOver a, !b.getLsbD 0, b.getLsbD 0, !a, d.reg⟩
def Desk.fetched (x : Byte) (d : Desk) : Desk := ⟨d.wire.readOver x, false, true, false, x⟩
def Desk.data (b : Byte) (d : Desk) : Desk := ⟨d.wire.handed b, false, false, d.rxnack, d.reg⟩
def Desk.dataOver (a : Bool) (d : Desk) : Desk := ⟨d.wire.sentOver a, true, false, !a, d.reg⟩
def Desk.release (before : List BusItem) (d : Desk) : Desk := ⟨d.wire.released before, false, false, d.rxnack, d.reg⟩

theorem ok_address {d : Desk} (b : Byte) : (d.address b).Ok where
  holder := .inl rfl
  stopped h := by cases h
  flags h := by cases h
  last o h := by cases h
  byte x h := by cases h

theorem ok_over {d : Desk} {a : Bool} {b : Byte} (hp : d.wire.pending = .address b true) (hh : d.wire.holder = .ours)
    (hs : d.wire.stopped = false) (hb : d.wire.byte = none) : (d.over a b).Ok := by
  refine ⟨?_, ?_, ?_, ?_, ?_⟩ <;> simp [Desk.over, Wire.sentOver, hp, hh, hs, hb]

theorem ok_fetched {d : Desk} {b x : Byte} (hp : d.wire.pending = .address b true) (hh : d.wire.holder = .ours)
    (hs : d.wire.stopped = false) : (d.fetched x).Ok := by
  refine ⟨?_, ?_, ?_, ?_, ?_⟩ <;> simp [Desk.fetched, Wire.readOver, hp, hh, hs]

theorem ok_data {d : Desk} {b : Byte} (hh : d.wire.holder = .ours) (hs : d.wire.stopped = false) : (d.data b).Ok := by
  refine ⟨?_, ?_, ?_, ?_, ?_⟩ <;> simp [Desk.data, Wire.handed, hh, hs]

theorem ok_dataOver {d : Desk} {a : Bool} {b : Byte} (hp : d.wire.pending = .data b) (hh : d.wire.holder = .ours)
    (hs : d.wire.stopped = false) (hb : d.wire.byte = none) : (d.dataOver a).Ok := by
  refine ⟨?_, ?_, ?_, ?_, ?_⟩ <;> simp [Desk.dataOver, Wire.sentOver, hp, hh, hs, hb]

theorem ok_release {d : Desk} {l : List BusItem} : (d.release l).Ok := by
  refine ⟨?_, ?_, ?_, ?_, ?_⟩ <;> simp [Desk.release, Wire.released]

theorem desk_ours_bus {d : Desk} (h : d.wire.holder = .ours) : d.bus = .owner := if_pos h

theorem desk_read (e : { d : Desk // d.Ok }) : desk.move (.engine (.readStatus e.1.status)) e e :=
  ⟨rfl, trivial, rfl, rfl⟩

theorem desk_write (e : { d : Desk // d.Ok }) (b : Byte) :
    desk.move (.engine (.writeAddr b)) e ⟨e.1.address b, ok_address b⟩ := by
  refine ⟨?_, trivial, rfl⟩
  show ite (e.1.bus = .idle ∨ e.1.bus = .owner) _ _
  refine (if_pos ?_).mpr (.inr rfl)
  unfold Desk.bus
  split <;> simp

theorem desk_stop (e : { d : Desk // d.Ok }) (h : e.1.wire.holder = .ours) :
    desk.move (.engine (.command .stop)) e ⟨e.1.release [], ok_release⟩ :=
  ⟨(if_pos (desk_ours_bus h)).mpr rfl, trivial, rfl⟩

/-- An address byte written, and a status read when it is over: not acknowledged, or acknowledged with direction Write, or
acknowledged with direction Read and the slave's byte `x` there. -/
theorem desk_address (e : { d : Desk // d.Ok }) (b x : Byte) :
    (∃ e' : { d : Desk // d.Ok }, desk.Plays e
      [.readStatus e.1.status, .writeAddr b, .readStatus (packStatus (b.getLsbD 0) (!b.getLsbD 0) true .owner)] e' ∧
      e'.1 = (e.1.address b).over false b) ∧
    (b.getLsbD 0 = false → ∃ e' : { d : Desk // d.Ok }, desk.Plays e
      [.readStatus e.1.status, .writeAddr b, .readStatus 0x42#8] e' ∧ e'.1 = (e.1.address b).over true b) ∧
    (b.getLsbD 0 = true → ∃ e' : { d : Desk // d.Ok }, desk.Plays e
      [.readStatus e.1.status, .writeAddr b, .readStatus 0x82#8] e' ∧ e'.1 = (e.1.address b).fetched x) := by
  have key : ∀ (act : Act) (e' : { d : Desk // d.Ok }), act.own = true → desk.move act ⟨e.1.address b, ok_address b⟩ e' →
      desk.Plays e [.readStatus e.1.status, .writeAddr b, .readStatus e'.1.status] e' := fun act e' ho hm =>
    .event (A := desk) e e e' _ _ (desk_read e) (.event (A := desk) e ⟨e.1.address b, ok_address b⟩ e' _ _ (desk_write e b)
      (.own (A := desk) act _ e' e' _ ho hm (.event (A := desk) e' e' e' _ _ (desk_read e') (.nil (A := desk) e'))))
  refine ⟨⟨⟨_, ok_over rfl rfl rfl rfl⟩, ?_, rfl⟩, fun hb => ⟨⟨_, ok_over rfl rfl rfl rfl⟩, ?_, rfl⟩,
    fun hb => ⟨⟨_, ok_fetched rfl rfl rfl⟩, ?_, rfl⟩⟩
  · exact key (.sentOver false) ⟨(e.1.address b).over false b, _⟩ rfl
      ⟨rfl, .inl ⟨b, rfl, .inr rfl⟩, rfl, .inl ⟨b, rfl, rfl⟩⟩
  · have := key (.sentOver true) ⟨(e.1.address b).over true b, ok_over rfl rfl rfl rfl⟩ rfl
      ⟨rfl, .inl ⟨b, rfl, .inl hb⟩, rfl, .inl ⟨b, rfl, rfl⟩⟩
    rwa [show Desk.status ((e.1.address b).over true b) = 0x42#8 by
      show packStatus (b.getLsbD 0) (!b.getLsbD 0) false .owner = _; rw [hb]; decide] at this
  · have := key (.readOver x) ⟨(e.1.address b).fetched x, ok_fetched rfl rfl rfl⟩ rfl ⟨rfl, .inl ⟨b, rfl, hb⟩, rfl, rfl⟩
    rwa [show Desk.status ((e.1.address b).fetched x) = 0x82#8 by
      show packStatus true false false .owner = _; decide] at this

/-- The desk with a free bus. -/
def deskIdle : { d : Desk // d.Ok } :=
  ⟨⟨⟨[], .free, .none, none, false, none, false⟩, false, false, false, 0x00#8⟩,
    ⟨.inr rfl, fun _ => rfl, fun _ => ⟨rfl, rfl⟩, (fun _ h => nomatch h), (fun _ h => nomatch h)⟩⟩

/-- V20's shape on the desk, acknowledged and not. -/
theorem witness_StartLeavesTheBusOwnedOrIdle :
    ∃ A : Adapter, A.Keeps ∧ A.NoOtherParticipant ∧ A.NoFault ∧
      (∃ (s t : State) (es : List Event) (e e' : A.State), exec (.start 0x50#7 0#2) s = .next t ∧ t.trace = s.trace ++ es ∧
        A.Plays e es e' ∧ rspOutcome t.rsp = 0#3) ∧
      (∃ (s t : State) (es : List Event) (e e' : A.State), exec (.start 0x50#7 0#2) s = .next t ∧ t.trace = s.trace ++ es ∧
        A.Plays e es e' ∧ rspOutcome t.rsp = 1#3) := by
  obtain ⟨⟨n, hn, hn'⟩, hok, _⟩ := desk_address deskIdle 0xA0#8 0xAB#8
  obtain ⟨o, ho, _⟩ := hok rfl
  refine ⟨desk, desk_keeps, desk_alone, desk_sound,
    ⟨{ State.reset with limit := 1#16, env := .scripted [0x01#8, 0x42#8] [] }, _, _, deskIdle, o, rfl, ?_, ho,
      (answered_respond false .ok _).2.2.2.2.1⟩,
    ⟨{ State.reset with limit := 1#16, env := .scripted [0x01#8, 0x52#8] [] }, _,
      [.readStatus 0x01#8, .writeAddr 0xA0#8, .readStatus 0x52#8] ++ [.command .stop], deskIdle,
      ⟨n.1.release [], ok_release⟩, rfl, ?_, ?_, (answered_respond false .nack _).2.2.2.2.1⟩⟩
  · rfl
  · rfl
  · exact hn.append (.event (A := desk) n ⟨n.1.release [], ok_release⟩ _ _ _ (desk_stop n (by rw [hn']; rfl)) (.nil (A := desk) _))

/-- The desk, owned after an acknowledged address byte for writing, and for reading with 0xAB ready. -/
def deskWriting : { d : Desk // d.Ok } := ⟨(deskIdle.1.address 0xA0#8).over true 0xA0#8, ok_over rfl rfl rfl rfl⟩
def deskReading : { d : Desk // d.Ok } := ⟨(deskIdle.1.address 0xA1#8).fetched 0xAB#8, ok_fetched rfl rfl rfl⟩

/-- V34's shape on the desk, acknowledged and not. -/
theorem witness_RstartKeepsTheBus :
    ∃ A : Adapter, A.Keeps ∧ A.NoFault ∧
      (∃ (s t : State) (es : List Event) (e e' : A.State), exec (.rstart 0x50#7 0#2) s = .next t ∧ t.trace = s.trace ++ es ∧
        A.Plays e es e' ∧ rspOutcome t.rsp = 0#3) ∧
      (∃ (s t : State) (es : List Event) (e e' : A.State), exec (.rstart 0x50#7 0#2) s = .next t ∧ t.trace = s.trace ++ es ∧
        A.Plays e es e' ∧ rspOutcome t.rsp = 1#3) := by
  obtain ⟨⟨n, hn, _⟩, hok, _⟩ := desk_address deskWriting 0xA0#8 0xAB#8
  obtain ⟨o, ho, _⟩ := hok rfl
  refine ⟨desk, desk_keeps, desk_sound,
    ⟨{ State.reset with limit := 1#16, env := .scripted [0x42#8, 0x42#8] [] }, _, _, deskWriting, o, rfl, ?_, ho,
      (answered_respond false .ok _).2.2.2.2.1⟩,
    ⟨{ State.reset with limit := 1#16, env := .scripted [0x42#8, 0x52#8] [] }, _, _, deskWriting, n, rfl, ?_, hn,
      (answered_respond false .nack _).2.2.2.2.1⟩⟩
  · rfl
  · rfl

/-- A byte sent on the desk and acknowledged, and not. -/
theorem witness_SendKeepsTheBus :
    ∃ A : Adapter, A.Keeps ∧ A.NoFault ∧
      (∃ (s t : State) (es : List Event) (e e' : A.State), exec (.send 0x10#8) s = .next t ∧ t.trace = s.trace ++ es ∧
        A.Plays e es e' ∧ rspOutcome t.rsp = 0#3) ∧
      (∃ (s t : State) (es : List Event) (e e' : A.State), exec (.send 0x10#8) s = .next t ∧ t.trace = s.trace ++ es ∧
        A.Plays e es e' ∧ rspOutcome t.rsp = 1#3) := by
  have key : ∀ e' a, e' = (⟨(deskWriting.1.data 0x10#8).dataOver a, ok_dataOver rfl rfl rfl rfl⟩ : { d : Desk // d.Ok }) →
      desk.Plays deskWriting [.readStatus deskWriting.1.status, .writeData 0x10#8, .readStatus e'.1.status] e' := fun e' a he =>
    .event (A := desk) deskWriting deskWriting e' _ _ (desk_read deskWriting)
      (.event (A := desk) deskWriting ⟨deskWriting.1.data 0x10#8, ok_data rfl rfl⟩ e' _ _ ⟨rfl, trivial, rfl⟩
        (.own (A := desk) (.sentOver a) _ e' e' _ rfl
          (he ▸ ⟨rfl, .inr ⟨_, rfl⟩, rfl, .inr ⟨_, rfl, rfl⟩⟩)
          (.event (A := desk) e' e' e' _ _ (desk_read e') (.nil (A := desk) e'))))
  refine ⟨desk, desk_keeps, desk_sound,
    ⟨{ State.reset with limit := 1#16, env := .scripted [0x42#8, 0x42#8] [] }, _, _, _, _, rfl, ?_, key _ true rfl,
      (answered_respond false .ok _).2.2.2.2.1⟩,
    ⟨{ State.reset with limit := 1#16, env := .scripted [0x42#8, 0x52#8] [] }, _, _, _, _, rfl, ?_, key _ false rfl,
      (answered_respond false .nack _).2.2.2.2.1⟩⟩
  · rfl
  · rfl

/-- A STOP on the owned desk, and a last read on it. -/
theorem witness_StopAndLastReadReleaseTheBus :
    ∃ A : Adapter, A.Keeps ∧ A.NoOtherParticipant ∧ A.NoFault ∧
      (∃ (s t : State) (es : List Event) (e e' : A.State), t.trace = s.trace ++ es ∧ A.Plays e es e' ∧
        exec .stop s = .next t ∧ A.bus e = .owner) ∧
      (∃ (s t : State) (es : List Event) (e e' : A.State), t.trace = s.trace ++ es ∧ A.Plays e es e' ∧
        exec (.recv .nack) s = .next t ∧ rspOutcome t.rsp = 0#3) := by
  have read := desk_read deskReading
  refine ⟨desk, desk_keeps, desk_alone, desk_sound,
    ⟨State.reset, (stopStep State.reset).2.respond false .ok, [.command .stop], deskWriting,
      ⟨deskWriting.1.release [], ok_release⟩, rfl, ?_, rfl, rfl⟩,
    ⟨{ State.reset with limit := 1#16, env := .scripted [0x82#8, 0x82#8] [0xAB#8] }, _,
      [.readStatus 0x82#8, .readStatus 0x82#8, .readData 0xAB#8, .command .nackAndStop], deskReading,
      ⟨deskReading.1.release [.nack], ok_release⟩, ?_, ?_, rfl, by decide⟩⟩
  · exact .event (A := desk) _ _ _ _ _ (desk_stop deskWriting rfl) (.nil (A := desk) _)
  · rfl
  · exact .event (A := desk) _ _ _ _ _ read (.event (A := desk) _ _ _ _ _ read
      (.event (A := desk) deskReading deskReading _ _ _ ⟨rfl, trivial, rfl, rfl⟩
        (.event (A := desk) deskReading ⟨deskReading.1.release [.nack], ok_release⟩ _ _ _ ⟨rfl, trivial, rfl⟩
          (.nil (A := desk) _))))

/-- A START that finds the bus owned, and one with no legal direction. -/
theorem witness_FailedChecksTouchNothing :
    ∃ A : Adapter,
      (∃ (s t : State) (es : List Event) (e e' : A.State), exec (.start 0x50#7 0#2) s = .next t ∧ t.trace = s.trace ++ es ∧
        A.Plays e es e' ∧ rspOutcome t.rsp = 2#3) ∧
      (∃ (s t : State) (es : List Event) (e e' : A.State), exec (.start 0x50#7 2#2) s = .next t ∧ t.trace = s.trace ++ es ∧
        A.Plays e es e' ∧ rspOutcome t.rsp = 3#3) :=
  ⟨desk,
    ⟨{ State.reset with env := .scripted [0x42#8] [] }, _, [.readStatus 0x42#8], deskWriting, deskWriting, rfl, rfl,
      .event (A := desk) _ _ _ _ _ (desk_read deskWriting) (.nil (A := desk) _),
      (answered_respond false (.busBusy .owner) _).2.2.2.2.1⟩,
    ⟨State.reset, _, [], deskIdle, deskIdle, rfl, rfl, .nil (A := desk) _,
      (answered_respond false .invalidDirection _).2.2.2.2.1⟩⟩

/-- V22's, V20's and V21's shapes on the desk: the address byte not acknowledged, and acknowledged with each direction. -/
theorem witness_StartPutsItsAddressOnTheBus :
    ∃ A : Adapter, A.Keeps ∧ A.NoOtherParticipant ∧ A.NoFault ∧ ∃ e : A.State, (A.wire e).pending = .none ∧
      direction? 0#2 = some .write ∧ direction? 1#2 = some .read ∧
      (∃ (s t : State) (es : List Event) (e' : A.State), exec (.start 0x50#7 0#2) s = .next t ∧ t.trace = s.trace ++ es ∧
        A.Plays e es e' ∧ rspOutcome t.rsp = 1#3) ∧
      (∃ (s t : State) (es : List Event) (e' : A.State), exec (.start 0x50#7 0#2) s = .next t ∧ t.trace = s.trace ++ es ∧
        A.Plays e es e' ∧ rspOutcome t.rsp = 0#3) ∧
      (∃ (s t : State) (es : List Event) (e' : A.State), exec (.start 0x50#7 1#2) s = .next t ∧ t.trace = s.trace ++ es ∧
        A.Plays e es e' ∧ rspOutcome t.rsp = 0#3) := by
  obtain ⟨⟨n, hn, hn'⟩, hok, _⟩ := desk_address deskIdle 0xA0#8 0xAB#8
  obtain ⟨o, ho, _⟩ := hok rfl
  obtain ⟨r, hr, _⟩ := (desk_address deskIdle 0xA1#8 0xAB#8).2.2 rfl
  refine ⟨desk, desk_keeps, desk_alone, desk_sound, deskIdle, rfl, rfl, rfl,
    ⟨{ State.reset with limit := 1#16, env := .scripted [0x01#8, 0x52#8] [] }, _,
      [.readStatus 0x01#8, .writeAddr 0xA0#8, .readStatus 0x52#8] ++ [.command .stop],
      ⟨n.1.release [], ok_release⟩, rfl, ?_, ?_, (answered_respond false .nack _).2.2.2.2.1⟩,
    ⟨{ State.reset with limit := 1#16, env := .scripted [0x01#8, 0x42#8] [] }, _, _, o, rfl, ?_, ho,
      (answered_respond false .ok _).2.2.2.2.1⟩,
    ⟨{ State.reset with limit := 1#16, env := .scripted [0x01#8, 0x82#8] [] }, _, _, r, rfl, ?_, hr,
      (answered_respond false .ok _).2.2.2.2.1⟩⟩
  · rfl
  · exact hn.append (.event (A := desk) n ⟨n.1.release [], ok_release⟩ _ _ _ (desk_stop n (by rw [hn']; rfl)) (.nil (A := desk) _))
  · rfl
  · rfl

theorem witness_ReadAfterTheLastReadFails :
    ∃ (s t : State) (r : RefBus), s.env = .refBus r ∧ r.wf = true ∧ exec (.recv .nack) s = .next t ∧ rspOutcome t.rsp = 0#3 :=
  ⟨{ State.reset with limit := 1#16, env := .refBus reading }, _, reading, rfl, by decide, rfl, by decide⟩

/-- The slave answers in the last iteration of the bound. -/
theorem witness_WriteThenReadBack :
    ∃ (s : State) (r : RefBus) (k : Nat), s.env = .refBus r ∧ r.wf = true ∧ r.bus = .idle ∧ r.lat = some k ∧
      k + 1 = s.limit.toNat ∧ 0 < k :=
  ⟨{ State.reset with limit := 3#16, env := .refBus { RefBus.initial with lat := some 2 } }, _, 2, rfl, by decide, rfl, rfl,
    by decide, by decide⟩

theorem witness_EventStepsAgreeWithTheCommand :
    decode 0x875010AB#32 = .ok (.wrreg 0x50#7 0x10#8 0xAB#8) ∧ (atRest []).phase.atRest = true := by decide

theorem accepted_inv {w : Word} {i : Instr} {r : RefBus} (hd : decode w = .ok i) (hr : r.wf = true) (n : Count) :
    (accepted w n r).Inv :=
  inv_accept (s := { State.reset with env := .refBus r })
    ⟨(by show (0#16) ≤ 0#16; decide), fun h => (by cases h), fun _ => ⟨rfl, rfl⟩, fun _ => rfl, fun h => (by cases h), fun h => (by cases h),
      fun h => (by cases h), ⟨(by show rspWellFormed 0x0000#16 = true; decide), fun h => (by cases h)⟩, List.not_mem_nil, ⟨hr, fun _ h => (by cases h)⟩⟩ rfl hd n

/-- Operations at a point where the next step is each of those the clauses speak of: in V57 the address write, the sample that shows the
flag in `ADDRESS`, the check of a step in `ACKCHECK`, RECV's wait, the data read, nack-and-stop and the end; in V40 the data write and
SEND's wait; in V46 RECV's check and continue-receive; in V22 the stop; in V12 a sample without the flag. -/
theorem witness_PhaseFollowsTheTransitionTable :
    (∀ n, (runEngine n (accepted 0xB0500000#32 1000#16 .initial)).Inv) ∧
    (∀ n, (runEngine n (accepted 0x40000010#32 1000#16 opened)).Inv) ∧
    (∀ n, (runEngine n (accepted 0x50000000#32 1000#16 reading)).Inv) ∧
    (∀ n, (runEngine n (accepted 0x10510000#32 1000#16 .initial)).Inv) ∧
    (∀ n, (runEngine n (accepted 0xB0500000#32 2#16 { RefBus.initial with lat := some 3 })).Inv) ∧
    ([0, 1, 2, 3, 4, 5, 6, 7].map fun n =>
        let s := runEngine n (accepted 0xB0500000#32 1000#16 .initial)
        (s.busy, s.pos, (engineStep s).access)) =
      [(true, .begin, some (.readStatus 0x01#8)), (true, .write, some (.writeAddr 0xA1#8)), (true, .poll, some (.readStatus 0x82#8)),
        (true, .ackCheck, some (.readStatus 0x82#8)), (true, .poll, some (.readStatus 0x82#8)), (true, .dataRead, some (.readData 0x00#8)),
        (true, .receiveCommand, some (.command .nackAndStop)), (true, .done .ok, none)] ∧
    ([0, 1, 2].map fun n =>
        let s := runEngine n (accepted 0x40000010#32 1000#16 opened)
        (s.busy, s.pos, (engineStep s).access)) =
      [(true, .begin, some (.readStatus 0x42#8)), (true, .write, some (.writeData 0x10#8)), (true, .poll, some (.readStatus 0x42#8))] ∧
    ([0, 3].map fun n =>
        let s := runEngine n (accepted 0x50000000#32 1000#16 reading)
        (s.busy, s.pos, (engineStep s).access)) =
      [(true, .begin, some (.readStatus 0x82#8)), (true, .receiveCommand, some (.command .continueReceive))] ∧
    (engineStep (runEngine 3 (accepted 0x10510000#32 1000#16 .initial))).access = some (.command .stop) ∧
    (engineStep (runEngine 2 (accepted 0xB0500000#32 2#16 { RefBus.initial with lat := some 3 }))).access =
      some (.readStatus 0x02#8) :=
  ⟨fun n => inv_run (accepted_inv (i := .rdbyte 0x50#7) (by decide) (by decide) _) n,
    fun n => inv_run (accepted_inv (i := .send 0x10#8) (by decide) (by decide) _) n,
    fun n => inv_run (accepted_inv (i := .recv .ack) (by decide) (by decide) _) n,
    fun n => inv_run (accepted_inv (i := .start 0x51#7 0#2) (by decide) (by decide) _) n,
    fun n => inv_run (accepted_inv (i := .rdbyte 0x50#7) (by decide) (by decide) _) n,
    by decide, by decide, by decide, by decide, by decide⟩

theorem witness_RunningOperationEnds : ∃ s : State, s.Inv ∧ s.busy = true := ⟨midPoll, midPoll_inv, rfl⟩

end Sys2Proof.Tests
end

section
/-!
The reset row of 10_state.md R32: which steps reset the engine, and what the state after one holds.
-/

namespace Sys2Proof.Machine

/-- R17, R32: the engine makes no access at a reset edge. -/
@[simp] theorem State.resetEngine_strobes (s : State) :
    s.resetEngine.strobes = ⟨false, false, false, false, false, none, none⟩ := rfl

/-- Reset wins at a clock edge (R32, R141). -/
theorem clockEdge_of_rst {s : State} (h : s.pins.rst = true) : clockEdge s = s.resetEngine := if_pos h

/-- With no move prepared, the level standing on the reset pin resets the engine. -/
theorem step_of_standing_rst {s : State} (hm : s.moves = []) (hr : s.pins.rst = true) :
    step s = .next s.resetEngine := by
  simp only [step, hm, clockEdge_of_rst hr]

/-- An edge that brings `rst` = 1 resets the engine, the move used up and the port at the levels it brought. -/
theorem step_of_edge_rst {s : State} {p : Pins} {rest : List Move} (hm : s.moves = .edge p :: rest) (hr : p.rst = true) :
    step s = .next ({ s with moves := rest, pins := p } : State).resetEngine := by
  have hedge := clockEdge_of_rst (s := { s with moves := rest, pins := p }) hr
  simp only [step, hm, hedge]

/-- Either way a reset arrives, the step resets the engine from a state with the same environment and configuration: all
the move has done before is to set the inputs. -/
theorem step_eq_resetEngine {s : State}
    (h : (∃ p rest, s.moves = .edge p :: rest ∧ p.rst = true) ∨ (s.moves = [] ∧ s.pins.rst = true)) :
    ∃ u : State, step s = .next u.resetEngine ∧ u.env = s.env ∧ u.cfg = s.cfg := by
  obtain ⟨p, rest, hm, hr⟩ | ⟨hm, hr⟩ := h
  · exact ⟨_, step_of_edge_rst hm hr, rfl, rfl⟩
  · exact ⟨s, step_of_standing_rst hm hr, rfl, rfl⟩

/-- Settles O6: the step is `resetEngine` from a state that differs from `s` in its inputs only, and the laws of
`resetEngine` give each register of R32's table. -/
theorem resetEdgeFromAnyState : Obligations.ResetEdgeFromAnyState := by
  intro s h
  obtain ⟨u, hstep, henv, hcfg⟩ := step_eq_resetEngine h
  refine ⟨u.resetEngine, hstep, ?_⟩
  simp [henv, hcfg, Latches.reset]

end Sys2Proof.Machine
end

section
/-!
The illegal command words of 30_encoding.md R73 and R74: what the decoder refuses, branch by branch.
-/

namespace Sys2Proof

/-- The seven opcodes of R74 that name no command. -/
def reservedOpcodes : List (BitVec 4) := [0x0#4, 0x6#4, 0x7#4, 0xC#4, 0xD#4, 0xE#4, 0xF#4]

/-- The reserved opcodes and the nine opcodes that `decodeOp` has an arm for make up the sixteen values of `op`. -/
theorem mem_reservedOpcodes_iff (op : BitVec 4) :
    op ∈ reservedOpcodes ↔ op.toNat ∉ [0x1, 0x2, 0x3, 0x4, 0x5, 0x8, 0x9, 0xA, 0xB] := by
  revert op
  decide

/-- `decodeOp` refuses a word by its opcode alone (R68, R74). -/
theorem decodeOp_refuses_iff (w : Word) : (∀ i, decodeOp w ≠ .ok i) ↔ fieldOp w ∈ reservedOpcodes := by
  rw [mem_reservedOpcodes_iff]
  unfold decodeOp
  split
  case h_10 => simp_all -- no arm has the opcode: the word is refused
  all_goals next hop => simp [hop] -- one of the nine arms answers with a command

/-- `decode` refuses a word for one of its reserved bits, or else where `decodeOp` does (R73, R80). -/
theorem decode_refuses_iff (w : Word) :
    (∀ i, decode w ≠ .ok i) ↔ fieldZ1 w = 1#1 ∨ fieldZ0 w = 1#1 ∨ ∀ i, decodeOp w ≠ .ok i := by
  unfold decode
  split
  next hz1 => simp [hz1]
  next hz1 =>
    split
    next hz0 => simp [hz0]
    next hz0 => simp [hz1, hz0]

/-- A field of one bit is 1 when that bit of the word is. -/
theorem extractLsb'_one_eq_one_iff (w : Word) (n : Nat) : w.extractLsb' n 1 = 1#1 ↔ w.getLsbD n = true := by
  simp [BitVec.eq_of_getLsbD_eq_iff]

/-- Settles O2: the branches of `decode` are the reserved bits 27 and 23 and then `op`, whose refusing values are those
outside the nine arms of `decodeOp`. -/
theorem refusedWordsAreTheReservedOnes : Obligations.RefusedWordsAreTheReservedOnes := by
  intro w
  rw [decode_refuses_iff, decodeOp_refuses_iff, fieldZ1, fieldZ0, extractLsb'_one_eq_one_iff, extractLsb'_one_eq_one_iff]
  rfl

end Sys2Proof
end

section
/-!
SEND (42_byte_transfer.md R108): the ends of its step, seen through the response that the command gives.
-/

namespace Sys2Proof.Machine

/-- The sample a wait leaves is the last one it read. -/
@[simp] theorem lastSample?_statusReads (bs : List Byte) : lastSample? (statusReads bs) = bs.getLast? := by
  simp [lastSample?, statusReads, List.filterMap_map]

/-- The response to a step leaves the events as the step made them (R127). -/
theorem Did.ran_respond {s t : State} {es : List Event} {p : Phase} {f : Bool} {y : Byte} (h : Did s t es p f y)
    (byte : Bool) (o : TxOutcome) : Ran s (t.respond byte o) es := h.ran.congr rfl rfl rfl rfl rfl rfl

/-- The response to a step, seen from the state before it (R36). -/
theorem Did.answered {s t : State} {es : List Event} {p : Phase} {f : Bool} {y : Byte} (h : Did s t es p f y)
    (byte : Bool) (o : TxOutcome) : Answered s (t.respond byte o) o (byte && decide (o = .ok)) := by
  obtain ⟨h1, h2, h3, hresp, h5⟩ := answered_respond byte o t
  exact ⟨h1, h2, h3, by rw [hresp, h.kept.responses], h5⟩

/-- A step that ends in a wait leaves in `S` the last sample of the wait, or, where the wait read nothing (R90), that of the
ownership check. -/
theorem Did.sample_of_wait {s t : State} {b0 x : Byte} {bs : List Byte} {p : Phase} {f : Bool} {y : Byte}
    (h : Did s t (.readStatus b0 :: .writeData x :: statusReads bs) p f y) : t.sample = bs.getLast?.getD b0 := by
  simp [h.sample, lastSample?_cons]

/-- A wait that sees the flag within `LIMIT` iterations counts them in `poll_cnt` without wrapping (R89). -/
theorem WaitSees.toNat_count {f : CompletionFlag} {limit : Count} {bs : List Byte} {b : Byte}
    (h : WaitSees f limit bs b) : (BitVec.ofNat 16 (bs.length + 1)).toNat = bs.length + 1 := by
  have hlen := h.1
  have hlimit := limit.isLt
  rw [BitVec.toNat_ofNat, Nat.mod_eq_of_lt (by omega)]

/-- SEND is its one step, answered without a byte (R108). -/
theorem exec_send (x : Byte) (s : State) : exec (.send x) s = .next (State.finish false (sendStep x s)) := rfl

/-- Settles O22: the ends of the step SEND are the ends of the command. After the write the wait expired or saw the flag;
`S` is then the last sample it read, and the acknowledgment in that sample tells Nack from Ok. -/
theorem sendEndsAsItsRuleSays : Obligations.SendEndsAsItsRuleSays := by
  intro x s
  rw [exec_send]
  have hends := sendStep_spec x s
  generalize sendStep x s = r at hends
  cases hends with
  | busBusy t b hb hsample hdid hcnt =>
    exact ⟨_, _, rfl, hdid.ran_respond _ _, .inl ⟨b, hb, rfl, hdid.answered _ _, hdid.phase, hcnt, hsample⟩⟩
  | expired t b0 bs hb hw hdid hcnt =>
    exact ⟨_, _, rfl, hdid.ran_respond _ _,
      .inr (.inl ⟨b0, bs, hb, hw, rfl, hdid.answered _ _, hdid.phase, hcnt, hdid.sample_of_wait⟩)⟩
  | acked t b0 bs b hb hw hack hdid hcnt
  | nack t b0 bs b hb hw hack hdid hcnt =>
    refine ⟨_, _, rfl, hdid.ran_respond _ _, .inr (.inr ⟨b0, bs, b, hb, hw, rfl, ?_, hdid.phase, ?_, ?_⟩)⟩
    · rw [hack]
      exact hdid.answered _ _
    · exact hcnt ▸ hw.toNat_count
    · exact hdid.sample_of_wait.trans (by simp)

end Sys2Proof.Machine
end

section
/-!
The command word (30_encoding.md R67 to R75): a word is its fields, the decoder reads the opcode and then the operands at
their places, and the rows of the opcode map say the same by mask and match.
-/

namespace Sys2Proof

/-- The fields of R67 make up the whole word. -/
theorem word_ext {w v : Word} (hop : fieldOp w = fieldOp v) (hz1 : fieldZ1 w = fieldZ1 v) (hap : fieldAp w = fieldAp v)
    (hdir : fieldDir w = fieldDir v) (hz0 : fieldZ0 w = fieldZ0 v) (haddr : fieldAddr w = fieldAddr v)
    (hreg : fieldReg w = fieldReg v) (hdata : fieldData w = fieldData v) : w = v := by
  apply BitVec.eq_of_toNat_eq
  simp only [fieldOp, fieldZ1, fieldAp, fieldDir, fieldZ0, fieldAddr, fieldReg, fieldData, BitVec.toNat_eq,
    BitVec.extractLsb'_toNat, Nat.shiftRight_eq_div_pow] at hop hz1 hap hdir hz0 haddr hreg hdata
  omega

/-- A field the mask covers is the same in two words that agree under the mask. -/
theorem extractLsb'_eq_of_mask {w v m : Word} (h : v &&& m = w &&& m) (k n : Nat)
    (hm : m.extractLsb' k n = BitVec.allOnes n) : v.extractLsb' k n = w.extractLsb' k n := by
  have := congrArg (·.extractLsb' k n) h
  simpa [BitVec.extractLsb'_and, hm] using this

/-! ### Decode of a word by its fields -/

/-- The command of the same row as `i`, with its operands taken from the fields of `w` (R72). -/
def Instr.operandsFrom (w : Word) : Instr → Instr
  | .start _ _ => .start (fieldAddr w) (fieldDir w)
  | .rstart _ _ => .rstart (fieldAddr w) (fieldDir w)
  | .stop => .stop
  | .send _ => .send (fieldData w)
  | .recv _ => .recv (policyOfCode (fieldAp w))
  | .wrreg _ _ _ => .wrreg (fieldAddr w) (fieldReg w) (fieldData w)
  | .rdreg _ _ => .rdreg (fieldAddr w) (fieldReg w)
  | .wrbyte _ _ => .wrbyte (fieldAddr w) (fieldData w)
  | .rdbyte _ => .rdbyte (fieldAddr w)

/-- `op` selects the command, and its operands are the word's fields (R68, R72). -/
theorem decodeOp_eq_ok_iff (w : Word) (i : Instr) :
    decodeOp w = .ok i ↔ fieldOp w = i.opcode ∧ i = i.operandsFrom w := by
  constructor
  · intro h
    unfold decodeOp at h
    split at h
    case h_10 => cases h
    all_goals
      next hop =>
        cases h
        exact ⟨BitVec.eq_of_toNat_eq hop, rfl⟩
  · rintro ⟨hop, hi⟩
    rw [hi]
    cases i <;> simp [decodeOp, hop, Instr.opcode, Instr.operandsFrom]

/-- The decoder accepts the words with zero reserved bits whose opcode and fields are the command's (R73, R80). -/
theorem decode_eq_ok_iff (w : Word) (i : Instr) :
    decode w = .ok i ↔ fieldZ1 w = 0#1 ∧ fieldZ0 w = 0#1 ∧ fieldOp w = i.opcode ∧ i = i.operandsFrom w := by
  rw [← decodeOp_eq_ok_iff]
  constructor
  · exact decode_ok_fields
  · rintro ⟨hz1, hz0, hop⟩
    simpa [decode, hz1, hz0] using hop

/-- The opcode and the operands of an encoded command are the command's own (R81). -/
theorem decode_encode (i : Instr) : decode (encode i) = .ok i := by
  rw [decode_eq_ok_iff]
  cases i <;> simp [encode, Instr.opcode, Instr.operandsFrom]

/-- Settles O1: the fields of a packed word are the packed operands, so the decoder finds the command it was packed from. -/
theorem decodeOfEncodeIsIdentity : Obligations.DecodeOfEncodeIsIdentity := decode_encode

/-- The opcode, the reserved bits and the operands a command takes lie under its read mask (R72, column "fields read"). -/
theorem decode_of_readMask {w v : Word} {i : Instr} (h : decode w = .ok i)
    (hm : v &&& Machine.readMask i = w &&& Machine.readMask i) : decode v = .ok i := by
  have hfield := extractLsb'_eq_of_mask hm
  have hop : fieldOp v = fieldOp w := hfield 28 4 (by cases i <;> simp [Machine.readMask])
  have hz1 : fieldZ1 v = fieldZ1 w := hfield 27 1 (by cases i <;> simp [Machine.readMask])
  have hz0 : fieldZ0 v = fieldZ0 w := hfield 23 1 (by cases i <;> simp [Machine.readMask])
  have hoperands : i.operandsFrom v = i.operandsFrom w := by
    have hdir := hfield 24 2
    have hap := hfield 26 1
    have haddr := hfield 16 7
    have hreg := hfield 8 8
    have hdata := hfield 0 8
    cases i <;> simp_all [Instr.operandsFrom, fieldAddr, fieldDir, fieldAp, fieldReg, fieldData, Machine.readMask]
  rw [decode_eq_ok_iff] at h ⊢
  rwa [hop, hz1, hz0, hoperands]

/-- An encoded command has 0 in the fields it does not take (R75, R81). -/
theorem encode_unread_zero (i : Instr) : encode i &&& ~~~ Machine.readMask i = 0#32 := by
  apply BitVec.eq_of_getLsbD_eq
  intro k hk
  cases i <;> simp only [encode, packCommand_eq_append, Machine.readMask, BitVec.getLsbD_and, BitVec.getLsbD_append] <;>
    interval_cases k <;> simp

/-- Settles O3: what the decoder reads of a word lies under the read mask of its command, acceptance latches every field of
the word, and the encoder packs 0 outside the mask. -/
theorem unreadFieldsAreIgnoredAndLatched : Obligations.UnreadFieldsAreIgnoredAndLatched := by
  intro w w' i h hm
  exact ⟨decode_of_readMask h hm, fun _ _ => ⟨rfl, rfl, rfl, rfl, rfl, rfl⟩, encode_unread_zero i⟩

/-! ### The opcode map (R72) -/

/-- The match of a row is its opcode, packed with zeros; the mask keeps the opcode and the reserved bits. -/
theorem row_mask_match : ∀ r ∈ opcodeRows, r.mask = 0xF8800000#32 ∧ r.matchBits = packCommand r.op 0 0 0 0 0 := by decide

/-- A row selects the words with zero reserved bits that have its opcode. -/
theorem selects_iff {r : OpcodeRow} (hr : r ∈ opcodeRows) (w : Word) :
    r.selects w = true ↔ fieldZ1 w = 0#1 ∧ fieldZ0 w = 0#1 ∧ fieldOp w = r.op := by
  obtain ⟨hmask, hmatch⟩ := row_mask_match r hr
  have hkept := extractLsb'_eq_of_mask (w := w) (v := w &&& 0xF8800000#32) (m := 0xF8800000#32)
    (by rw [BitVec.and_assoc, BitVec.and_self])
  have hop : fieldOp (w &&& 0xF8800000#32) = fieldOp w := hkept 28 4 (by decide)
  have hz1 : fieldZ1 (w &&& 0xF8800000#32) = fieldZ1 w := hkept 27 1 (by decide)
  have hz0 : fieldZ0 (w &&& 0xF8800000#32) = fieldZ0 w := hkept 23 1 (by decide)
  rw [OpcodeRow.selects, hmask, hmatch, beq_iff_eq]
  constructor
  · intro h
    rw [← hop, ← hz1, ← hz0, h]
    simp
  · rintro ⟨h1, h0, hr⟩
    apply word_ext
    · simp [hop, hr]
    · simp [hz1, h1]
    · rw [fieldAp_pack]
      simp [fieldAp, BitVec.extractLsb'_and]
    · rw [fieldDir_pack]
      simp [fieldDir, BitVec.extractLsb'_and]
    · simp [hz0, h0]
    · rw [fieldAddr_pack]
      simp [fieldAddr, BitVec.extractLsb'_and]
    · rw [fieldReg_pack]
      simp [fieldReg, BitVec.extractLsb'_and]
    · rw [fieldData_pack]
      simp [fieldData, BitVec.extractLsb'_and]

/-- A row is its opcode's only row. -/
theorem row_eq_of_op_eq : ∀ q ∈ opcodeRows, ∀ r ∈ opcodeRows, q.op = r.op → q = r := by decide

/-- Every command has a row (R72). -/
theorem exists_row (i : Instr) : ∃ r ∈ opcodeRows, r.op = i.opcode := by
  cases i <;> simp [opcodeRows, Instr.opcode]

/-- Every row is the row of a command (R72). -/
theorem exists_command : ∀ r ∈ opcodeRows, ∃ i : Instr, i.opcode = r.op := by
  simp only [opcodeRows, List.forall_mem_cons]
  exact ⟨⟨.start 0 0, rfl⟩, ⟨.rstart 0 0, rfl⟩, ⟨.stop, rfl⟩, ⟨.send 0, rfl⟩, ⟨.recv .ack, rfl⟩, ⟨.wrreg 0 0 0, rfl⟩,
    ⟨.rdreg 0 0, rfl⟩, ⟨.wrbyte 0 0, rfl⟩, ⟨.rdbyte 0, rfl⟩, by simp⟩

/-- Taking operands from a word keeps the row and is done once. -/
theorem operandsFrom_operandsFrom (w : Word) (i : Instr) : (i.operandsFrom w).operandsFrom w = i.operandsFrom w := by
  cases i <;> rfl

@[simp] theorem opcode_operandsFrom (w : Word) (i : Instr) : (i.operandsFrom w).opcode = i.opcode := by cases i <;> rfl

/-- A word is legal when some command decodes from it (R74). -/
theorem legalWord_iff (w : Word) : legalWord w = true ↔ ∃ i, decode w = .ok i := by
  rw [legalWord, List.any_eq_true]
  constructor
  · rintro ⟨r, hr, hsel⟩
    obtain ⟨hz1, hz0, hop⟩ := (selects_iff hr w).1 hsel
    obtain ⟨i, hi⟩ := exists_command r hr
    exact ⟨i.operandsFrom w, (decode_eq_ok_iff w _).2
      ⟨hz1, hz0, by rw [opcode_operandsFrom, hi, hop], (operandsFrom_operandsFrom w i).symm⟩⟩
  · rintro ⟨i, hi⟩
    obtain ⟨hz1, hz0, hop, -⟩ := (decode_eq_ok_iff w i).1 hi
    obtain ⟨r, hr, hri⟩ := exists_row i
    exact ⟨r, hr, (selects_iff hr w).2 ⟨hz1, hz0, hop.trans hri.symm⟩⟩

/-- Exactly the row of its command selects a legal word. -/
theorem only_row_selects {w : Word} {i : Instr} (h : decode w = .ok i) :
    ∃ r ∈ opcodeRows, r.op = i.opcode ∧ ∀ q ∈ opcodeRows, (q.selects w = true ↔ q = r) := by
  obtain ⟨hz1, hz0, hop, -⟩ := (decode_eq_ok_iff w i).1 h
  obtain ⟨r, hr, hri⟩ := exists_row i
  refine ⟨r, hr, hri, fun q hq => ?_⟩
  rw [selects_iff hq]
  constructor
  · rintro ⟨-, -, hq'⟩
    exact row_eq_of_op_eq q hq r hr (by rw [← hq', hop, hri])
  · rintro rfl
    exact ⟨hz1, hz0, hop.trans hri.symm⟩

/-- The 1-bit policy field as a bit of the word (R70). -/
theorem policyOfCode_fieldAp (w : Word) : policyOfCode (fieldAp w) = if w.getLsbD 26 then .nack else .ack := by
  have hbit : fieldAp w = 1#1 ↔ w.getLsbD 26 = true := extractLsb'_one_eq_one_iff w 26
  have hcode : policyOfCode (fieldAp w) = if fieldAp w = 1#1 then .nack else .ack := by
    generalize fieldAp w = c
    revert c
    decide
  simp only [hcode, hbit]

/-- Settles O4: a row is its opcode under the mask of the reserved bits, so it selects the words `decode` gives its command,
whose operands are the fields at their places. -/
theorem tableRowSelectsItsCommand : Obligations.TableRowSelectsItsCommand := by
  refine ⟨legalWord_iff, fun w i h => ⟨only_row_selects h, ?_⟩⟩
  have hi := ((decode_eq_ok_iff w i).1 h).2.2.2
  cases i with
  | recv p =>
    dsimp only
    rw [← policyOfCode_fieldAp]
    exact hi
  | _ => exact hi

/-- Settles O5: the fifteen words of R85. -/
theorem exampleWordsDecode : Obligations.ExampleWordsDecode := by
  unfold Obligations.ExampleWordsDecode
  decide

end Sys2Proof
end

section
/-!
The step of the machine (10_state.md R32 to R39): one equation for each move, what an engine step leaves alone, and the
statements about single steps.
-/

namespace Sys2Proof.Machine

/-! ### An engine step does not look at the inputs -/

/-- `s` under other inputs and with other moves to come. -/
def State.withInputs (p : Pins) (m : List Move) (s : State) : State := { s with pins := p, moves := m }

section
variable (p : Pins) (m : List Move) (s : State) (q : Prim) (o : TxOutcome)

theorem beginStep_withInputs : beginStep q (s.withInputs p m) = (beginStep q s).withInputs p m := by
  cases q with
  | stop => rfl
  | _ =>
    simp only [beginStep, Prim.required?]
    rw [apply_ite (State.withInputs p m)]
    rfl

theorem beginPrim_withInputs : beginPrim q (s.withInputs p m) = (beginPrim q s).withInputs p m := by
  unfold beginPrim
  rw [beginStep_withInputs, apply_ite (State.withInputs p m)]
  rfl

theorem advance_withInputs : advance o (s.withInputs p m) = (advance o s).withInputs p m := by
  unfold advance
  rw [apply_ite (State.withInputs p m)]
  have hnext : (s.withInputs p m).nextStep = s.nextStep.withInputs p m := rfl
  have hprim : (s.nextStep.withInputs p m).currentPrim = s.nextStep.currentPrim := rfl
  rw [hnext, hprim]
  cases s.nextStep.currentPrim with
  | none => rfl
  | some q =>
    dsimp only
    rw [beginPrim_withInputs]
    rfl

theorem settle_withInputs : settle o (s.withInputs p m) = (settle o s).withInputs p m :=
  advance_withInputs p m { s with phase := s.phase.rest } o

theorem pollStep_withInputs : pollStep q (s.withInputs p m) = (pollStep q s).withInputs p m := by
  unfold pollStep
  dsimp only
  rw [apply_ite (State.withInputs p m), apply_ite (State.withInputs p m)]
  cases q <;> rfl

theorem ackCheckStep_withInputs : ackCheckStep q (s.withInputs p m) = (ackCheckStep q s).withInputs p m := by
  have hstop (o : TxOutcome) : settle o (s.withInputs p m) = (settle o s).withInputs p m := settle_withInputs p m s o
  cases q with
  | send _ => exact hstop _
  | _ =>
    unfold ackCheckStep
    dsimp only
    rw [apply_ite (State.withInputs p m), apply_ite (State.withInputs p m), hstop, hstop]
    rfl

/-- A running operation does not look at the inputs or at the moves to come (R35). -/
theorem engineStep_withInputs : engineStep (s.withInputs p m) = (engineStep s).withInputs p m := by
  have hprim : (s.withInputs p m).currentPrim = s.currentPrim := rfl
  have hpos : (s.withInputs p m).pos = s.pos := rfl
  unfold engineStep
  rw [hprim, hpos]
  cases s.currentPrim with
  | none => rfl
  | some q =>
    cases s.pos with
    | begin => exact beginPrim_withInputs p m s q
    | write => cases q <;> rfl
    | poll => exact pollStep_withInputs p m s q
    | ackCheck => exact ackCheckStep_withInputs p m s q
    | dataRead => cases q <;> rfl
    | receiveCommand => cases q with
      | recv ap => cases ap <;> rfl
      | _ => rfl
    | done o => exact settle_withInputs p m s o

end

/-! ### A running operation keeps its latches and its bound -/

/-- The latches and the bound are as before (R18, R23). -/
structure LatchesKept (s t : State) : Prop where
  lat   : t.lat = s.lat
  limit : t.limit = s.limit

section
variable (s : State) (q : Prim) (o : TxOutcome)

theorem beginStep_keepsLatches : LatchesKept s (beginStep q s) := by
  cases q with
  | stop => exact ⟨rfl, rfl⟩
  | _ =>
    simp only [beginStep, Prim.required?]
    split <;> exact ⟨rfl, rfl⟩

theorem beginPrim_keepsLatches : LatchesKept s (beginPrim q s) := by
  unfold beginPrim
  split
  · exact beginStep_keepsLatches s q
  · exact ⟨rfl, rfl⟩

theorem settle_keepsLatches : LatchesKept s (settle o s) := by
  unfold settle advance
  split
  · split
    · have hnext := beginPrim_keepsLatches ({ s with phase := s.phase.rest } : State).nextStep
      exact ⟨(hnext _).lat, (hnext _).limit⟩
    · exact ⟨rfl, rfl⟩
  · exact ⟨rfl, rfl⟩

theorem pollStep_keepsLatches : LatchesKept s (pollStep q s) := by
  unfold pollStep
  dsimp only
  split
  · split
    · cases q <;> exact ⟨rfl, rfl⟩
    · exact ⟨rfl, rfl⟩
  · exact ⟨rfl, rfl⟩

theorem ackCheckStep_keepsLatches : LatchesKept s (ackCheckStep q s) := by
  unfold ackCheckStep
  cases q with
  | send _ => exact settle_keepsLatches s _
  | _ =>
    dsimp only
    split
    · split
      · exact ⟨rfl, rfl⟩
      · exact settle_keepsLatches s _
    · exact settle_keepsLatches s _

theorem engineStep_keepsLatches : LatchesKept s (engineStep s) := by
  unfold engineStep
  cases s.currentPrim with
  | none => exact ⟨rfl, rfl⟩
  | some q =>
    cases s.pos with
    | begin => exact beginPrim_keepsLatches s q
    | write => cases q <;> exact ⟨rfl, rfl⟩
    | poll => exact pollStep_keepsLatches s q
    | ackCheck => exact ackCheckStep_keepsLatches s q
    | dataRead => cases q <;> exact ⟨rfl, rfl⟩
    | receiveCommand => cases q with
      | recv ap => cases ap <;> exact ⟨rfl, rfl⟩
      | _ => exact ⟨rfl, rfl⟩
    | done o => exact settle_keepsLatches s o

end

/-! ### One equation for each move -/

theorem step_command_busy {s : State} {w : Word} {n : Count} {rest : List Move} (hm : s.moves = .command w n :: rest)
    (hb : s.busy = true) : step s = .next (engineStep s) := by
  simp only [step, hm, hb, if_true]

theorem step_command_rest {s : State} {w : Word} {n : Count} {rest : List Move} (hm : s.moves = .command w n :: rest)
    (hb : s.busy = false) : step s = runCommand w n (s.withInputs (commandPins w n) rest) := by
  simp only [step, hm, hb]
  rfl

theorem step_edge {s : State} {p : Pins} {rest : List Move} (hm : s.moves = .edge p :: rest) :
    step s = .next (clockEdge (s.withInputs p rest)) := by
  simp only [step, hm]
  rfl

theorem step_adapter {s : State} {c : AdapterCall} {rest : List Move} (hm : s.moves = .adapter c :: rest) :
    step s = adapterCall c (s.withInputs s.pins rest) := by
  simp only [step, hm]
  rfl

theorem step_env {s : State} {e : Env} {rest : List Move} (hm : s.moves = .env e :: rest) :
    step s = .next { s with moves := rest, env := e } := by
  simp only [step, hm]

theorem step_nil {s : State} (hm : s.moves = []) : step s = .next (clockEdge s) := by
  simp only [step, hm]

theorem runCommand_legal {w : Word} {i : Instr} (h : decode w = .ok i) (n : Count) (s : State) :
    runCommand w n s = exec i (s.accept w n) := by
  simp only [runCommand, h]

theorem runCommand_illegal {w : Word} (h : legalWord w = false) (n : Count) (s : State) :
    runCommand w n s = .next (s.answerIllegal w) := by
  cases hd : decode w with
  | ok i => simp [(legalWord_iff w).2 ⟨i, hd⟩] at h
  | error _ => simp only [runCommand, hd]

/-- A running operation goes on at an edge without reset (R15). -/
theorem clockEdge_busy {s : State} (hr : s.pins.rst = false) (hb : s.busy = true) : clockEdge s = engineStep s := by
  simp [clockEdge, hr, hb]

/-- An engine at rest accepts a legal word at an edge without reset (R35). -/
theorem clockEdge_accept {s : State} {i : Instr} (hr : s.pins.rst = false) (hb : s.busy = false)
    (hv : s.pins.cmdValid = true) (hd : decode s.pins.cmdWord = .ok i) :
    clockEdge s = s.accept s.pins.cmdWord s.pins.cfgPollLimit := by
  simp [clockEdge, hr, hb, hv, hd]

/-- An engine at rest answers an illegal word at an edge without reset (R134). -/
theorem clockEdge_illegal {s : State} (hr : s.pins.rst = false) (hb : s.busy = false)
    (hv : s.pins.cmdValid = true) (hl : legalWord s.pins.cmdWord = false) :
    clockEdge s = s.answerIllegal s.pins.cmdWord := by
  cases hd : decode s.pins.cmdWord with
  | ok i => simp [(legalWord_iff _).2 ⟨i, hd⟩] at hl
  | error _ => simp [clockEdge, hr, hb, hv, hd]

/-! ### The invariant (O7, O8) -/

/-- Settles O7: after reset the engine is at rest in `IDLE`, and nothing has been run. -/
theorem resetMeetsTheInvariant : Obligations.ResetMeetsTheInvariant where
  count_bound := BitVec.le_refl _
  busy_no_response h := by cases h
  rest_quiet _ := ⟨rfl, rfl⟩
  rest_phase _ := rfl
  running h := by cases h
  fresh_kind h := by cases h
  pending h := by cases h
  response_form := ⟨by decide, fun h => by cases h⟩
  no_none := by simp [State.reset]
  env_wf := ⟨rfl, by simp [State.reset]⟩

/-- The invariant says nothing of the inputs, and of the moves to come only that they are well formed. -/
theorem inv_withInputs {s : State} (h : s.Inv) (p : Pins) {m : List Move} (hm : ∀ x ∈ m, x.wf = true) :
    (s.withInputs p m).Inv := inv_outside h p s.cfg hm

/-- The environment moves, into a state it can be in. -/
theorem inv_env {s : State} (h : s.Inv) {e : Env} (he : e.wf = true) : ({ s with env := e } : State).Inv :=
  { h with env_wf := ⟨he, h.env_wf.2⟩ }

/-- A command presented to an engine at rest, legal or not. -/
theorem inv_runCommand {s t : State} (h : s.Inv) (hb : s.busy = false) {w : Word} {n : Count}
    (ht : runCommand w n s = .next t) : t.Inv := by
  unfold runCommand at ht
  split at ht
  · next i hd =>
    have ha := inv_accept h hb hd n
    exact inv_exec ha.count_bound (h.rest_phase hb) ha.no_none ha.env_wf.1 ha.env_wf.2 ht
  · cases ht
    exact inv_illegal h hb w

/-- A call on the adapter writes nothing but its configuration (R147). -/
theorem adapterCall_next {c : AdapterCall} {s t : State} (h : adapterCall c s = .next t) :
    ∃ cfg, t = { s with cfg := cfg } := by
  unfold adapterCall at h
  split at h
  · cases h
  · split at h
    · split at h
      · cases h
      · cases h
        exact ⟨_, rfl⟩
    · cases h
      exact ⟨_, rfl⟩
    · cases h
      exact ⟨_, rfl⟩

/-- Settles O8: each kind of move keeps the invariant, by the lemma for what the engine does under it. -/
theorem everyStepKeepsTheInvariant : Obligations.EveryStepKeepsTheInvariant := by
  intro s t h ht
  cases hm : s.moves with
  | nil =>
    cases (step_nil hm).symm.trans ht
    exact inv_edge h
  | cons x rest =>
    have hrest : ∀ m ∈ rest, m.wf = true := fun m hx => h.env_wf.2 m (by simp [hm, hx])
    cases x with
    | command w n =>
      cases hb : s.busy with
      | true =>
        cases (step_command_busy hm hb).symm.trans ht
        exact inv_engine h hb
      | false => exact inv_runCommand (inv_withInputs h _ hrest) hb ((step_command_rest hm hb).symm.trans ht)
    | edge p =>
      cases (step_edge hm).symm.trans ht
      exact inv_edge (inv_withInputs h p hrest)
    | env e =>
      cases (step_env hm).symm.trans ht
      exact inv_env (inv_withInputs h s.pins hrest) (h.env_wf.2 (.env e) (by simp [hm]))
    | adapter c =>
      obtain ⟨cfg, rfl⟩ := adapterCall_next ((step_adapter hm).symm.trans ht)
      exact inv_outside h s.pins cfg hrest

/-! ### Single steps -/

/-- Settles O9: at rest the step presents the command, and a legal word is accepted and run. -/
theorem stepRunsThePresentedCommand : Obligations.StepRunsThePresentedCommand := by
  intro s w limit rest i hm hb hd
  exact (step_command_rest hm hb).trans (runCommand_legal hd limit _)

/-- Settles O10: the edge accepts the word as `accept` says; and during an operation the edge is an engine step, which does
not look at the inputs. -/
theorem acceptanceLatchesOnce : Obligations.AcceptanceLatchesOnce := by
  constructor
  · intro s p rest i hm hr hb hv hd
    refine ⟨_, (step_edge hm).trans (congrArg _ (clockEdge_accept hr hb hv hd)), ?_⟩
    exact ⟨rfl, rfl, rfl, rfl, rfl, rfl, rfl, rfl, rfl, rfl, rfl, rfl, rfl⟩
  · intro s p q rest hb hp hq
    have hedge (x : Pins) (hx : x.rst = false) :
        step { s with moves := .edge x :: rest } = .next ((engineStep s).withInputs x rest) := by
      refine (step_edge rfl).trans (congrArg _ ?_)
      rw [← engineStep_withInputs]
      exact clockEdge_busy hx hb
    have hmoves (x : Pins) : (engineStep s).withInputs x rest = { (engineStep s).withInputs p rest with pins := x } := rfl
    refine ⟨_, hedge p hp, (hedge q hq).trans (congrArg _ (hmoves q)), ?_⟩
    exact ⟨(engineStep_keepsLatches s).lat, (engineStep_keepsLatches s).limit⟩

/-- Settles O11: while busy the step is an engine step, which does not look at the moves to come. -/
theorem presentedCommandWaits : Obligations.PresentedCommandWaits := by
  intro s w w' n n' rest rest' hb
  have hstep (v : Word) (k : Count) (l : List Move) : step { s with moves := .command v k :: l } =
      .next ((engineStep s).withInputs s.pins (.command v k :: l)) := by
    refine (step_command_busy (s := { s with moves := .command v k :: l }) rfl hb).trans (congrArg _ ?_)
    rw [← engineStep_withInputs]
    rfl
  exact ⟨_, hstep w n rest, rfl, (engineStep_keepsLatches s).lat, (engineStep_keepsLatches s).limit, hstep w' n' rest'⟩

/-- Settles O12: an edge with neither reset nor command clears the access, and an engine at rest makes none. -/
theorem engineAtRestWaits : Obligations.EngineAtRestWaits := by
  intro s p rest hm hinv hb hr hv
  rw [step_edge hm]
  have haccess := (hinv.rest_quiet hb).1
  simp [clockEdge, State.withInputs, hr, hb, hv, ← haccess]

/-- Settles O13: presented either way, the illegal word comes to `answerIllegal`, which writes the latches and the response. -/
theorem illegalWordIsAnswered : Obligations.IllegalWordIsAnswered := by
  intro s w rest hpresented hb hl
  have hstep : ∃ p, step s = .next ((s.withInputs p rest).answerIllegal w) := by
    rcases hpresented with ⟨n, hm⟩ | ⟨p, hm, hr, hv, rfl⟩
    · exact ⟨_, (step_command_rest hm hb).trans (runCommand_illegal hl n _)⟩
    · exact ⟨p, (step_edge hm).trans (congrArg _ (clockEdge_illegal hr hb hv hl))⟩
  obtain ⟨p, hstep⟩ := hstep
  refine ⟨_, hstep, rfl, rfl, rfl, rfl, rfl, rfl, ?_⟩
  simp [illegalRsp, illegalOutcomeCode, State.withInputs]

/-- Settles O14: a call is refused while busy; at rest it writes the configuration it names, where the baud formula has a
result. -/
theorem adapterCallsBypassTheEngine : Obligations.AdapterCallsBypassTheEngine := by
  refine ⟨?_, ?_, ?_, by decide, by decide, by decide⟩
  · intro s c rest hm hb
    rw [step_adapter hm]
    exact if_pos hb
  · intro s clk speed pol tmo rest hm hb
    have hb' : (s.withInputs s.pins rest).busy = false := hb
    rw [step_adapter hm]
    by_cases hspeed : speed = 0
    · simp [adapterCall, hb', baudValue?, hspeed]
    · by_cases hlow : clk / (2 * speed) < 5
      · simp [adapterCall, hb', baudValue?, hspeed, hlow]
      · simp [adapterCall, hb, baudValue?, hspeed, hlow, State.withInputs]
  · intro s rest hb
    constructor <;> simp [step, adapterCall, hb]

/-- A command run from an engine at rest answers a next state (R131). -/
theorem runCommand_next (w : Word) (n : Count) (s : State) : ∃ t, runCommand w n s = .next t := by
  unfold runCommand
  split
  · next i _ =>
    obtain ⟨o, u, es, h, -⟩ := exec_spec i (s.accept w n)
    exact ⟨_, h⟩
  · exact ⟨_, rfl⟩

/-- A claimable call at rest is answered. -/
theorem adapterCall_next_of_claimable {c : AdapterCall} {s : State} (hb : s.busy = false)
    (hc : (Move.adapter c).claimable = true) : ∃ t, adapterCall c s = .next t := by
  cases c with
  | configure clk speed pol tmo =>
    obtain ⟨b, hbaud⟩ := Option.isSome_iff_exists.1 hc
    exact ⟨_, by simp only [adapterCall, hb, hbaud]; rfl⟩
  | enable => exact ⟨_, by simp only [adapterCall, hb]; rfl⟩
  | disable => exact ⟨_, by simp only [adapterCall, hb]; rfl⟩

/-- Settles O15: of the moves only a call on the adapter can be refused, for a running operation, or for a baud value, which
a claimable call has. -/
theorem claimableStepIsRefusedOnlyMidOperation : Obligations.ClaimableStepIsRefusedOnlyMidOperation := by
  intro s hclaim
  constructor
  · intro hno
    cases hm : s.moves with
    | nil => exact absurd (step_nil hm) (hno _)
    | cons x rest =>
      cases x with
      | command w n =>
        cases hb : s.busy with
        | true => exact absurd (step_command_busy hm hb) (hno _)
        | false =>
          obtain ⟨t, ht⟩ := runCommand_next w n (s.withInputs (commandPins w n) rest)
          exact absurd ((step_command_rest hm hb).trans ht) (hno t)
      | edge p => exact absurd (step_edge hm) (hno _)
      | env e => exact absurd (step_env hm) (hno _)
      | adapter c =>
        refine ⟨?_, c, rest, rfl⟩
        by_contra hb
        obtain ⟨t, ht⟩ := adapterCall_next_of_claimable (s := s.withInputs s.pins rest) (Bool.eq_false_iff.2 hb)
          (hclaim.1 (.adapter c) (by simp [hm]))
        exact hno t ((step_adapter hm).trans ht)
  · rintro ⟨hb, c, rest, hm⟩ t ht
    rw [step_adapter hm] at ht
    cases (if_pos hb).symm.trans ht

/-- Settles O52: a reset edge is `resetEngine`, which keeps everything outside the engine. -/
theorem resetLeavesTheOutsideAlone : Obligations.ResetLeavesTheOutsideAlone := by
  intro s p rest hm hr
  exact ⟨_, step_of_edge_rst hm hr, rfl, rfl, rfl, rfl, rfl, rfl, rfl, rfl⟩

/-! ### Ports and codes -/

/-- Settles O16: the strobes by the access of the cycle, the outputs by the registers they show. -/
theorem portsShowTheRegisters : Obligations.PortsShowTheRegisters := by
  intro s
  refine ⟨?_, ?_, ?_, ?_, ?_, ?_, rfl, rfl, rfl, rfl, by cases h : s.phase <;> simp [State.hostOutputs, h, Phase.code]⟩
  all_goals
    unfold State.strobes
    cases s.access with
    | none => simp [strobesOf]
    | some ev => cases ev with
      | command c => cases c <;> simp [strobesOf, AdapterCmd.code]
      | _ => simp [strobesOf]

/-- Settles O17: the composed byte is the address above the direction bit. -/
theorem composedByteHoldsAddressAndDirection : Obligations.ComposedByteHoldsAddressAndDirection := by
  intro addr d
  cases d <;> (revert addr; decide)

theorem busOf_iff (b : Byte) : (busOf b = .unknown ↔ b.extractLsb' 0 2 = 0#2) ∧ (busOf b = .idle ↔ b.extractLsb' 0 2 = 1#2) ∧
    (busOf b = .owner ↔ b.extractLsb' 0 2 = 2#2) ∧ (busOf b = .busy ↔ b.extractLsb' 0 2 = 3#2) := by
  unfold busOf
  generalize b.extractLsb' 0 2 = c
  revert c
  decide

/-- Settles O51: the fields are read at their places by definition, and each code of the Bus State has its one name. -/
theorem fieldsAndCodesAreAtTheirPlaces : Obligations.FieldsAndCodesAreAtTheirPlaces := by
  refine ⟨fun b => ⟨rfl, rfl, rfl, rfl, rfl, busOf_iff b⟩, fun _ _ _ _ => rfl, ⟨rfl, rfl, rfl, rfl⟩,
    ⟨rfl, rfl, rfl, rfl, fun c => by cases c <;> rfl⟩, ⟨rfl, rfl, rfl, rfl, rfl⟩, ⟨rfl, rfl, fun _ => rfl, rfl, rfl, rfl⟩,
    fun _ => ⟨rfl, rfl, rfl, rfl, rfl, rfl⟩⟩

end Sys2Proof.Machine
end

section
/-!
The bounded wait (40_ack_poll_timeout.md R88 to R90) and the five primitive commands (41_start_stop.md, 42_byte_transfer.md): the
ends of each step, seen through the response the command gives.
-/

namespace Sys2Proof.Machine

/-! ### Waits -/

/-- Of two waits that one environment answers, both have made the same reads with the same result. -/
theorem WaitRun.unique {f : CompletionFlag} {k n : Nat} {e e1 e2 : Env} {bs cs : List Byte} {r q : Bool}
    (h : WaitRun f k bs r) (h' : WaitRun f k cs q) (hr : e.replay n (statusReads bs) = some e1)
    (hr' : e.replay n (statusReads cs) = some e2) : bs = cs ∧ r = q :=
  h.det h' (es := []) (fs := []) (by simpa using hr) (by simpa using hr')

/-- A wait that one environment answers in a known way has gone that way. -/
theorem poll_of_expires {f : CompletionFlag} {s : State} {bs : List Byte} {e : Env} (hw : WaitExpires f s.limit bs)
    (he : s.env.replay s.reads (statusReads bs) = some e) :
    (s.poll f).1 = .expired ∧ (s.poll f).2.env = e ∧ (s.poll f).2.pollCnt = s.limit ∧
      (s.poll f).2.trace = s.trace ++ statusReads bs := by
  have hends := poll_spec f s
  generalize s.poll f = r at hends
  cases hends with
  | expired t cs hw' hdid hcnt =>
    obtain ⟨rfl, -⟩ := hw.waitRun.unique hw'.waitRun he hdid.ran.2.1
    exact ⟨rfl, Option.some.inj (hdid.ran.2.1.symm.trans he), hcnt, hdid.ran.1⟩
  | seen t cs b hw' hdid hb hcnt => cases (hw.waitRun.unique hw'.waitRun he hdid.ran.2.1).2

theorem poll_of_sees {f : CompletionFlag} {s : State} {bs : List Byte} {b : Byte} {e : Env} (hw : WaitSees f s.limit bs b)
    (he : s.env.replay s.reads (statusReads (bs ++ [b])) = some e) :
    (s.poll f).1 = .done ∧ (s.poll f).2.env = e ∧ (s.poll f).2.sample = b ∧
      (s.poll f).2.pollCnt = BitVec.ofNat 16 (bs.length + 1) ∧
      (s.poll f).2.trace = s.trace ++ statusReads (bs ++ [b]) := by
  have hends := poll_spec f s
  generalize s.poll f = r at hends
  cases hends with
  | expired t cs hw' hdid hcnt => cases (hw.waitRun.unique hw'.waitRun he hdid.ran.2.1).2
  | seen t cs c hw' hdid hc hcnt =>
    obtain ⟨hbs, -⟩ := hw.waitRun.unique hw'.waitRun he hdid.ran.2.1
    obtain ⟨rfl, hbc⟩ := List.append_inj' hbs rfl
    cases hbc
    exact ⟨rfl, Option.some.inj (hdid.ran.2.1.symm.trans he), hc, hcnt, hdid.ran.1⟩

/-- Settles O18: the answers a script holds are the ones the wait uses, and they decide how it ends. -/
theorem pollCountIsExact : Obligations.PollCountIsExact := by
  intro f s bs rest ds hno
  constructor
  · intro henv hlen
    exact poll_of_expires ⟨hlen, hno⟩ (by rw [henv]; exact replay_sr_scripted _ _ _ _)
  · intro b henv hlen hb
    have hw : WaitSees f s.limit bs b := ⟨hlen, hno, hb⟩
    obtain ⟨hdone, he, hsample, hcnt, htrace⟩ := poll_of_sees (e := .scripted rest ds) hw
      (by rw [henv, List.append_cons]; exact replay_sr_scripted _ _ _ _)
    exact ⟨hdone, he, hsample, hcnt ▸ hw.toNat_count, htrace⟩

/-! ### START, RSTART, STOP and RECV -/

theorem direction?_eq_none_iff : ∀ dir : DirField, direction? dir = none ↔ dir ≠ 0#2 ∧ dir ≠ 1#2 := by decide

theorem isDirection_of_direction? {dir : DirField} {d : Direction} (h : direction? dir = some d) :
    dir = 0#2 ∨ dir = 1#2 := by
  by_contra hno
  rw [(direction?_eq_none_iff dir).2 (by simpa using hno)] at h
  cases h

/-- A step that ends in a wait, with one event before it that is no read, leaves in `S` the last sample of the wait, or, where the
wait read nothing (R90), that of its check. -/
theorem Did.sample_of_address {s t : State} {b0 x : Byte} {bs : List Byte} {p : Phase} {f : Bool} {y : Byte}
    (h : Did s t (.readStatus b0 :: .writeAddr x :: statusReads bs) p f y) : t.sample = bs.getLast?.getD b0 := by
  simp [h.sample, lastSample?_cons]

theorem exec_start (addr : SlaveAddr) (dir : DirField) (s : State) :
    exec (.start addr dir) s = .next (State.finish false (startStep addr dir s)) := rfl

/-- Settles O19: the ends of the step START are the ends of the command. -/
theorem startEndsAsItsRuleSays : Obligations.StartEndsAsItsRuleSays := by
  intro addr dir s
  rw [exec_start]
  have hends := startStep_spec addr dir s
  generalize startStep addr dir s = r at hends
  cases hends with
  | invalid hd =>
    have hdid := did_nothing s
    exact ⟨_, _, rfl, hdid.ran_respond _ _,
      .inl ⟨(direction?_eq_none_iff dir).1 hd, rfl, hdid.answered _ _, rfl, rfl, rfl, rfl⟩⟩
  | busBusy t b d hd hb hsample hdid hcnt =>
    exact ⟨_, _, rfl, hdid.ran_respond _ _, .inr (.inl ⟨isDirection_of_direction? hd, b, hb, rfl, hdid.answered _ _,
      hdid.phase, hdid.fresh, hcnt, hsample⟩)⟩
  | expired t d b0 bs hd hb hw hdid hcnt =>
    exact ⟨_, _, rfl, hdid.ran_respond _ _, .inr (.inr (.inl ⟨d, b0, bs, hd, hb, hw, rfl, hdid.answered _ _,
      hdid.phase, hdid.fresh, hcnt, hdid.sample_of_address⟩))⟩
  | acked t d b0 bs b hd hb hw hack hdid hcnt =>
    exact ⟨_, _, rfl, hdid.ran_respond _ _, .inr (.inr (.inr (.inr ⟨d, b0, bs, b, hd, hb, hw, hack, rfl,
      hdid.answered _ _, hdid.phase, hdid.fresh, hcnt ▸ hw.toNat_count, hdid.sample_of_address.trans (by simp)⟩)))⟩
  | nack t d b0 bs b hd hb hw hack hdid hcnt =>
    exact ⟨_, _, rfl, hdid.ran_respond _ _, .inr (.inr (.inr (.inl ⟨d, b0, bs, b, hd, hb, hw, hack, rfl,
      hdid.answered _ _, hdid.phase, hdid.fresh, hcnt ▸ hw.toNat_count,
      hdid.sample.trans (by simp [lastSample?_cons, lastSample?_append])⟩)))⟩

theorem exec_rstart (addr : SlaveAddr) (dir : DirField) (s : State) :
    exec (.rstart addr dir) s = .next (State.finish false (rstartStep addr dir s)) := rfl

/-- Settles O20: the ends of the step RSTART are the ends of the command; the acknowledgment tells Nack from Ok. -/
theorem rstartEndsAsItsRuleSays : Obligations.RstartEndsAsItsRuleSays := by
  intro addr dir s
  rw [exec_rstart]
  have hends := rstartStep_spec addr dir s
  generalize rstartStep addr dir s = r at hends
  cases hends with
  | invalid hd =>
    have hdid := did_nothing s
    exact ⟨_, _, rfl, hdid.ran_respond _ _,
      .inl ⟨(direction?_eq_none_iff dir).1 hd, rfl, hdid.answered _ _, rfl, rfl, rfl, rfl⟩⟩
  | busBusy t b d hd hb hsample hdid hcnt =>
    exact ⟨_, _, rfl, hdid.ran_respond _ _, .inr (.inl ⟨isDirection_of_direction? hd, b, hb, rfl, hdid.answered _ _,
      hdid.phase, hdid.fresh, hcnt, hsample⟩)⟩
  | expired t d b0 bs hd hb hw hdid hcnt =>
    exact ⟨_, _, rfl, hdid.ran_respond _ _, .inr (.inr (.inl ⟨d, b0, bs, hd, hb, hw, rfl, hdid.answered _ _,
      hdid.phase, hdid.fresh, hcnt, hdid.sample_of_address⟩))⟩
  | acked t d b0 bs b hd hb hw hack hdid hcnt
  | nack t d b0 bs b hd hb hw hack hdid hcnt =>
    refine ⟨_, _, rfl, hdid.ran_respond _ _, .inr (.inr (.inr ⟨d, b0, bs, b, hd, hb, hw, rfl, ?_, hdid.phase, hdid.fresh,
      hcnt ▸ hw.toNat_count, hdid.sample_of_address.trans (by simp)⟩))⟩
    rw [hack]
    exact hdid.answered _ _

/-- Settles O21: the step STOP makes its one event and nothing decides about it. -/
theorem stopIsUnconditional : Obligations.StopIsUnconditional := by
  intro s
  have hdid := (stopStep_spec s).2
  exact ⟨_, rfl, hdid.ran_respond _ _, hdid.answered _ _, hdid.phase, rfl, rfl⟩

theorem exec_recv (p : AckPolicy) (s : State) : exec (.recv p) s = .next (State.finish true (recvStep p s)) := rfl

/-- Settles O23: the ends of the step RECV are the ends of the command. -/
theorem recvEndsAsItsRuleSays : Obligations.RecvEndsAsItsRuleSays := by
  intro p s
  rw [exec_recv]
  have hends := recvStep_spec p s
  generalize recvStep p s = r at hends
  cases hends with
  | busBusy t b hb hsample hdid hcnt =>
    exact ⟨_, _, rfl, hdid.ran_respond _ _,
      .inl ⟨b, hb, rfl, hdid.answered _ _, hdid.phase, hdid.rxByte, hcnt, hsample⟩⟩
  | expired t b0 bs hb hw hdid hcnt =>
    exact ⟨_, _, rfl, hdid.ran_respond _ _, .inr (.inl ⟨b0, bs, hb, hw, rfl, hdid.answered _ _, hdid.phase, hdid.rxByte,
      hcnt, hdid.sample.trans (by simp [lastSample?_cons])⟩)⟩
  | received t b0 bs b x hb hw hdid hcnt =>
    refine ⟨_, _, rfl, hdid.ran_respond _ _, .inr (.inr ⟨b0, bs, b, x, hb, hw, ?_, hdid.answered _ _,
      (rspData_respond_ok t).trans hdid.rxByte, hdid.rxByte, hdid.phase.trans ?_, hcnt ▸ hw.toNat_count,
      hdid.sample.trans ?_⟩)⟩
    · cases p <;> rfl
    · cases p <;> rfl
    · simp [lastSample?_cons, lastSample?_append]

/-! ### The composites (43_composites.md R115 to R119) -/

/-- The outcome of a run of steps is the outcome of one of them (R115). -/
theorem StepsEnd.exists_step {limit : Count} {ps : List Prim} {o : TxOutcome} {es : List Event} (h : StepsEnd limit ps o es) :
    ∃ p ∈ ps, ∃ fs, StepEnds limit p o fs := by
  induction h with
  | last p o es h => exact ⟨p, by simp, es, h⟩
  | fails p q ps o es h _ => exact ⟨p, by simp, es, h⟩
  | goesOn p q ps o es fs _ _ ih =>
    obtain ⟨p', hp', h⟩ := ih
    exact ⟨p', by simp [List.mem_cons.1 hp'], h⟩

/-- A run of steps that returns Ok ends with its last step's events (R115). -/
theorem StepsEnd.last_step {limit : Count} {ps : List Prim} {o : TxOutcome} {es : List Event} (h : StepsEnd limit ps o es)
    (ho : o = .ok) : ∃ p pre fs, ps.getLast? = some p ∧ es = pre ++ fs ∧ StepEnds limit p .ok fs := by
  induction h with
  | last p o es h => exact ⟨p, [], es, rfl, rfl, ho ▸ h⟩
  | fails p q ps o es h hne => exact absurd ho hne
  | goesOn p q ps o es fs _ _ ih =>
    obtain ⟨p', pre, gs, hlast, rfl, h⟩ := ih ho
    exact ⟨p', es ++ pre, gs, by simpa using hlast, by simp, h⟩

/-- InvalidDirection is returned for a field that names no direction (R69). -/
theorem StepEnds.invalidDirection {limit : Count} {p : Prim} {es : List Event} (h : StepEnds limit p .invalidDirection es) :
    p.directionOk = false := by
  cases h <;> simp [Prim.directionOk, *]

/-- ReceiveTimeout is returned by RECV (R94). -/
theorem StepEnds.receiveTimeout {limit : Count} {p : Prim} {es : List Event} (h : StepEnds limit p .receiveTimeout es) :
    p.isRecv = true := by
  cases h; rfl

/-- The directions of a composite are directions (R116 to R119). -/
theorem StepsEnd.ne_invalidDirection {limit : Count} {ps : List Prim} {o : TxOutcome} {es : List Event}
    (h : StepsEnd limit ps o es) (hps : ∀ p ∈ ps, p.directionOk = true) : o ≠ .invalidDirection := by
  rintro rfl
  obtain ⟨p, hp, fs, hstep⟩ := h.exists_step
  simpa [hstep.invalidDirection] using hps p hp

theorem StepsEnd.ne_receiveTimeout {limit : Count} {ps : List Prim} {o : TxOutcome} {es : List Event}
    (h : StepsEnd limit ps o es) (hps : ∀ p ∈ ps, p.isRecv = false) : o ≠ .receiveTimeout := by
  rintro rfl
  obtain ⟨p, hp, fs, hstep⟩ := h.exists_step
  simpa [hstep.receiveTimeout] using hps p hp

/-- A run of steps that returns Ok and ends in RECV ends with the data read and the command of the policy (R110). -/
theorem StepsEnd.received {limit : Count} {ps : List Prim} {es : List Event} {p : AckPolicy} (h : StepsEnd limit ps .ok es)
    (hlast : ps.getLast? = some (.recv p)) : ∃ pre x, es = pre ++ [.readData x, .command (receiveCmd p)] := by
  obtain ⟨q, pre, fs, hq, rfl, hstep⟩ := h.last_step rfl
  rw [hlast] at hq
  cases hq
  cases hstep with
  | recvOk _ b0 bs b x => exact ⟨pre ++ .readStatus b0 :: statusReads (bs ++ [b]), x, by simp⟩

/-- Settles O24: no step of WRREG has a direction field of the host's, and none is RECV. -/
theorem wrregRunsItsSteps : Obligations.WrregRunsItsSteps := by
  intro addr reg data s
  obtain ⟨o, u, es, hexec, hrun⟩ := exec_spec (.wrreg addr reg data) s
  have hends := hrun.ends
  exact ⟨_, o, es, hexec, hrun.ran_respond _, hends, hrun.answered _,
    hends.ne_invalidDirection (by simp [primsOf, Prim.directionOk, direction_write]),
    hends.ne_receiveTimeout (by simp [primsOf, Prim.isRecv])⟩

/-- Settles O26: no step of WRBYTE has a direction field of the host's, and none is RECV. -/
theorem wrbyteRunsItsSteps : Obligations.WrbyteRunsItsSteps := by
  intro addr data s
  obtain ⟨o, u, es, hexec, hrun⟩ := exec_spec (.wrbyte addr data) s
  have hends := hrun.ends
  exact ⟨_, o, es, hexec, hrun.ran_respond _, hends, hrun.answered _,
    hends.ne_invalidDirection (by simp [primsOf, Prim.directionOk, direction_write]),
    hends.ne_receiveTimeout (by simp [primsOf, Prim.isRecv])⟩

/-- The byte of a read that returns Ok is the last one read, which is `RXBYTE` and the response's (R117, R127). -/
theorem RunDid.byte_of_ok {ps : List Prim} {s u : State} {o : TxOutcome} {es : List Event} {p : AckPolicy}
    (h : RunDid ps s o u es) (hlast : ps.getLast? = some (.recv p)) (ho : o = .ok) :
    ∃ pre x, es = pre ++ [.readData x, .command (receiveCmd p)] ∧ (u.respond true o).rxByte = x ∧
      rspData (u.respond true o).rsp = x := by
  subst ho
  obtain ⟨pre, x, rfl⟩ := h.ends.received hlast
  have hx : u.rxByte = x := by simp [h.rxByte, lastByte?_append, lastByte?_cons]
  exact ⟨pre, x, rfl, hx, (rspData_respond_ok u).trans hx⟩

/-- Settles O25: the last step of RDREG is RECV with policy Nack. -/
theorem rdregRunsItsSteps : Obligations.RdregRunsItsSteps := by
  intro addr reg s
  obtain ⟨o, u, es, hexec, hrun⟩ := exec_spec (.rdreg addr reg) s
  have hends := hrun.ends
  exact ⟨_, o, es, hexec, hrun.ran_respond _, hends, hrun.answered _,
    hends.ne_invalidDirection (by simp [primsOf, Prim.directionOk, direction_write, direction_read]), hrun.byte_of_ok (p := .nack) rfl⟩

/-- Settles O27: the last step of RDBYTE is RECV with policy Nack. -/
theorem rdbyteRunsItsSteps : Obligations.RdbyteRunsItsSteps := by
  intro addr s
  obtain ⟨o, u, es, hexec, hrun⟩ := exec_spec (.rdbyte addr) s
  have hends := hrun.ends
  exact ⟨_, o, es, hexec, hrun.ran_respond _, hends, hrun.answered _,
    hends.ne_invalidDirection (by simp [primsOf, Prim.directionOk, direction_read]), hrun.byte_of_ok (p := .nack) rfl⟩

/-! ### Every protocol run happens -/

/-- Right after reset, under this bound, with an environment that has these answers prepared. -/
def State.scripted (limit : Count) (es : List Event) : State :=
  { State.reset with limit := limit, env := .scripted (statusAnswers es) (dataAnswers es) }

/-- With the answers of a protocol run prepared, the command makes that run: the environment answers in one way only. -/
theorem exec_scripted {i : Instr} {limit : Count} {o : TxOutcome} {es : List Event} (h : StepsEnd limit (primsOf i) o es) :
    ∃ u, exec i (.scripted limit es) = .next (u.respond (returnsByte i) o) ∧
      RunDid (primsOf i) (.scripted limit es) o u es := by
  obtain ⟨o', u, es', hexec, hrun⟩ := exec_spec i (.scripted limit es)
  have hscript := replay_scripted es 0 [] []
  obtain ⟨rfl, rfl⟩ := h.det (X := []) (Y := []) hrun.ends (by simpa using hscript)
    (by rw [List.append_nil]; exact hrun.ran.2.1)
  exact ⟨u, hexec, hrun⟩

/-- Settles O28: the state with the answers of the run prepared has that run. -/
theorem everyProtocolRunIsARunOfTheModel : Obligations.EveryProtocolRunIsARunOfTheModel := by
  intro i limit o es h
  obtain ⟨u, hexec, hrun⟩ := exec_scripted h
  obtain ⟨-, -, -, -, houtcome, hobs, -⟩ := hrun.answered (returnsByte i)
  exact ⟨.scripted limit es, _, rfl, rfl, hexec, hrun.ran_respond _, houtcome, hobs⟩

end Sys2Proof.Machine
end

section
/-!
Rules about all commands (10_state.md R34, 20_memory.md R41 to R45, 41_start_stop.md R103, 70_reset_and_hazards.md R161): a run of
steps is a run of steps that returned Ok and then the step that ended it.
-/

namespace Sys2Proof.Machine

/-! ### The response's outcome -/

section
variable (o : TxOutcome) (byte dv : Bool) (data : Byte) (s : State)

@[simp] theorem rspOutcome_outcomeRsp : rspOutcome (outcomeRsp o dv data) = o.code := rspOutcome_pack _ _ _ _ _
@[simp] theorem rspObs_outcomeRsp : rspObs (outcomeRsp o dv data) = o.obsCode := rspObs_pack _ _ _ _ _
@[simp] theorem rspDv_outcomeRsp : rspDv (outcomeRsp o dv data) = dv := rspDv_pack _ _ _ _ _

theorem rspOutcome_respond : rspOutcome (s.respond byte o).rsp = o.code := rspOutcome_outcomeRsp _ _ _

end

theorem TxOutcome.code_nack {o : TxOutcome} : o.code = 1#3 ↔ o = .nack := by cases o <;> simp [TxOutcome.code]

theorem TxOutcome.code_busBusy {o : TxOutcome} : o.code = 2#3 ↔ ∃ b, o = .busBusy b := by
  cases o <;> simp [TxOutcome.code]

theorem TxOutcome.code_invalidDirection {o : TxOutcome} : o.code = 3#3 ↔ o = .invalidDirection := by
  cases o <;> simp [TxOutcome.code]

theorem TxOutcome.code_receiveTimeout {o : TxOutcome} : o.code = 5#3 ↔ o = .receiveTimeout := by
  cases o <;> simp [TxOutcome.code]

/-! ### The step that ends a run -/

/-- Steps that have all returned Ok, with their events. -/
inductive StepsOk (limit : Count) : List Prim → List Event → Prop where
  | nil : StepsOk limit [] []
  | cons (p : Prim) (ps : List Prim) (es fs : List Event) : StepEnds limit p .ok es → StepsOk limit ps fs →
      StepsOk limit (p :: ps) (es ++ fs)

/-- A run of `ps` with the outcome `o`: the steps `before` returned Ok, `p` ended the run, and `after` were not begun; the events of
`before` are `pre`, those of `p` are `fs` (R115). -/
structure EndedAt (limit : Count) (ps : List Prim) (o : TxOutcome) (before : List Prim) (p : Prim) (after : List Prim)
    (pre fs : List Event) : Prop where
  steps  : ps = before ++ p :: after
  okays  : StepsOk limit before pre
  ends   : StepEnds limit p o fs
  isLast : o = .ok → after = []

/-- A run is the steps that returned Ok and the one that ended it. -/
theorem StepsEnd.endedAt {limit : Count} {ps : List Prim} {o : TxOutcome} {es : List Event} (h : StepsEnd limit ps o es) :
    ∃ before p after pre fs, es = pre ++ fs ∧ EndedAt limit ps o before p after pre fs := by
  induction h with
  | last p o es h => exact ⟨[], p, [], [], es, rfl, rfl, .nil, h, fun _ => rfl⟩
  | fails p q ps o es h hne => exact ⟨[], p, q :: ps, [], es, rfl, rfl, .nil, h, fun ho => absurd ho hne⟩
  | goesOn p q ps o es fs h _ ih =>
    obtain ⟨before, r, after, pre, gs, rfl, hsteps, hok, hends, hlast⟩ := ih
    exact ⟨p :: before, r, after, es ++ pre, gs, by simp, by simp [hsteps], .cons p before es pre h hok, hends, hlast⟩

/-- The steps of a command before the one that ended it are none of STOP and RECV. -/
theorem EndedAt.before_continue {limit : Count} {i : Instr} {o : TxOutcome} {before : List Prim} {p : Prim}
    {after : List Prim} {pre fs : List Event} (h : EndedAt limit (primsOf i) o before p after pre fs) :
    ∀ q ∈ before, q.continues = true := by
  intro q hq
  apply primsOf_continues i
  rw [h.steps, List.dropLast_append_of_ne_nil (by simp)]
  exact List.mem_append_left _ hq

/-- A property of the events of every step that returned Ok holds of all their events. -/
theorem StepsOk.forall_mem {limit : Count} {before : List Prim} {pre : List Event} (h : StepsOk limit before pre)
    {P : Event → Prop} (hP : ∀ p ∈ before, ∀ es, StepEnds limit p .ok es → ∀ e ∈ es, P e) : ∀ e ∈ pre, P e := by
  induction h with
  | nil => simp
  | cons p ps es fs hp _ ih =>
    intro e he
    rcases List.mem_append.1 he with he | he
    · exact hP p (by simp) es hp e he
    · exact ih (fun q hq => hP q (List.mem_cons_of_mem p hq)) e he

/-- An adapter command or a data read, which only STOP, RECV and a failed START make. -/
def Event.isCommandOrByte : Event → Bool
  | .command _ => true
  | .readData _ => true
  | _ => false

/-- A step that is none of STOP and RECV and returned Ok made no adapter command and no data read. -/
theorem StepEnds.no_command_or_byte {limit : Count} {p : Prim} {es : List Event} (h : StepEnds limit p .ok es)
    (hp : p.continues = true) : ∀ e ∈ es, e.isCommandOrByte = false := by
  intro e he
  rcases h.events e he with ⟨b, rfl⟩ | ⟨a, f, d, -, -, rfl⟩ | ⟨x, -, rfl⟩ | ⟨q, x, rfl, -⟩ | ⟨q, rfl, -⟩ | ⟨rfl, -⟩ |
    ⟨a, f, -, ho, -⟩
  · rfl
  · rfl
  · rfl
  · cases hp
  · cases hp
  · cases hp
  · cases ho

/-- So the adapter commands and data reads of a command are those of the step that ended it. -/
theorem EndedAt.pre_no_command_or_byte {limit : Count} {i : Instr} {o : TxOutcome} {before : List Prim} {p : Prim}
    {after : List Prim} {pre fs : List Event} (h : EndedAt limit (primsOf i) o before p after pre fs) :
    ∀ e ∈ pre, e.isCommandOrByte = false :=
  h.okays.forall_mem fun q hq _ hes => hes.no_command_or_byte (h.before_continue q hq)

theorem EndedAt.mem_iff {limit : Count} {i : Instr} {o : TxOutcome} {before : List Prim} {p : Prim}
    {after : List Prim} {pre fs : List Event} (h : EndedAt limit (primsOf i) o before p after pre fs) {e : Event}
    (he : e.isCommandOrByte = true) : e ∈ pre ++ fs ↔ e ∈ fs := by
  have hpre : e ∉ pre := fun hmem => by simp [h.pre_no_command_or_byte e hmem] at he
  simp [hpre]

theorem EndedAt.mem_steps {limit : Count} {ps : List Prim} {o : TxOutcome} {before : List Prim} {p : Prim}
    {after : List Prim} {pre fs : List Event} (h : EndedAt limit ps o before p after pre fs) : p ∈ ps := by
  simp [h.steps]

theorem EndedAt.getLast?_of_ok {limit : Count} {ps : List Prim} {o : TxOutcome} {before : List Prim} {p : Prim}
    {after : List Prim} {pre fs : List Event} (h : EndedAt limit ps o before p after pre fs) (ho : o = .ok) :
    ps.getLast? = some p := by
  simp [h.steps, h.isLast ho]

/-! ### Where the steps stand in a command (R123) -/

/-- START is a first step. -/
theorem start_is_first {i : Instr} {before after : List Prim} {a : SlaveAddr} {f : DirField}
    (h : primsOf i = before ++ .start a f :: after) : before = [] := by
  cases i <;> rcases before with _ | ⟨_, _ | ⟨_, _ | ⟨_, _ | ⟨_, _⟩⟩⟩⟩ <;> simp_all [primsOf]

/-- RSTART is a command of its own or comes after a SEND. -/
theorem rstart_alone_or_after_send {i : Instr} {before after : List Prim} {a : SlaveAddr} {f : DirField}
    (h : primsOf i = before ++ .rstart a f :: after) : i = .rstart a f ∨ ∃ x, Prim.send x ∈ before := by
  cases i with
  | rdreg _ reg =>
    rcases before with _ | ⟨_, _ | ⟨_, _ | ⟨_, _ | ⟨_, _⟩⟩⟩⟩ <;> simp [primsOf] at h
    obtain ⟨-, hsend, -⟩ := h
    exact .inr ⟨reg, by simp [hsend]⟩
  | _ => rcases before with _ | ⟨_, _ | ⟨_, _ | ⟨_, _ | ⟨_, _⟩⟩⟩⟩ <;> simp_all [primsOf]

/-- The commands with a STOP step have it last. -/
theorem stop_last_iff (i : Instr) : (primsOf i).getLast? = some .stop ↔
    i = .stop ∨ (∃ a r b, i = .wrreg a r b) ∨ ∃ a b, i = .wrbyte a b := by
  cases i <;> simp [primsOf]

/-- The commands that return a byte are those whose last step is RECV. -/
theorem recv_last_iff (i : Instr) (p : AckPolicy) : (primsOf i).getLast? = some (.recv p) ↔
    returnsByte i = true ∧ (p = .ack ↔ i = .recv .ack) := by
  cases i with
  | recv q => cases p <;> cases q <;> simp [primsOf, returnsByte]
  | _ => cases p <;> simp [primsOf, returnsByte]

/-! ### The stop command (O30) -/

/-- A step makes the stop command when it is STOP or a START that was not acknowledged (R103). -/
theorem StepEnds.stop_mem_iff {limit : Count} {p : Prim} {o : TxOutcome} {es : List Event} (h : StepEnds limit p o es) :
    Event.command .stop ∈ es ↔ p = .stop ∨ (o = .nack ∧ ∃ a f, p = .start a f) := by
  cases h with
  | recvOk q b0 bs b x => cases q <;> simp [statusReads, receiveCmd]
  | _ => simp [statusReads]

/-- It is then the step's last event, and the only one of its kind. -/
theorem StepEnds.stop_is_last {limit : Count} {p : Prim} {o : TxOutcome} {es : List Event} (h : StepEnds limit p o es)
    (hs : Event.command .stop ∈ es) : ∃ pre, es = pre ++ [.command .stop] ∧ Event.command .stop ∉ pre := by
  cases h with
  | startNack a f d b0 bs b => exact ⟨_, rfl, by simp [statusReads]⟩
  | stopOk => exact ⟨[], rfl, by simp⟩
  | recvOk q b0 bs b x => cases q <;> simp [statusReads, receiveCmd] at hs
  | _ => simp [statusReads] at hs

/-- A step that is not acknowledged is START, RSTART or SEND, and SEND has then written its byte. -/
theorem StepEnds.of_nack {limit : Count} {p : Prim} {es : List Event} (h : StepEnds limit p .nack es) :
    (∃ a f, p = .start a f) ∨ (∃ a f, p = .rstart a f) ∨ ∃ x, p = .send x ∧ Event.writeData x ∈ es := by
  cases h with
  | startNack a f => exact .inl ⟨a, f, rfl⟩
  | rstartNack a f => exact .inr (.inl ⟨a, f, rfl⟩)
  | sendNack x => exact .inr (.inr ⟨x, rfl, by simp⟩)

/-- SEND that returned Ok has written its byte. -/
theorem StepsOk.writeData_mem {limit : Count} {before : List Prim} {pre : List Event} (h : StepsOk limit before pre)
    {x : Byte} (hx : Prim.send x ∈ before) : Event.writeData x ∈ pre := by
  induction h with
  | nil => cases hx
  | cons p ps es fs hp _ ih =>
    rcases List.mem_cons.1 hx with rfl | hx
    · cases hp
      simp
    · exact List.mem_append_right _ (ih hx)

/-- A START that was not acknowledged is known by its command and by no byte having been written. -/
theorem EndedAt.fresh_nack_iff {limit : Count} {i : Instr} {o : TxOutcome} {before : List Prim} {p : Prim}
    {after : List Prim} {pre fs : List Event} (h : EndedAt limit (primsOf i) o before p after pre fs) (ho : o = .nack) :
    (∃ a f, p = .start a f) ↔ (∀ a d, i ≠ .rstart a d) ∧ (∀ x, i ≠ .send x) ∧ ∀ x, Event.writeData x ∉ pre ++ fs := by
  subst ho
  constructor
  · rintro ⟨a, f, rfl⟩
    have hbefore := start_is_first h.steps
    subst hbefore
    refine ⟨?_, ?_, fun x hx => ?_⟩
    · rintro a d rfl
      simpa [primsOf] using h.steps
    · rintro x rfl
      simpa [primsOf] using h.steps
    · cases h.okays
      simpa using h.ends.events _ hx
  · rintro ⟨hrstart, hsend, hwrite⟩
    rcases h.ends.of_nack with hstart | ⟨a, f, rfl⟩ | ⟨x, rfl, hx⟩
    · exact hstart
    · rcases rstart_alone_or_after_send h.steps with hi | ⟨x, hx⟩
      · exact absurd hi (hrstart a f)
      · exact absurd (List.mem_append_left _ (h.okays.writeData_mem hx)) (hwrite x)
    · exact absurd (List.mem_append_right _ hx) (hwrite x)

/-- STOP ends a run just when the command is STOP or is a composite that writes and returned Ok. -/
theorem EndedAt.eq_stop_iff {limit : Count} {i : Instr} {o : TxOutcome} {before : List Prim} {p : Prim}
    {after : List Prim} {pre fs : List Event} (h : EndedAt limit (primsOf i) o before p after pre fs) :
    p = .stop ↔ i = .stop ∨ (o = .ok ∧ ((∃ a r b, i = .wrreg a r b) ∨ ∃ a b, i = .wrbyte a b)) := by
  constructor
  · rintro rfl
    have ho : o = .ok := by cases h.ends; rfl
    rcases (stop_last_iff i).1 (h.getLast?_of_ok ho) with hi | hi
    · exact .inl hi
    · exact .inr ⟨ho, hi⟩
  · rintro (rfl | ⟨ho, hi⟩)
    · simpa [primsOf] using h.mem_steps
    · have hlast := (stop_last_iff i).2 (.inr hi)
      rw [h.getLast?_of_ok ho] at hlast
      exact Option.some.inj hlast

/-- Settles O30: only the step that ended the run can have made the stop command, as STOP or as a START not acknowledged. -/
theorem stopCommandOnlyWhereTheRuleSays : Obligations.StopCommandOnlyWhereTheRuleSays := by
  intro i s
  obtain ⟨o, u, es, hexec, hrun⟩ := exec_spec i s
  obtain ⟨before, p, after, pre, fs, rfl, hat⟩ := hrun.ends.endedAt
  have hmem : Event.command .stop ∈ pre ++ fs ↔ Event.command .stop ∈ fs := hat.mem_iff rfl
  refine ⟨_, _, hexec, hrun.ran_respond _, ?_, fun hs => ?_⟩
  · rw [hmem, hat.ends.stop_mem_iff, hat.eq_stop_iff, or_assoc, rspOutcome_respond, TxOutcome.code_ok, TxOutcome.code_nack]
    exact or_congr_right (or_congr_right (and_congr_right hat.fresh_nack_iff))
  · obtain ⟨gs, rfl, hgs⟩ := hat.ends.stop_is_last (hmem.1 hs)
    refine ⟨pre ++ gs, by simp, fun hs' => ?_⟩
    rcases List.mem_append.1 hs' with hpre | hg
    · cases hat.pre_no_command_or_byte _ hpre
    · exact hgs hg

/-! ### The rest phase and the number of events (O31, O32, O33) -/

/-- Settles O31: `phaseAfter` of a run of steps, the receive timeout by its outcome code. -/
theorem restPhaseFollowsTheLastWrite : Obligations.RestPhaseFollowsTheLastWrite := by
  intro i s
  obtain ⟨o, u, es, hexec, hrun⟩ := exec_spec i s
  refine ⟨_, es, hexec, hrun.ran_respond _, hrun.phase.trans ?_⟩
  rw [rspOutcome_respond]
  unfold phaseAfter
  cases lastWrite? es with
  | some e => rfl
  | none => simp only [TxOutcome.code_receiveTimeout]

/-- The greatest number of events of a step that returns Ok (R161). -/
def Prim.okEvents : Prim → Nat → Nat
  | .start _ _, n => n + 2
  | .rstart _ _, n => n + 2
  | .stop, _ => 1
  | .send _, n => n + 2
  | .recv _, n => n + 3

/-- The greatest number of events of a step: only START has one more when it fails, the implicit stop (R161). -/
def Prim.maxEvents : Prim → Nat → Nat
  | .start _ _, n => n + 3
  | p, n => p.okEvents n

theorem StepEnds.length_le {limit : Count} {p : Prim} {o : TxOutcome} {es : List Event} (h : StepEnds limit p o es) :
    es.length ≤ p.maxEvents limit.toNat ∧ (o = .ok → es.length ≤ p.okEvents limit.toNat) := by
  have hexp {f : CompletionFlag} {bs : List Byte} (hw : WaitExpires f limit bs) : bs.length = limit.toNat := hw.1
  have hsees {f : CompletionFlag} {bs : List Byte} {b : Byte} (hw : WaitSees f limit bs b) : bs.length < limit.toNat := hw.1
  cases h with
  | startTimeout _ _ _ _ _ _ _ hw | rstartTimeout _ _ _ _ _ _ _ hw | sendTimeout _ _ _ _ hw | recvTimeout _ _ _ _ hw =>
    have := hexp hw
    simp [Prim.maxEvents, Prim.okEvents]
    omega
  | startNack _ _ _ _ _ _ _ _ hw _ | startOk _ _ _ _ _ _ _ _ hw _ | rstartNack _ _ _ _ _ _ _ _ hw _
  | rstartOk _ _ _ _ _ _ _ _ hw _ | sendNack _ _ _ _ _ hw _ | sendOk _ _ _ _ _ hw _ | recvOk _ _ _ _ _ _ hw =>
    have := hsees hw
    simp [Prim.maxEvents, Prim.okEvents]
    omega
  | _ => simp [Prim.maxEvents, Prim.okEvents]

theorem StepsOk.length_le {limit : Count} {before : List Prim} {pre : List Event} (h : StepsOk limit before pre) :
    pre.length ≤ (before.map (·.okEvents limit.toNat)).sum := by
  induction h with
  | nil => simp
  | cons p ps es fs hp _ ih =>
    have := hp.length_le.2 rfl
    simp
    omega

theorem Prim.okEvents_pos (p : Prim) (n : Nat) : 1 ≤ p.okEvents n := by cases p <;> simp [Prim.okEvents]

theorem Prim.maxEvents_le (p : Prim) (n : Nat) : p.maxEvents n ≤ p.okEvents n + 1 := by
  cases p <;> simp [Prim.maxEvents, Prim.okEvents]

/-- The table of R161 by the steps of a command. -/
theorem sum_okEvents_le (i : Instr) (n : Nat) : ((primsOf i).map (·.okEvents n)).sum ≤ maxEvents i n := by
  cases i <;> simp [primsOf, Prim.okEvents, Machine.maxEvents] <;> omega

/-- The bound of a command is that of its steps, whichever of them ends it (R161): the implicit stop of a START in a composite
comes in place of the steps not begun. -/
theorem maxEvents_of_steps {i : Instr} {before after : List Prim} {p : Prim} (h : primsOf i = before ++ p :: after)
    (n : Nat) : (before.map (·.okEvents n)).sum + p.maxEvents n ≤ maxEvents i n := by
  have hcommand := sum_okEvents_le i n
  have hp := p.maxEvents_le n
  cases after with
  | cons q qs =>
    have hq := q.okEvents_pos n
    rw [h] at hcommand
    simp at hcommand
    omega
  | nil =>
    cases p with
    | start a f =>
      have hbefore := start_is_first h
      subst hbefore
      cases i <;> simp_all [primsOf, Prim.maxEvents, Machine.maxEvents]
    | _ => simpa [h, Prim.maxEvents] using hcommand

/-- Settles O32: the steps that returned Ok and the one that ended the run stay within their bounds. -/
theorem eventsAreBounded : Obligations.EventsAreBounded := by
  intro i s
  obtain ⟨o, u, es, hexec, hrun⟩ := exec_spec i s
  refine ⟨_, es, hexec, hrun.ran_respond _, ?_, ?_⟩
  · obtain ⟨before, p, after, pre, fs, rfl, hat⟩ := hrun.ends.endedAt
    have hpre := hat.okays.length_le
    have hfs := hat.ends.length_le.1
    have hmax := maxEvents_of_steps hat.steps s.limit.toNat
    rw [List.length_append]
    omega
  · rintro rfl
    cases hrun.ends with
    | last _ _ _ h => cases h; rfl

/-- The longest wait that sees its flag: `LIMIT` reads, the flag in the last. -/
theorem longest_wait (f : CompletionFlag) {limit : Count} (h : 1 ≤ limit.toNat) {b : Byte} (hb : f.seenIn b = true) :
    WaitSees f limit (List.replicate (limit.toNat - 1) 0#8) b := by
  refine ⟨by simp; omega, fun x hx => ?_, hb⟩
  rw [List.eq_of_mem_replicate hx]
  cases f <;> decide

/-- Each step with a direction has a run that returns Ok with its greatest number of events: the check passes and the flag shows in
the last read. -/
theorem exists_longest_ok {limit : Count} (h : 1 ≤ limit.toNat) {p : Prim} (hp : p.directionOk = true) :
    ∃ es, StepEnds limit p .ok es ∧ es.length = p.okEvents limit.toNat := by
  have hwait (f : CompletionFlag) := longest_wait f h (b := 0xC0#8) (by cases f <;> decide)
  cases p with
  | start a f =>
    obtain ⟨d, hd⟩ := Option.isSome_iff_exists.1 hp
    exact ⟨_, .startOk a f d 0x01#8 _ _ hd (by decide) (hwait _) (by decide), by simp [Prim.okEvents]; omega⟩
  | rstart a f =>
    obtain ⟨d, hd⟩ := Option.isSome_iff_exists.1 hp
    exact ⟨_, .rstartOk a f d 0x02#8 _ _ hd (by decide) (hwait _) (by decide), by simp [Prim.okEvents]; omega⟩
  | stop => exact ⟨_, .stopOk, rfl⟩
  | send x => exact ⟨_, .sendOk x 0x02#8 _ _ (by decide) (hwait _) (by decide), by simp [Prim.okEvents]; omega⟩
  | recv q => exact ⟨_, .recvOk q 0x02#8 _ _ 0#8 (by decide) (hwait _), by simp [Prim.okEvents]; omega⟩

/-- So has a run of such steps. -/
theorem exists_longest_run {limit : Count} (h : 1 ≤ limit.toNat) : ∀ {ps : List Prim}, ps ≠ [] →
    (∀ p ∈ ps, p.directionOk = true) →
    ∃ es, StepsEnd limit ps .ok es ∧ es.length = (ps.map (·.okEvents limit.toNat)).sum
  | [], hne, _ => absurd rfl hne
  | [p], _, hps => by
    obtain ⟨es, hends, hlen⟩ := exists_longest_ok h (hps p (by simp))
    exact ⟨es, .last p .ok es hends, by simpa using hlen⟩
  | p :: q :: ps, _, hps => by
    obtain ⟨es, hends, hlen⟩ := exists_longest_ok h (hps p (by simp))
    obtain ⟨fs, hrest, hlen'⟩ := exists_longest_run h (ps := q :: ps) (by simp) fun r hr => hps r (List.mem_cons_of_mem p hr)
    exact ⟨es ++ fs, .goesOn p q ps .ok es fs hends hrest, by rw [List.length_append, hlen, hlen']; simp⟩

/-- Each command has a run with its greatest number of events; for START it is the one that ends with the implicit stop. -/
theorem exists_longest_command {limit : Count} (h : 1 ≤ limit.toNat) {i : Instr}
    (hi : ∀ p ∈ primsOf i, p.directionOk = true) :
    ∃ o es, StepsEnd limit (primsOf i) o es ∧ es.length = maxEvents i limit.toNat := by
  obtain ⟨es, hends, hlen⟩ := exists_longest_run h (primsOf_ne_nil i) hi
  cases i with
  | start a f =>
    obtain ⟨d, hd⟩ := Option.isSome_iff_exists.1 (hi (.start a f) (by simp [primsOf]))
    exact ⟨_, _, .last _ _ _ (.startNack a f d 0x01#8 _ 0xD0#8 hd (by decide)
      (longest_wait _ h (by cases d <;> decide)) (by decide)), by simp [Machine.maxEvents]; omega⟩
  | _ => exact ⟨_, es, hends, by rw [hlen]; simp +arith [primsOf, Prim.okEvents, Machine.maxEvents]⟩

/-- Settles O33: a script can hold the answers of the longest run. -/
theorem eventBoundsAreReached : Obligations.EventBoundsAreReached := by
  intro i limit h hdir
  have hi : ∀ p ∈ primsOf i, p.directionOk = true := by
    cases i with
    | start a d =>
      rcases hdir a d (.inl rfl) with rfl | rfl <;> simp [primsOf, Prim.directionOk, direction?]
    | rstart a d =>
      rcases hdir a d (.inr rfl) with rfl | rfl <;> simp [primsOf, Prim.directionOk, direction?]
    | _ => simp [primsOf, Prim.directionOk, direction_write, direction_read]
  obtain ⟨o, es, hends, hlen⟩ := exists_longest_command h hi
  obtain ⟨u, hexec, hrun⟩ := exec_scripted hends
  exact ⟨_, _, es, rfl, hexec, hrun.ran_respond _, hlen⟩

end Sys2Proof.Machine
end

section
/-!
What a command's accesses, registers and response come from (10_state.md R24, R26, R28, 20_memory.md R41 to R45), and a composite
beside its expansion (30_encoding.md R82).
-/

namespace Sys2Proof.Machine

/-! ### Data reads and commands of the receive (O35, O36, O37) -/

/-- A command that made a data read is one that returns a byte, and returned Ok (R43, R110). -/
theorem RunDid.readData_mem {i : Instr} {s u : State} {o : TxOutcome} {es : List Event} (h : RunDid (primsOf i) s o u es)
    {b : Byte} (hb : Event.readData b ∈ es) : returnsByte i = true ∧ o = .ok := by
  obtain ⟨before, p, after, pre, fs, rfl, hat⟩ := h.ends.endedAt
  have hfs := (hat.mem_iff (e := .readData b) rfl).1 hb
  obtain ⟨q, x, rfl, rfl, -⟩ : ∃ q x, p = .recv q ∧ o = .ok ∧ Event.readData b = .readData x := by
    simpa using hat.ends.events _ hfs
  exact ⟨((recv_last_iff i q).1 (hat.getLast?_of_ok rfl)).1, rfl⟩

theorem lastByte?_eq_none {es : List Event} (h : ∀ b, Event.readData b ∉ es) : lastByte? es = none := by
  induction es with
  | nil => rfl
  | cons e es ih =>
    rw [lastByte?_cons, ih fun b hb => h b (List.mem_cons_of_mem e hb)]
    cases e with
    | readData b => exact absurd (by simp) (h b)
    | _ => rfl

/-- A response that carries a byte carries `RXBYTE`, the last byte read (R24, R127). -/
theorem RunDid.byte_of_dv {i : Instr} {s u : State} {o : TxOutcome} {es : List Event} (h : RunDid (primsOf i) s o u es)
    (hdv : rspDv (u.respond (returnsByte i) o).rsp = true) :
    rspData (u.respond (returnsByte i) o).rsp = u.rxByte ∧ lastByte? es = some u.rxByte := by
  obtain ⟨hi, rfl⟩ : returnsByte i = true ∧ o = .ok := by simpa using hdv
  rw [hi]
  refine ⟨rspData_respond_ok u, ?_⟩
  obtain ⟨p, hp⟩ : ∃ p, (primsOf i).getLast? = some (.recv p) := by
    by_cases hack : i = .recv .ack
    · exact ⟨.ack, (recv_last_iff i .ack).2 ⟨hi, by simp [hack]⟩⟩
    · exact ⟨.nack, (recv_last_iff i .nack).2 ⟨hi, by simp [hack]⟩⟩
  obtain ⟨pre, x, rfl, hx, -⟩ := h.byte_of_ok hp rfl
  have hx : u.rxByte = x := hx
  simp [lastByte?_append, lastByte?_cons, hx]

/-- Settles O36: the steps capture each answer, and `respond` puts `RXBYTE` in the response. -/
theorem answersAreCaptured : Obligations.AnswersAreCaptured := by
  intro i s
  obtain ⟨o, u, es, hexec, hrun⟩ := exec_spec i s
  exact ⟨_, es, hexec, hrun.ran_respond _, hrun.rxByte, hrun.sample, hrun.byte_of_dv⟩

/-- Settles O34: the environment and the count of reads decide the run, and the run decides the response. -/
theorem commandsIgnoreTheEnginesHistory : Obligations.CommandsIgnoreTheEnginesHistory := by
  intro i s s' henv hreads hlimit
  obtain ⟨o, u, es, hexec, hrun⟩ := exec_spec i s
  obtain ⟨o', u', es', hexec', hrun'⟩ := exec_spec i s'
  have hreplay : s.env.replay s.reads es' = some u'.env := by rw [henv, hreads]; exact hrun'.ran.2.1
  obtain ⟨rfl, rfl⟩ := hrun.ends.det (X := []) (Y := []) (hlimit ▸ hrun'.ends) (by simpa using hrun.ran.2.1)
    (by simpa using hreplay)
  refine ⟨_, _, es, hexec, hexec', hrun.ran_respond _, hrun'.ran_respond _,
    Option.some.inj (hrun.ran.2.1.symm.trans hreplay), by simp, by simp, by simp, fun hdv => ?_⟩
  obtain ⟨hdata, hbyte⟩ := hrun.byte_of_dv hdv
  obtain ⟨hdata', hbyte'⟩ := hrun'.byte_of_dv (by simpa using hdv)
  rw [hdata, hdata']
  exact Option.some.inj (hbyte.symm.trans hbyte')

/-- A primitive whose check fails leaves `poll_cnt` (R98, R100, R108, R110). -/
theorem primStep_pollCnt {p : Prim} {s t : State} {o : TxOutcome} (h : primStep p s = (o, t))
    (ho : (∃ b, o = .busBusy b) ∨ o = .invalidDirection) : t.pollCnt = s.pollCnt := by
  cases p with
  | start a d =>
    have hends := startStep_spec a d s
    rw [show startStep a d s = (o, t) from h] at hends
    cases hends <;> simp_all
  | rstart a d =>
    have hends := rstartStep_spec a d s
    rw [show rstartStep a d s = (o, t) from h] at hends
    cases hends <;> simp_all
  | stop => cases h; simp at ho
  | send x =>
    have hends := sendStep_spec x s
    rw [show sendStep x s = (o, t) from h] at hends
    cases hends <;> simp_all
  | recv q =>
    have hends := recvStep_spec q s
    rw [show recvStep q s = (o, t) from h] at hends
    cases hends <;> simp_all

/-- A primitive command is its one step, answered. -/
theorem exec_single {i : Instr} {p : Prim} (hp : primsOf i = [p]) (s : State) :
    ∃ o t, primStep p s = (o, t) ∧ exec i s = .next (t.respond (returnsByte i) o) := by
  obtain ⟨o, t, es, hstep, -⟩ := primStep_spec p s
  have hrun : runPrims [p] s = (o, t) := hstep
  exact ⟨o, t, hstep, by rw [exec_eq, hp, hrun]; rfl⟩

/-- STOP, SEND and RECV have no START or RSTART step (R27). -/
theorem no_address_step {i : Instr} (h : i = .stop ∨ (∃ x, i = .send x) ∨ ∃ p, i = .recv p) :
    ∀ p ∈ primsOf i, (∀ a d, p ≠ .start a d) ∧ ∀ a d, p ≠ .rstart a d := by
  rcases h with rfl | ⟨x, rfl⟩ | ⟨p, rfl⟩ <;> simp [primsOf]

/-- Settles O37: the frame of the run of steps; the response writes nothing of it. -/
theorem commandFrame : Obligations.CommandFrame := by
  intro i s t ht
  obtain ⟨o, u, es, hexec, hrun⟩ := exec_spec i s
  cases hexec.symm.trans ht
  refine ⟨hrun.lat, hrun.limit, hrun.pins, hrun.cfg, hrun.moves, fun hi => hrun.fresh (no_address_step hi), hrun.stepOne,
    fun ho => hrun.stepOk (TxOutcome.code_ok.1 (by simpa using ho)), fun hi => ?_, fun hlen ho => ?_⟩
  · have hnone : lastByte? es = none := lastByte?_eq_none fun b hb => by
      obtain ⟨hbyte, rfl⟩ := hrun.readData_mem hb
      simp [hbyte, TxOutcome.code] at hi
    exact hrun.rxByte.trans (by simp [hnone])
  · obtain ⟨p, hp⟩ := List.length_eq_one_iff.1 hlen
    obtain ⟨o', v, hstep, hexec'⟩ := exec_single hp s
    have hsame : u.respond (returnsByte i) o = v.respond (returnsByte i) o' :=
      Host.Outcome.next.inj (hexec.symm.trans hexec')
    have hcode : o.code = o'.code := by
      rw [← rspOutcome_respond o (returnsByte i) u, hsame, rspOutcome_respond]
    rw [rspOutcome_respond, hcode, TxOutcome.code_busBusy, TxOutcome.code_invalidDirection] at ho
    have hcnt : v.pollCnt = s.pollCnt := primStep_pollCnt hstep ho
    exact (congrArg State.pollCnt hsame).trans hcnt

/-! ### Accesses (O35) -/

/-- The events of the kind `E` are the work of the steps of the kind `P`, one each: at most one, and exactly one on Ok. -/
def MadeBy (limit : Count) (E : Event → Bool) (P : Prim → Bool) : Prop :=
  ∀ p o es, StepEnds limit p o es → es.countP E ≤ (P p).toNat ∧ (o = .ok → es.countP E = (P p).toNat)

/-- So it is with a run of steps. -/
theorem MadeBy.run {limit : Count} {E : Event → Bool} {P : Prim → Bool} (hm : MadeBy limit E P) {ps : List Prim}
    {o : TxOutcome} {es : List Event} (h : StepsEnd limit ps o es) :
    es.countP E ≤ ps.countP P ∧ (o = .ok → es.countP E = ps.countP P) := by
  have hcons (p : Prim) (ps : List Prim) : (p :: ps).countP P = (P p).toNat + ps.countP P := by
    rw [List.countP_cons]
    cases P p <;> simp [Nat.add_comm]
  induction h with
  | last p o es h => simpa [hcons] using hm p o es h
  | fails p q ps o es h hne =>
    have := (hm p o es h).1
    exact ⟨by rw [hcons]; omega, fun ho => absurd ho hne⟩
  | goesOn p q ps o es fs h _ ih =>
    have := (hm p .ok es h).2 rfl
    rw [List.countP_append, hcons]
    exact ⟨by omega, fun ho => by have := ih.2 ho; omega⟩

theorem countP_statusReads {E : Event → Bool} (hE : ∀ b, E (.readStatus b) = false) (bs : List Byte) :
    (statusReads bs).countP E = 0 := by
  rw [List.countP_eq_zero]
  simp [statusReads, hE]

theorem madeBy_address (limit : Count) : MadeBy limit Event.isAddrWrite Prim.isAddress := by
  intro p o es h
  have hreads := countP_statusReads (E := Event.isAddrWrite) fun _ => rfl
  cases h <;> simp [hreads, List.countP_cons, Event.isAddrWrite, Prim.isAddress]

theorem madeBy_send (limit : Count) : MadeBy limit Event.isDataWrite Prim.isSend := by
  intro p o es h
  have hreads := countP_statusReads (E := Event.isDataWrite) fun _ => rfl
  cases h <;> simp [hreads, List.countP_cons, Event.isDataWrite, Prim.isSend]

theorem madeBy_recv (limit : Count) : MadeBy limit Event.isDataRead Prim.isRecv := by
  intro p o es h
  have hreads := countP_statusReads (E := Event.isDataRead) fun _ => rfl
  cases h <;> simp [hreads, List.countP_cons, Event.isDataRead, Prim.isRecv]

/-- The command of a policy is made once by the RECV of that policy that returns Ok, and by no other step (R111). -/
theorem StepEnds.count_receiveCmd {limit : Count} {p : Prim} {o : TxOutcome} {es : List Event} (h : StepEnds limit p o es)
    (q : AckPolicy) : es.count (.command (receiveCmd q)) = if p = .recv q ∧ o = .ok then 1 else 0 := by
  have hreads (c : AdapterCmd) (bs : List Byte) : (statusReads bs).count (.command c) = 0 := by
    simp [List.count_eq_zero, statusReads]
  cases h with
  | recvOk q' => cases q <;> cases q' <;> simp [hreads, receiveCmd]
  | _ => cases q <;> simp [hreads, receiveCmd]

/-- So it is with a command whose last step is that RECV. -/
theorem RunDid.count_receiveCmd {i : Instr} {s u : State} {o : TxOutcome} {es : List Event} (h : RunDid (primsOf i) s o u es)
    (q : AckPolicy) : es.count (.command (receiveCmd q)) =
      if returnsByte i = true ∧ (q = .ack ↔ i = .recv .ack) ∧ o = .ok then 1 else 0 := by
  obtain ⟨before, p, after, pre, fs, rfl, hat⟩ := h.ends.endedAt
  have hpre : pre.count (.command (receiveCmd q)) = 0 :=
    List.count_eq_zero.2 fun hmem => by cases hat.pre_no_command_or_byte _ hmem
  have hlast : (p = .recv q ∧ o = .ok) ↔ returnsByte i = true ∧ (q = .ack ↔ i = .recv .ack) ∧ o = .ok := by
    rw [← and_assoc, ← recv_last_iff]
    refine and_congr_left fun ho => ?_
    rw [hat.getLast?_of_ok ho, Option.some.injEq]
  rw [List.count_append, hpre, hat.ends.count_receiveCmd, Nat.zero_add]
  simp only [hlast]

/-- The address and the direction of a START or RSTART step are those the command's row names (R123). -/
theorem address_of_step {i : Instr} {a : SlaveAddr} {f : DirField} {d : Direction}
    (hstep : .start a f ∈ primsOf i ∨ .rstart a f ∈ primsOf i) (hd : direction? f = some d) :
    (∃ f, i = .start a f ∧ direction? f = some d) ∨ (∃ f, i = .rstart a f ∧ direction? f = some d) ∨
      (∃ r x, i = .wrreg a r x ∧ d = .write) ∨ (∃ r, i = .rdreg a r) ∨ (∃ x, i = .wrbyte a x ∧ d = .write) ∨
      (i = .rdbyte a ∧ d = .read) := by
  cases i with
  | rdreg addr reg =>
    have ha : a = addr := by
      simp only [primsOf, List.mem_cons, Prim.start.injEq, Prim.rstart.injEq] at hstep
      tauto
    exact .inr (.inr (.inr (.inl ⟨reg, by rw [ha]⟩)))
  | _ => simp_all [primsOf, direction_write, direction_read]

/-- Settles O35: the events of a run are those of its steps, counted step by step, and the steps are the command's. -/
theorem accessesPerCommand : Obligations.AccessesPerCommand := by
  intro i s
  obtain ⟨o, u, es, hexec, hrun⟩ := exec_spec i s
  have hevents := hrun.ends.events
  have haddr := (madeBy_address s.limit).run hrun.ends
  have hsend := (madeBy_send s.limit).run hrun.ends
  have hrecv := (madeBy_recv s.limit).run hrun.ends
  have hack := hrun.count_receiveCmd .ack
  have hnack := hrun.count_receiveCmd .nack
  have hok : rspOutcome (u.respond (returnsByte i) o).rsp = 0#3 ↔ o = .ok := by
    rw [rspOutcome_respond, TxOutcome.code_ok]
  refine ⟨_, es, hexec, hrun.ran_respond _, ?_, ?_, ?_, ?_, ⟨haddr.1, hsend.1, hrecv.1⟩, ?_, ?_, ?_⟩
  · intro hmem
    obtain ⟨q, -, hq⟩ : ∃ q, Prim.recv q ∈ primsOf i ∧ AdapterCmd.none = receiveCmd q := by simpa using hevents _ hmem
    cases q <;> cases hq
  · intro b hb
    obtain ⟨a, f, d, hstep, hd, rfl⟩ : ∃ a f d, (.start a f ∈ primsOf i ∨ .rstart a f ∈ primsOf i) ∧
        direction? f = some d ∧ b = compose a d := by simpa using hevents _ hb
    exact ⟨a, d, rfl, address_of_step hstep hd⟩
  · intro b hb
    have hstep : Prim.send b ∈ primsOf i := by simpa using hevents _ hb
    cases i <;> simp [primsOf] at hstep ⊢ <;> simp [hstep]
  · intro b hb
    rw [hok]
    exact hrun.readData_mem hb
  · intro ho
    have ho := hok.1 ho
    exact ⟨haddr.2 ho, hsend.2 ho, hrecv.2 ho⟩
  · simp only [hok]
    exact hack.trans (by by_cases hi : i = .recv .ack <;> simp [hi, returnsByte])
  · simp only [hok]
    exact hnack.trans (by by_cases hi : i = .recv .ack <;> simp [hi])

/-! ### A composite beside its expansion (O29) -/

/-- The primitive command of a step. -/
def Prim.toInstr : Prim → Instr
  | .start a d => .start a d
  | .rstart a d => .rstart a d
  | .stop => .stop
  | .send b => .send b
  | .recv p => .recv p

@[simp] theorem primsOf_toInstr (p : Prim) : primsOf p.toInstr = [p] := by cases p <;> rfl

@[simp] theorem returnsByte_toInstr (p : Prim) : returnsByte p.toInstr = p.isRecv := by cases p <;> rfl

/-- The expansion of a command is its steps as commands (R82, R123). -/
theorem expansion_eq (i : Instr) : expansion i = (primsOf i).map Prim.toInstr := by cases i <;> rfl

/-- The last step is RECV. -/
def endsInRecv (ps : List Prim) : Bool := ps.getLast?.any Prim.isRecv

theorem endsInRecv_primsOf (i : Instr) : endsInRecv (primsOf i) = returnsByte i := by cases i <;> rfl

/-- A command presented to an engine at rest is accepted, run and answered. -/
theorem runCommand_encode (i : Instr) (limit : Count) (s : State) : ∃ o u es,
    runCommand (encode i) limit s = .next (u.respond (returnsByte i) o) ∧
      RunDid (primsOf i) (s.accept (encode i) limit) o u es := by
  rw [runCommand_legal (decode_encode i)]
  exact exec_spec i _

/-- What a host has done that presented the steps `ps` one by one under the bound `limit`, up to the first response not Ok: of what the
composite does, all but the fields that each acceptance and each response write. -/
structure HostDid (limit : Count) (ps : List Prim) (s : State) (o : TxOutcome) (u : State) (es : List Event) : Prop where
  ends    : StepsEnd limit ps o es
  ran     : Ran s u es
  phase   : u.phase = phaseAfter es o s.phase
  rxByte  : u.rxByte = (lastByte? es).getD s.rxByte
  outcome : rspOutcome u.rsp = o.code
  obs     : rspObs u.rsp = o.obsCode
  dv      : rspDv u.rsp = (endsInRecv ps && decide (o = .ok))
  data    : rspDv u.rsp = true → rspData u.rsp = u.rxByte

/-- One command, answered. -/
theorem hostDid_one (p : Prim) (limit : Count) (s : State) :
    ∃ o u es, runCommand (encode p.toInstr) limit s = .next u ∧ HostDid limit [p] s o u es := by
  obtain ⟨o, u, es, hrun, hdid⟩ := runCommand_encode p.toInstr limit s
  refine ⟨o, _, es, hrun, ?_⟩
  have hends := hdid.ends
  rw [primsOf_toInstr] at hends
  exact {
    ends := hends
    ran := (hdid.ran_respond _).congr rfl rfl rfl rfl rfl rfl
    phase := hdid.phase
    rxByte := hdid.rxByte
    outcome := rspOutcome_respond _ _ _
    obs := by simp
    dv := by simp [endsInRecv]
    data := fun hdv => (hdid.byte_of_dv hdv).1 }

/-- The next command after one that returned Ok. -/
theorem HostDid.trans {limit : Count} {p q : Prim} {ps : List Prim} {s t u : State} {o : TxOutcome} {es fs : List Event}
    (h : HostDid limit [p] s .ok t es) (k : HostDid limit (q :: ps) t o u fs) (hp : p.continues = true) :
    HostDid limit (p :: q :: ps) s o u (es ++ fs) := by
  have hstep : StepEnds limit p .ok es := by
    cases h.ends with
    | last _ _ _ hstep => exact hstep
  exact {
    ends := .goesOn p q ps o es fs hstep k.ends
    ran := h.ran.trans k.ran
    phase := by rw [k.phase, h.phase, phaseAfter_append hstep.write_of_ok (hstep.no_stop_of_ok hp)]
    rxByte := by
      rw [k.rxByte, h.rxByte, lastByte?_append]
      cases lastByte? fs <;> simp
    outcome := k.outcome
    obs := k.obs
    dv := by simpa [endsInRecv] using k.dv
    data := k.data }

/-- The host stops at a response that is not Ok. -/
theorem HostDid.stops {limit : Count} {p q : Prim} {ps : List Prim} {s t : State} {o : TxOutcome} {es : List Event}
    (h : HostDid limit [p] s o t es) (ho : o ≠ .ok) : HostDid limit (p :: q :: ps) s o t es := by
  have hstep : StepEnds limit p o es := by
    cases h.ends with
    | last _ _ _ hstep => exact hstep
  exact { h with ends := .fails p q ps o es hstep ho, dv := by simpa [ho] using h.dv }

theorem runHost_cons {limit : Count} {i : Instr} {is : List Instr} {s t : State}
    (h : runCommand (encode i) limit s = .next t) :
    runHost limit (i :: is) s = if rspOutcome t.rsp = 0#3 then runHost limit is t else .next t := by
  simp only [runHost, h]

/-- A host that presents the steps of a command one by one. -/
theorem runHost_spec (limit : Count) : ∀ (ps : List Prim) (s : State), ps ≠ [] →
    (∀ p ∈ ps.dropLast, p.continues = true) →
    ∃ o u es, runHost limit (ps.map Prim.toInstr) s = .next u ∧ HostDid limit ps s o u es
  | [], _, hne, _ => absurd rfl hne
  | [p], s, _, _ => by
    obtain ⟨o, u, es, hrun, hdid⟩ := hostDid_one p limit s
    exact ⟨o, u, es, (runHost_cons hrun).trans (ite_self _), hdid⟩
  | p :: q :: ps, s, _, hc => by
    obtain ⟨o, t, es, hrun, hdid⟩ := hostDid_one p limit s
    rw [List.map_cons, runHost_cons hrun, hdid.outcome]
    by_cases ho : o = .ok
    · subst ho
      obtain ⟨o', u, fs, hrest, hdid'⟩ := runHost_spec limit (q :: ps) t (by simp) fun r hr => hc r (by simp [hr])
      exact ⟨o', u, es ++ fs, (if_pos rfl).trans hrest, hdid.trans hdid' (hc p (by simp))⟩
    · exact ⟨o, t, es, if_neg (mt TxOutcome.code_ok.1 ho), hdid.stops ho⟩

/-- Settles O29: the steps of both are answered by one environment, so they are the same run, and the run decides what both leave. -/
theorem compositeEqualsItsExpansion : Obligations.CompositeEqualsItsExpansion := by
  intro i s limit
  obtain ⟨o, t, es, hrun, hdid⟩ := runCommand_encode i limit s
  obtain ⟨o', u, es', hhost, hhdid⟩ := runHost_spec limit (primsOf i) s (primsOf_ne_nil i) (primsOf_continues i)
  have hran : Ran s (t.respond (returnsByte i) o) es := (hdid.ran_respond _).congr rfl rfl rfl rfl rfl rfl
  obtain ⟨rfl, rfl⟩ := hdid.ends.det (X := []) (Y := []) hhdid.ends (by simpa using hran.2.1)
    (by simpa using hhdid.ran.2.1)
  have hrx : u.rxByte = t.rxByte := hhdid.rxByte.trans hdid.rxByte.symm
  have hdv : rspDv u.rsp = rspDv (t.respond (returnsByte i) o).rsp := by
    rw [hhdid.dv, endsInRecv_primsOf]
    simp
  refine ⟨_, u, hrun, by rw [expansion_eq, hhost], hhdid.ran.1.trans hran.1.symm,
    Option.some.inj (hhdid.ran.2.1.symm.trans hran.2.1), hhdid.phase.trans hdid.phase.symm, hrx, ?_, ?_, hdv, fun h => ?_⟩
  · rw [hhdid.outcome, rspOutcome_respond]
  · rw [hhdid.obs]
    simp
  · rw [hhdid.data (hdv.trans h), (hdid.byte_of_dv h).1, hrx]

end Sys2Proof.Machine
end

section
/-!
The engine event by event (10_state.md R33, R37): what one engine step can do, that the operation comes to the command's meaning,
that it ends within its bound (70_reset_and_hazards.md R161, R162), and the transitions of `phase`.
-/

namespace Sys2Proof.Machine

/-! ### The whole operation (O48) -/

theorem Phase.rest_of_atRest {p : Phase} (h : p.atRest = true) : p.rest = p := by
  cases p with
  | idle | data => rfl
  | _ => cases h

/-- Settles O48: the engine goes through the steps of the accepted command from its first event to the response. -/
theorem eventStepsAgreeWithTheCommand : Obligations.EventStepsAgreeWithTheCommand := by
  intro w i limit s hd hph
  have hinstr : (s.accept w limit).lat.instr? = some i := latches_of_decode hd
  have hprims : (s.accept w limit).prims = primsOf i := by simp only [State.prims, hinstr]
  have hbyte : (s.accept w limit).latchReturnsByte = returnsByte i := by simp only [State.latchReturnsByte, hinstr]
  obtain ⟨n, u, hrun, hbusy, hend, hlen⟩ := list_run (primsOf i) (primsOf_ne_nil i) (s.accept w limit) rfl rfl
    (Phase.rest_of_atRest hph) hprims
  refine ⟨n, _, exec_eq i _, ?_, by rw [hrun]; exact hbusy, hlen⟩
  rw [runEngine_add, hrun, runEngine_one hbusy, hend, hbyte]
  rfl

/-! ### What one engine step can do -/

/-- What the beginning of the primitive `p` makes of `s`: InvalidDirection ends the operation, STOP makes its command, and the others
read the status, which fails their check or lets them go on to their write, RECV to its wait. -/
inductive BeginDid (p : Prim) (s : State) : State → Prop where
  | invalid : p.directionOk = false → BeginDid p s (s.respond s.latchReturnsByte .invalidDirection)
  | stop : p = .stop → BeginDid p s { ({ s with phase := .stop } : State).paCommand .stop with pos := .done .ok }
  | fails (b : BusState) : p.required? = some b → busOf s.paReadStatus.sample ≠ b →
      BeginDid p s { s.paReadStatus with pos := .done (.busBusy (busOf s.paReadStatus.sample)) }
  | waits (q : AckPolicy) : p = .recv q → busOf s.paReadStatus.sample = .owner →
      BeginDid p s (s.paReadStatus.startWait .data)
  | passes : (∀ q, p ≠ .recv q) → p ≠ .stop → BeginDid p s { s.paReadStatus with pos := .write }

theorem beginPrim_did (p : Prim) (s : State) : BeginDid p s (beginPrim p s) := by
  unfold beginPrim
  by_cases hd : p.directionOk = true
  · rw [if_pos hd]
    unfold beginStep
    cases hr : p.required? with
    | none =>
      have hp : p = .stop := by cases p <;> simp_all [Prim.required?]
      exact .stop hp
    | some b =>
      dsimp only
      by_cases hb : busOf s.paReadStatus.sample ≠ b
      · rw [if_pos hb]
        exact .fails b hr hb
      · rw [if_neg hb]
        cases p with
        | recv q =>
          cases hr
          exact .waits q rfl (not_not.1 hb)
        | stop => cases hr
        | _ => exact .passes (by simp) (by simp)
  · rw [if_neg hd]
    exact .invalid (by simpa using hd)

/-- What follows a primitive that has returned `o`: the next primitive begins, or the operation ends. -/
inductive AdvanceDid (o : TxOutcome) (s : State) : State → Prop where
  | next (q : Prim) (t : State) : o = .ok → s.onLastStep = false → s.nextStep.currentPrim = some q →
      BeginDid q s.nextStep t → AdvanceDid o s t
  | ends : AdvanceDid o s (s.respond s.latchReturnsByte o)

/-- A command that is not on its last step has a next one. -/
theorem nextStep_currentPrim {s : State} (h : s.onLastStep = false) :
    s.nextStep.stepIx.toNat = s.stepIx.toNat + 1 ∧ ∃ q, s.nextStep.currentPrim = some q := by
  have hlt : s.stepIx.toNat + 1 < s.prims.length := by simpa [State.onLastStep] using h
  have hix : (s.stepIx + 1#2).toNat = s.stepIx.toNat + 1 := by
    have := prims_length_le s
    rw [BitVec.toNat_add]
    simp
    omega
  refine ⟨hix, s.prims[s.stepIx.toNat + 1], ?_⟩
  show s.prims[(s.stepIx + 1#2).toNat]? = _
  rw [hix, List.getElem?_eq_getElem hlt]

theorem advance_did (o : TxOutcome) (s : State) : AdvanceDid o s (advance o s) := by
  unfold advance
  by_cases h : o = .ok ∧ s.onLastStep = false
  · obtain ⟨ho, hlast⟩ := h
    obtain ⟨-, q, hq⟩ := nextStep_currentPrim hlast
    rw [if_pos ⟨ho, hlast⟩, hq]
    exact .next q _ ho hlast hq (beginPrim_did q _)
  · rw [if_neg h]
    exact .ends

/-- `s` with `phase` at the rest value it leads to (R33). -/
def State.rested (s : State) : State := { s with phase := s.phase.rest }

theorem settle_did (o : TxOutcome) (s : State) : AdvanceDid o s.rested (settle o s) := advance_did o s.rested

/-- What the acknowledgment check of a running primitive does: the implicit stop of a fresh address, or the primitive returns. -/
inductive AckCheckDid (p : Prim) (s : State) : State → Prop where
  | stops : (∃ a f, p = .start a f) ∨ (∃ a f, p = .rstart a f) → s.fresh = true →
      AckCheckDid p s { ({ s with phase := .stop } : State).paCommand .stop with pos := .done .nack }
  | settles (o : TxOutcome) : AckCheckDid p s (settle o s)

theorem ackCheckStep_did {p : Prim} {s : State} (h : posFits p .ackCheck s.phase = true) :
    AckCheckDid p s (ackCheckStep p s) := by
  unfold ackCheckStep
  cases p with
  | send x => exact .settles _
  | stop => cases h
  | recv q => cases h
  | start a f | rstart a f =>
    dsimp only
    split
    · split
      · next hf => exact .stops (by simp) hf
      · exact .settles _
    · exact .settles _

/-- An outcome that stands pending ends the operation: Ok only after the last step (R115). -/
theorem engineStep_of_done {s : State} (h : s.Inv) (hb : s.busy = true) {p : Prim} (hp : s.currentPrim = some p)
    {o : TxOutcome} (hpos : s.pos = .done o) : engineStep s = s.rested.respond s.latchReturnsByte o := by
  have hlast := (h.pending hb o hpos p hp).2
  rw [engine_done hpos hp]
  exact if_neg fun hgo => by
    have : s.onLastStep = false := hgo.2
    simp [hlast hgo.1] at this

/-! ### The operation ends (O49) -/

/-- How many events a primitive that stands at `pos` can still make when it does not end the operation with a stop, `c` of its `n`
iterations being done. -/
def leftInPrim (p : Prim) (n c : Nat) : SeqPos → Nat
  | .begin => p.okEvents n
  | .write => n + 1
  | .poll => n - c + if p.isRecv then 2 else 0
  | .ackCheck => 0
  | .dataRead => 2
  | .receiveCommand => 1
  | .done _ => 0

/-- The events that can follow the primitive: those of the steps after it, or the implicit stop of a START that is alone. -/
def State.leftAfter (s : State) (p : Prim) : Nat :=
  ((s.prims.drop (s.stepIx.toNat + 1)).map (·.okEvents s.limit.toNat)).sum +
    if s.onLastStep then p.maxEvents s.limit.toNat - p.okEvents s.limit.toNat else 0

/-- A bound on the events a running operation can still make, the primitive `p` being executed. -/
def State.stepsLeft (s : State) (p : Prim) : Nat :=
  match s.pos with
  | .done _ => 0
  | pos => leftInPrim p s.limit.toNat s.pollCnt.toNat pos + s.leftAfter p

/-- The operation has ended, or goes on with fewer than `n` events left. -/
def Nearer (n : Nat) (t : State) : Prop :=
  (t.busy = false ∧ t.rspValid = true) ∨ ∃ q, t.busy = true ∧ t.currentPrim = some q ∧ t.stepsLeft q < n

theorem nearer_respond (n : Nat) (s : State) (byte : Bool) (o : TxOutcome) : Nearer n (s.respond byte o) := .inl ⟨rfl, rfl⟩

theorem begin_nearer {p : Prim} {s t : State} (h : BeginDid p s t) (hb : s.busy = true) (hp : s.currentPrim = some p) :
    Nearer (p.okEvents s.limit.toNat + s.leftAfter p) t := by
  have hpos := p.okEvents_pos s.limit.toNat
  cases h with
  | invalid => exact nearer_respond _ _ _ _
  | stop => exact .inr ⟨p, hb, hp, by simp only [State.stepsLeft]; omega⟩
  | fails => exact .inr ⟨p, hb, hp, by simp only [State.stepsLeft]; omega⟩
  | waits q hq =>
    subst hq
    refine .inr ⟨_, hb, hp, ?_⟩
    show leftInPrim (.recv q) s.limit.toNat (0#16).toNat .poll + s.leftAfter _ < _
    simp [leftInPrim, Prim.okEvents, Prim.isRecv]
  | passes hrecv hstop =>
    refine .inr ⟨p, hb, hp, ?_⟩
    show leftInPrim p s.limit.toNat s.pollCnt.toNat .write + s.leftAfter p < _
    cases p with
    | recv q => exact absurd rfl (hrecv q)
    | stop => exact absurd rfl hstop
    | _ => simp [leftInPrim, Prim.okEvents]

theorem prims_eq_primsOf {s : State} {p : Prim} (hp : s.currentPrim = some p) :
    ∃ i, s.lat.instr? = some i ∧ s.prims = primsOf i := by
  cases hi : s.lat.instr? with
  | none => simp [State.currentPrim, State.prims, hi] at hp
  | some i => exact ⟨i, rfl, by simp [State.prims, hi]⟩

/-- The steps before, the present one and those after it make up the command. -/
theorem prims_eq_append {s : State} {p : Prim} (hp : s.currentPrim = some p) :
    s.prims = s.prims.take s.stepIx.toNat ++ p :: s.prims.drop (s.stepIx.toNat + 1) := by
  obtain ⟨hlt, hget⟩ := List.getElem?_eq_some_iff.1 hp
  rw [← hget, List.cons_getElem_drop_succ, List.take_append_drop]

/-- START is not a next step. -/
theorem next_no_start {s : State} {p q : Prim} (hp : s.currentPrim = some p) {rest : List Prim}
    (hrest : s.prims.drop (s.stepIx.toNat + 1) = q :: rest) : q.maxEvents s.limit.toNat = q.okEvents s.limit.toNat := by
  obtain ⟨i, -, hi⟩ := prims_eq_primsOf hp
  have heq := prims_eq_append hp
  rw [hrest, hi] at heq
  cases q with
  | start a f =>
    have hbefore := start_is_first (before := (primsOf i).take s.stepIx.toNat ++ [p]) (after := rest) (a := a) (f := f)
      (heq.trans (by simp))
    simp at hbefore
  | _ => rfl

/-- What follows a primitive that returned Ok is the next one and what follows that. -/
theorem leftAfter_next {s : State} {p q : Prim} (hlast : s.onLastStep = false) (hp : s.currentPrim = some p)
    (hq : s.nextStep.currentPrim = some q) :
    q.okEvents s.limit.toNat + s.nextStep.leftAfter q ≤ s.leftAfter p := by
  obtain ⟨hix, -⟩ := nextStep_currentPrim hlast
  obtain ⟨hlt, hget⟩ := List.getElem?_eq_some_iff.1 hq
  have hdrop : s.prims.drop (s.stepIx.toNat + 1) = q :: s.prims.drop (s.stepIx.toNat + 2) := by
    have := List.drop_eq_getElem_cons hlt
    rwa [hget, hix] at this
  have hq0 : s.nextStep.leftAfter q = ((s.prims.drop (s.stepIx.toNat + 2)).map (·.okEvents s.limit.toNat)).sum := by
    unfold State.leftAfter
    rw [hix]
    show _ + (if _ then q.maxEvents s.limit.toNat - q.okEvents s.limit.toNat else 0) = _
    rw [next_no_start hp hdrop]
    simp
    rfl
  rw [hq0]
  unfold State.leftAfter
  rw [hdrop]
  simp [hlast]

/-- A primitive that returns leaves no more than what can follow it. -/
theorem advance_nearer {o : TxOutcome} {p : Prim} {s t : State} (h : AdvanceDid o s t) (hb : s.busy = true)
    (hp : s.currentPrim = some p) : Nearer (s.leftAfter p) t := by
  cases h with
  | ends => exact nearer_respond _ _ _ _
  | next q t _ hlast hq hbegin =>
    have hle := leftAfter_next hlast hp hq
    rcases begin_nearer hbegin hb hq with hend | ⟨q', hb', hq', hlt⟩
    · exact .inl hend
    · exact .inr ⟨q', hb', hq', lt_of_lt_of_le hlt hle⟩

/-- After a START not acknowledged the implicit stop comes in place of the steps not begun. -/
theorem leftAfter_start_pos (s : State) (a : SlaveAddr) (f : DirField) : 0 < s.leftAfter (.start a f) := by
  unfold State.leftAfter
  cases hdrop : s.prims.drop (s.stepIx.toNat + 1) with
  | nil =>
    have hlast : s.onLastStep = true := by simpa [State.onLastStep] using List.drop_eq_nil_iff.1 hdrop
    simp [hlast, Prim.maxEvents, Prim.okEvents]
  | cons q qs =>
    have := q.okEvents_pos s.limit.toNat
    simp only [List.map_cons, List.sum_cons]
    omega

/-- A poll iteration, or the expiry that ends the operation. -/
theorem pollStep_nearer {s : State} {p : Prim} (hb : s.busy = true) (hp : s.currentPrim = some p) (hpos : s.pos = .poll) :
    Nearer (leftInPrim p s.limit.toNat s.pollCnt.toNat .poll + s.leftAfter p) (pollStep p s) := by
  unfold pollStep
  split
  · next hlt =>
    have hlt : s.pollCnt.toNat < s.limit.toNat := BitVec.lt_def.1 hlt
    have hlim := s.limit.isLt
    have hcnt : s.pollOnce.pollCnt.toNat = s.pollCnt.toNat + 1 := by
      rw [State.pollOnce_pollCnt, BitVec.toNat_add]
      simp
      omega
    dsimp only
    split
    · cases p with
      | recv q =>
        refine .inr ⟨_, hb, hp, ?_⟩
        show leftInPrim (.recv q) s.limit.toNat s.pollOnce.pollCnt.toNat .dataRead + s.leftAfter _ < _
        simp [leftInPrim, Prim.isRecv]
        omega
      | _ =>
        refine .inr ⟨_, hb, hp, ?_⟩
        show leftInPrim _ s.limit.toNat s.pollOnce.pollCnt.toNat .ackCheck + s.leftAfter _ < _
        simp [leftInPrim, Prim.isRecv]
        omega
    · have hleft : s.pollOnce.stepsLeft p = leftInPrim p s.limit.toNat s.pollOnce.pollCnt.toNat .poll + s.leftAfter p := by
        simp only [State.stepsLeft, State.pollOnce_pos, hpos]
        rfl
      refine .inr ⟨p, hb, hp, ?_⟩
      rw [hleft, hcnt]
      simp only [leftInPrim]
      omega
  · exact nearer_respond _ _ _ _

/-- Every engine step of a running operation brings it nearer to its end (R162). -/
theorem engineStep_nearer {s : State} (h : s.Inv) (hb : s.busy = true) {p : Prim} (hp : s.currentPrim = some p) :
    Nearer (s.stepsLeft p) (engineStep s) := by
  obtain ⟨p', hp', hfits⟩ := h.running hb
  cases hp.symm.trans hp'
  cases hpos : s.pos with
  | done o =>
    rw [engineStep_of_done h hb hp hpos]
    exact nearer_respond _ _ _ _
  | begin =>
    have hleft : s.stepsLeft p = p.okEvents s.limit.toNat + s.leftAfter p := by simp only [State.stepsLeft, hpos, leftInPrim]
    simp only [engineStep, hp, hpos, hleft]
    exact begin_nearer (beginPrim_did p s) hb hp
  | write =>
    have hleft : s.stepsLeft p = s.limit.toNat + 1 + s.leftAfter p := by simp only [State.stepsLeft, hpos, leftInPrim]
    simp only [engineStep, hp, hpos, hleft]
    rw [hpos] at hfits
    cases p with
    | stop => cases hfits
    | recv q => cases hfits
    | _ =>
      refine .inr ⟨_, hb, hp, ?_⟩
      show leftInPrim _ s.limit.toNat (0#16).toNat .poll + s.leftAfter _ < _
      simp [leftInPrim, Prim.isRecv]
  | poll =>
    have hleft : s.stepsLeft p = leftInPrim p s.limit.toNat s.pollCnt.toNat .poll + s.leftAfter p := by
      simp only [State.stepsLeft, hpos]
    simp only [engineStep, hp, hpos, hleft]
    exact pollStep_nearer hb hp hpos
  | ackCheck =>
    have hleft : s.stepsLeft p = s.leftAfter p := by simp only [State.stepsLeft, hpos, leftInPrim, Nat.zero_add]
    have hfresh := (h.fresh_kind hb (.inr hpos) p hp).2
    rw [hpos] at hfits
    rw [engine_ackCheck hpos hp, hleft]
    have hdid := ackCheckStep_did hfits
    generalize ackCheckStep p s = t at hdid
    cases hdid with
    | stops hkind hf =>
      rcases hkind with ⟨a, f, rfl⟩ | ⟨a, f, rfl⟩
      · exact .inr ⟨_, hb, hp, leftAfter_start_pos s a f⟩
      · simp [hf] at hfresh
    | settles o => exact advance_nearer (s := s.rested) (settle_did o s) hb hp
  | dataRead =>
    have hleft : s.stepsLeft p = 2 + s.leftAfter p := by simp only [State.stepsLeft, hpos, leftInPrim]
    simp only [engineStep, hp, hpos, hleft]
    rw [hpos] at hfits
    cases p with
    | recv q => exact .inr ⟨_, hb, hp, Nat.add_lt_add_right (by decide : 1 < 2) _⟩
    | _ => cases hfits
  | receiveCommand =>
    have hleft : s.stepsLeft p = 1 + s.leftAfter p := by simp only [State.stepsLeft, hpos, leftInPrim]
    simp only [engineStep, hp, hpos, hleft]
    rw [hpos] at hfits
    cases p with
    | recv q => cases q <;> exact .inr ⟨_, hb, hp, Nat.lt_add_right _ Nat.one_pos⟩
    | _ => cases hfits

/-- So it has ended after one step more than the events left. -/
theorem runEngine_ends {n : Nat} : ∀ {s : State}, s.Inv → s.busy = true → ∀ {p : Prim}, s.currentPrim = some p →
    s.stepsLeft p ≤ n → (runEngine (n + 1) s).busy = false ∧ (runEngine (n + 1) s).rspValid = true := by
  induction n with
  | zero =>
    intro s h hb p hp hn
    rw [runEngine_one hb]
    rcases engineStep_nearer h hb hp with hend | ⟨q, -, -, hlt⟩
    · exact hend
    · omega
  | succ n ih =>
    intro s h hb p hp hn
    rw [run_step hb]
    rcases engineStep_nearer h hb hp with hend | ⟨q, hb', hq, hlt⟩
    · rw [runEngine_rest (by simp [hend.1])]
      exact hend
    · exact ih (inv_engine h hb) hb' hq (by omega)

/-- What a primitive can still make is no more than it could from its beginning. -/
theorem leftInPrim_le {p : Prim} {pos : SeqPos} {phase : Phase} (h : posFits p pos phase = true) (n c : Nat) :
    leftInPrim p n c pos ≤ p.okEvents n := by
  cases pos <;> cases p <;> simp_all [posFits, leftInPrim, Prim.okEvents, Prim.isRecv] <;> omega

/-- The events left are within the bound of the command (R161). -/
theorem stepsLeft_le {s : State} (h : s.Inv) (hb : s.busy = true) {p : Prim} {i : Instr} (hp : s.currentPrim = some p)
    (hi : s.prims = primsOf i) : s.stepsLeft p ≤ maxEvents i s.limit.toNat := by
  obtain ⟨p', hp', hfits⟩ := h.running hb
  cases hp.symm.trans hp'
  have hsteps := prims_eq_append hp
  have hprim := leftInPrim_le hfits s.limit.toNat s.pollCnt.toNat
  have hafter : p.okEvents s.limit.toNat + s.leftAfter p ≤ maxEvents i s.limit.toNat := by
    unfold State.leftAfter
    split
    · next hlast =>
      have hdrop : s.prims.drop (s.stepIx.toNat + 1) = [] := List.drop_eq_nil_of_le (by simpa [State.onLastStep] using hlast)
      have hmax := maxEvents_of_steps (hi ▸ hsteps) s.limit.toNat
      have hle : p.okEvents s.limit.toNat ≤ p.maxEvents s.limit.toNat := by cases p <;> simp [Prim.maxEvents, Prim.okEvents]
      simp only [hdrop, List.map_nil, List.sum_nil]
      omega
    · have hsum := sum_okEvents_le i s.limit.toNat
      rw [← hi, hsteps] at hsum
      simp only [List.map_append, List.map_cons, List.sum_append, List.sum_cons] at hsum
      omega
  have hle : s.stepsLeft p ≤ leftInPrim p s.limit.toNat s.pollCnt.toNat s.pos + s.leftAfter p := by
    unfold State.stepsLeft
    cases s.pos <;> simp
  omega

/-- Settles O49: the events left are within the bound, and each step leaves fewer. -/
theorem runningOperationEnds : Obligations.RunningOperationEnds := by
  intro s h hb
  obtain ⟨p, hp, -⟩ := h.running hb
  obtain ⟨i, hi, hprims⟩ := prims_eq_primsOf hp
  obtain ⟨hend, hvalid⟩ := runEngine_ends h hb hp le_rfl
  exact ⟨i, s.stepsLeft p + 1, hi, Nat.succ_le_succ (stepsLeft_le h hb hp hprims), hend, hvalid⟩

/-! ### The transitions of `phase` (O50) -/

/-- The transition table of R33 for a step of the primitive `p` from `s` to `t`, by the access of the step. -/
structure PhaseMoves (p : Prim) (s t : State) : Prop where
  writeAddr : ∀ b, t.access = some (.writeAddr b) → t.phase = .address
  writeData : ∀ b, t.access = some (.writeData b) → t.phase = .data
  inAddress : ∀ b, t.access = some (.readStatus b) → s.phase = .address →
    t.phase = if p.flag.seenIn b then .ackCheck else .address
  pollSend : ∀ b x, t.access = some (.readStatus b) → s.pos = .poll → p = .send x →
    t.phase = if wifOf b then .ackCheck else .data
  pollRecv : ∀ b q, t.access = some (.readStatus b) → s.pos = .poll → p = .recv q → t.phase = .data
  beginRecv : ∀ b q, t.access = some (.readStatus b) → s.pos = .begin → p = .recv q →
    t.phase = if busOf b = .owner then .data else s.phase
  beginOther : ∀ b, t.access = some (.readStatus b) → s.pos = .begin → (∀ q, p ≠ .recv q) → t.phase = s.phase
  inAckCheck : ∀ b, t.access = some (.readStatus b) → s.phase = .ackCheck → t.phase = .data
  readData : ∀ b, t.access = some (.readData b) → s.phase = .data ∧ t.phase = .ackCheck
  continues : t.access = some (.command .continueReceive) → s.phase = .ackCheck ∧ t.phase = .ackCheck
  nackAndStop : t.access = some (.command .nackAndStop) → s.phase = .ackCheck ∧ t.phase = .stop
  stops : t.access = some (.command .stop) → (s.phase = .ackCheck ∨ p = .stop) ∧ t.phase = .stop
  ends : t.access = none → t.busy = false ∧ t.phase = s.phase.rest

/-- At the end of the operation `phase` takes its rest value. -/
theorem phaseMoves_respond {p : Prim} {s u : State} (hph : u.phase = s.phase.rest) (byte : Bool) (o : TxOutcome) :
    PhaseMoves p s (u.respond byte o) := by
  constructor <;> simp [hph]

/-- A primitive begins with `phase` at rest, which only STOP and RECV's passed check change. -/
theorem phaseMoves_begin {p : Prim} {s t : State} (h : BeginDid p s t) (hph : s.phase.atRest = true)
    (hpos : s.pos = .begin) : PhaseMoves p s t := by
  have hrest := Phase.rest_of_atRest hph
  have haddress : s.phase ≠ .address := by rintro h; simp [h, Phase.atRest] at hph
  have hack : s.phase ≠ .ackCheck := by rintro h; simp [h, Phase.atRest] at hph
  cases h with
  | invalid => exact phaseMoves_respond hrest.symm _ _
  | stop hp => constructor <;> simp [hp]
  | fails b hr hb =>
    have hrecv : ∀ q, p = .recv q → busOf s.paReadStatus.sample ≠ .owner := by
      rintro q rfl
      cases hr
      exact hb
    constructor <;> simp_all
    rintro _ q rfl hp ho
    exact absurd ho (hrecv q hp)
  | waits q hq hb => constructor <;> simp_all [State.startWait]
  | passes hrecv hstop => constructor <;> simp_all

/-- A primitive that returns after its acknowledgment check goes to `DATA`, and the next one begins there, or the operation ends. -/
theorem phaseMoves_settle {p : Prim} {o : TxOutcome} {s t : State} (h : AdvanceDid o s.rested t) (hph : s.phase = .ackCheck)
    (hpos : s.pos = .ackCheck) : PhaseMoves p s t := by
  have hrest : s.rested.nextStep.phase = .data := by simp [State.nextStep, State.rested, hph, Phase.rest]
  cases h with
  | ends => exact phaseMoves_respond rfl _ _
  | next q t _ _ _ hbegin =>
    cases hbegin with
    | invalid => exact phaseMoves_respond rfl _ _
    | stop => constructor <;> simp [hph]
    | fails => constructor <;> simp [hph, hpos, hrest]
    | waits => constructor <;> simp [hph, hpos, State.startWait]
    | passes => constructor <;> simp [hph, hpos, hrest]

/-- A poll iteration leaves `phase` for `ACKCHECK` when it sees the flag, but in RECV. -/
theorem phaseMoves_poll {p : Prim} {s : State} (hpos : s.pos = .poll) (hfits : posFits p .poll s.phase = true) :
    PhaseMoves p s (pollStep p s) := by
  unfold pollStep
  dsimp only
  split
  · split
    · next hseen => cases p <;> constructor <;> simp_all [posFits, completionStep, Prim.flag, CompletionFlag.seenIn]
    · next hseen => cases p <;> constructor <;> simp_all [posFits, Prim.flag, CompletionFlag.seenIn]
  · refine phaseMoves_respond ?_ _ _
    cases p <;> simp_all [posFits, Phase.rest]

/-- Every engine step of a running operation goes as the table says. -/
theorem phaseMoves_engineStep {p : Prim} {s : State} (h : s.Inv) (hb : s.busy = true) (hp : s.currentPrim = some p) :
    PhaseMoves p s (engineStep s) := by
  obtain ⟨p', hp', hfits⟩ := h.running hb
  cases hp.symm.trans hp'
  cases hpos : s.pos with
  | done o =>
    rw [engineStep_of_done h hb hp hpos]
    exact phaseMoves_respond rfl _ _
  | begin =>
    simp only [engineStep, hp, hpos]
    rw [hpos] at hfits
    exact phaseMoves_begin (beginPrim_did p s) (by cases p <;> exact hfits) hpos
  | write =>
    simp only [engineStep, hp, hpos]
    rw [hpos] at hfits
    cases p with
    | stop => cases hfits
    | recv q => cases hfits
    | _ => constructor <;> simp [writeStep, State.startWait]
  | poll =>
    rw [engine_poll hpos hp]
    exact phaseMoves_poll hpos (hpos ▸ hfits)
  | ackCheck =>
    rw [hpos] at hfits
    rw [engine_ackCheck hpos hp]
    have hph : s.phase = .ackCheck := by cases p <;> simp_all [posFits]
    have hdid := ackCheckStep_did hfits
    generalize ackCheckStep p s = t at hdid
    cases hdid with
    | stops hkind hf => constructor <;> simp [hph]
    | settles o => exact phaseMoves_settle (settle_did o s) hph hpos
  | dataRead =>
    simp only [engineStep, hp, hpos]
    rw [hpos] at hfits
    cases p with
    | recv q => constructor <;> simp_all [dataReadStep, posFits]
    | _ => cases hfits
  | receiveCommand =>
    simp only [engineStep, hp, hpos]
    rw [hpos] at hfits
    cases p with
    | recv q => cases q <;> constructor <;> simp_all [receiveCommandStep, receiveCmd, posFits]
    | _ => cases hfits

/-- Settles O50: at each position of a running operation the step's access and the phase it leaves are those of the table. -/
theorem phaseFollowsTheTransitionTable : Obligations.PhaseFollowsTheTransitionTable := by
  rintro s t h hb rfl
  obtain ⟨p, hp, -⟩ := h.running hb
  have hm := phaseMoves_engineStep h hb hp
  refine ⟨p, hp, hm.writeAddr, hm.writeData, hm.inAddress, hm.pollSend, hm.pollRecv, hm.beginRecv, hm.beginOther,
    hm.inAckCheck, hm.readData, hm.continues, hm.nackAndStop, hm.stops, fun ht => ?_⟩
  obtain ⟨hbusy, hph⟩ := hm.ends ht
  refine ⟨hbusy, hph.trans ?_⟩
  cases s.phase <;> rfl

end Sys2Proof.Machine
end

section
/-!
Commands on `RefBus` (20_memory.md R59 to R66): what they leave in the slave's memory, and that they return Ok when the slave answers
within the bound.
-/

namespace Sys2Proof.Machine

/-! ### What a command does to `RefBus` -/

theorem readMem_refBus {s : State} {r : RefBus} (h : s.env = .refBus r) (a : Nat) : s.readMem a = r.mem.read a := by
  simp only [State.readMem, State.memory, h]

/-- A command on `RefBus` makes a run of its steps that `RefBus` answers, and leaves `RefBus` as the run does. -/
theorem exec_refBus {i : Instr} {s : State} {r : RefBus} (hr : s.env = .refBus r) : ∃ o u es,
    exec i s = .next (u.respond (returnsByte i) o) ∧ RunDid (primsOf i) s o u es ∧ r.Answers es ∧
      (u.respond (returnsByte i) o).env = .refBus (r.after es) := by
  obtain ⟨o, u, es, hexec, hrun⟩ := exec_spec i s
  obtain ⟨henv, hanswers⟩ := refBus_ran hrun.ran hr
  exact ⟨o, u, es, hexec, hrun, hanswers, henv⟩

/-- The slave memory changes with a data write only; a scripted environment shows none. -/
theorem readMem_of_no_writeData {s t : State} {es : List Event} (h : Ran s t es) (hno : ∀ x, Event.writeData x ∉ es) (a : Nat) :
    t.readMem a = s.readMem a := by
  cases he : s.env with
  | refBus r =>
    have ht := (refBus_ran h he).1
    rw [readMem_refBus ht, readMem_refBus he, after_mem hno]
  | scripted bs ds =>
    have hreplay := h.2.1
    rw [he] at hreplay
    obtain ⟨bs', ds', ht⟩ := scripted_replay hreplay
    simp only [State.readMem, State.memory, he, ht]

/-- Settles O38: none of these commands has a SEND step. -/
theorem nonSendingCommandsLeaveMemory : Obligations.NonSendingCommandsLeaveMemory := by
  intro i s t hi ht
  obtain ⟨o, u, es, hexec, hrun⟩ := exec_spec i s
  cases hexec.symm.trans ht
  refine readMem_of_no_writeData (hrun.ran_respond _) fun x hx => ?_
  have hsend : Prim.send x ∈ primsOf i := by simpa using hrun.ends.events _ hx
  rcases hi with ⟨a, d, rfl⟩ | ⟨a, d, rfl⟩ | rfl | ⟨p, rfl⟩ | ⟨a, rfl⟩ <;> simp [primsOf] at hsend

/-- After SEND the memory is that which the data write leaves, on the slave as the precondition read found it. -/
theorem send_mem {limit : Count} {x : Byte} {o : TxOutcome} {es : List Event} {r : RefBus}
    (h : StepEnds limit (.send x) o es) (hk : r.Answers es) : (r.after es).mem = (r.tick.writeData x).mem := by
  cases h with
  | sendBusBusy _ b hb =>
    cases hk.1
    have hown : r.tick.storeAddr? = none := if_neg fun hc => hb (by simpa using hc.1)
    rw [RefBus.writeData_mem, hown]
    rfl
  | sendTimeout _ b0 bs => exact after_statusReads_mem (r.tick.writeData x) bs
  | sendNack _ b0 bs b => exact after_statusReads_mem (r.tick.writeData x) (bs ++ [b])
  | sendOk _ b0 bs b => exact after_statusReads_mem (r.tick.writeData x) (bs ++ [b])

/-- A command with one step runs that step. -/
theorem StepsEnd.single {limit : Count} {p : Prim} {o : TxOutcome} {es : List Event} (h : StepsEnd limit [p] o es) :
    StepEnds limit p o es := by
  cases h with
  | last _ _ _ h => exact h

/-- Settles O39: the data write stores where the slave's rule says, and the reads store nothing. -/
theorem sendStoresOnlyAtThePointer : Obligations.SendStoresOnlyAtThePointer := by
  intro x s t r hr hwf ht
  obtain ⟨o, u, es, hexec, hrun, hanswers, henv⟩ := exec_refBus (i := .send x) hr
  cases hexec.symm.trans ht
  have hmem := send_mem hrun.ends.single hanswers
  have hwfm : Memory.wfFrom 0 r.mem = true := RefBus.mem_wf hwf
  rw [RefBus.writeData_mem] at hmem
  constructor
  · intro a ha
    rw [readMem_refBus henv, hmem, ha, RefBus.tick_mem]
    exact Memory.read_write_same x hwfm
  · intro a ha
    rw [readMem_refBus henv, readMem_refBus hr, hmem]
    cases hstore : r.tick.storeAddr? with
    | none => simp
    | some c =>
      rw [RefBus.tick_mem]
      exact Memory.read_write_other x (fun hac => ha (by rw [hstore, hac])) hwfm

/-! ### The composites that write (O40) -/

/-- The slave of `r'` is the one of `r`: its memory, its address and its latency (R60). -/
structure SameSlave (r r' : RefBus) : Prop where
  mem   : r'.mem = r.mem
  saddr : r'.saddr = r.saddr
  lat   : r'.lat = r.lat

/-- The slave of `r` has taken `x` as its pointer in `r'` and stores the next byte (R62). -/
structure Pointed (x : Byte) (r r' : RefBus) : Prop extends SameSlave r r' where
  bus   : r'.bus = .owner
  mode  : r'.mode = .rx
  first : r'.first = false
  ptr   : r'.ptr = x

/-- A composite that addresses the slave for writing and sends a byte either ends without having stored anything, or goes on with the
slave pointed to that byte. -/
theorem start_send_inv {limit : Count} {a : SlaveAddr} {x : Byte} {q : Prim} {ps : List Prim} {o : TxOutcome} {es : List Event}
    {r : RefBus} (h : StepsEnd limit (.start a (dirField .write) :: .send x :: q :: ps) o es) (hk : r.Answers es) :
    (o ≠ .ok ∧ (r.after es).mem = r.mem) ∨ ∃ pre fs, es = pre ++ fs ∧ StepsEnd limit (q :: ps) o fs ∧
      Pointed x r (r.after pre) ∧ (r.after pre).Answers fs := by
  cases h with
  | fails _ _ _ _ _ hstart hne => exact .inl ⟨hne, hstart.memory_of_no_send (by simp)⟩
  | goesOn _ _ _ _ es fs hstart hrest =>
    obtain ⟨hk1, hk2⟩ := (RefBus.answers_append r es fs).1 hk
    obtain ⟨hmem, hmode, hfirst, hbus, hsaddr, -, hlat⟩ := start_ok_addresses hstart hk1
    cases hrest with
    | fails _ _ _ _ _ hsend hne =>
      obtain ⟨hmem', -⟩ := send_sets_pointer hsend hk2 hmode hfirst hbus
      exact .inl ⟨hne, by rw [RefBus.after_append, hmem', hmem]⟩
    | goesOn _ _ _ _ gs hs hsend hrest =>
      obtain ⟨hk3, hk4⟩ := (RefBus.answers_append _ gs hs).1 hk2
      obtain ⟨hmem', hmode', hfirst', hbus', hptr', hsaddr', hlat'⟩ := send_sets_pointer hsend hk3 hmode hfirst hbus
      refine .inr ⟨es ++ gs, hs, by simp, hrest, ?_, by rwa [RefBus.after_append]⟩
      rw [RefBus.after_append]
      exact ⟨⟨hmem'.trans hmem, hsaddr'.trans hsaddr, hlat'.trans hlat⟩, hbus', hmode', hfirst', hptr'⟩

/-- Steps without a SEND leave the memory. -/
theorem StepsEnd.memory_of_no_send {limit : Count} {ps : List Prim} {o : TxOutcome} {es : List Event} (r : RefBus)
    (h : StepsEnd limit ps o es) (hps : ∀ x, Prim.send x ∉ ps) : (r.after es).mem = r.mem :=
  after_mem fun x hx => hps x (by simpa using h.events _ hx)

/-- A pointed slave stores the byte sent next, whatever SEND returns, and the STOP after it stores nothing. -/
theorem pointed_send_stop_mem {limit : Count} {x b : Byte} {o : TxOutcome} {es : List Event} {r r' : RefBus}
    (h : StepsEnd limit [.send b, .stop] o es) (hp : Pointed x r r') (hk : r'.Answers es) :
    (r'.after es).mem = r.mem.write x.toNat b := by
  cases h with
  | fails _ _ _ _ _ hsend _ =>
    rw [(send_stores hsend hk hp.mode hp.first hp.bus).1, hp.mem, hp.ptr]
  | goesOn _ _ _ _ es fs hsend hstop =>
    obtain ⟨hk1, -⟩ := (RefBus.answers_append r' es fs).1 hk
    rw [RefBus.after_append, hstop.memory_of_no_send _ (by simp), (send_stores hsend hk1 hp.mode hp.first hp.bus).1, hp.mem,
      hp.ptr]

/-- WRREG stores its byte at its register, or nothing when it does not return Ok (R116, R124). -/
theorem wrreg_mem {limit : Count} {a : SlaveAddr} {reg data : Byte} {o : TxOutcome} {es : List Event} {r : RefBus}
    (h : StepsEnd limit (primsOf (.wrreg a reg data)) o es) (hk : r.Answers es) :
    (o ≠ .ok ∧ (r.after es).mem = r.mem) ∨ (r.after es).mem = r.mem.write reg.toNat data := by
  rcases start_send_inv h hk with hfails | ⟨pre, fs, rfl, hrest, hp, hk'⟩
  · exact .inl hfails
  · exact .inr (by rw [RefBus.after_append, pointed_send_stop_mem hrest hp hk'])

/-- A composite with one data byte stores nothing: the byte sets the pointer (R117, R118). -/
theorem one_byte_mem {limit : Count} {a : SlaveAddr} {x : Byte} {q : Prim} {ps : List Prim} {o : TxOutcome} {es : List Event}
    {r : RefBus} (h : StepsEnd limit (.start a (dirField .write) :: .send x :: q :: ps) o es) (hps : ∀ x, Prim.send x ∉ q :: ps)
    (hk : r.Answers es) : (r.after es).mem = r.mem := by
  rcases start_send_inv h hk with ⟨-, hmem⟩ | ⟨pre, fs, rfl, hrest, hp, -⟩
  · exact hmem
  · rw [RefBus.after_append, hrest.memory_of_no_send _ hps, hp.mem]

/-- Settles O40: WRREG sends its register number as the pointer and then the byte; RDREG and WRBYTE send one byte only. -/
theorem compositesStoreOnlyAtTheRegister : Obligations.CompositesStoreOnlyAtTheRegister := by
  intro s t r hr hwf
  have hwfm : Memory.wfFrom 0 r.mem = true := RefBus.mem_wf hwf
  refine ⟨fun addr reg data ht => ?_, fun addr reg ht a => ?_, fun addr data ht a => ?_⟩
  · obtain ⟨o, u, es, hexec, hrun, hanswers, henv⟩ := exec_refBus (i := .wrreg addr reg data) hr
    cases hexec.symm.trans ht
    have hmem := wrreg_mem hrun.ends hanswers
    constructor
    · intro a ha
      rw [readMem_refBus henv, readMem_refBus hr]
      rcases hmem with ⟨-, hmem⟩ | hmem <;> rw [hmem]
      exact Memory.read_write_other data ha hwfm
    · intro ho
      rw [rspOutcome_respond, TxOutcome.code_ok] at ho
      rw [readMem_refBus henv]
      rcases hmem with ⟨hne, -⟩ | hmem
      · exact absurd ho hne
      · rw [hmem]
        exact Memory.read_write_same data hwfm
  · obtain ⟨o, u, es, hexec, hrun, hanswers, henv⟩ := exec_refBus (i := .rdreg addr reg) hr
    cases hexec.symm.trans ht
    rw [readMem_refBus henv, readMem_refBus hr, one_byte_mem hrun.ends (by simp) hanswers]
  · obtain ⟨o, u, es, hexec, hrun, hanswers, henv⟩ := exec_refBus (i := .wrbyte addr data) hr
    cases hexec.symm.trans ht
    rw [readMem_refBus henv, readMem_refBus hr, one_byte_mem hrun.ends (by simp) hanswers]

/-! ### After the last read (O46) -/

/-- After a stop command on an owned bus the bus is idle (R64). -/
theorem command_stop_idle {r : RefBus} (h : r.bus = .owner) :
    (r.command .stop).bus = .idle ∧ (r.command .nackAndStop).bus = .idle := by
  simp [RefBus.command, h]

/-- RECV with policy Nack that returned Ok leaves the bus idle. -/
theorem recv_nack_idle {limit : Count} {es : List Event} {r : RefBus} (h : StepEnds limit (.recv .nack) .ok es)
    (hk : r.Answers es) : (r.after es).bus = .idle := by
  cases h with
  | recvOk _ b0 bs b x hb hw =>
    cases hk.1
    have hbus : (r.tick.after (statusReads (bs ++ [b]))).bus = .owner := by
      rw [(sameButFlags_reads r.tick (bs ++ [b])).bus]
      simpa using hb
    have hafter : r.after (.readStatus r.tick.status :: statusReads (bs ++ [b]) ++
        [.readData x, .command (receiveCmd .nack)]) =
        (r.tick.after (statusReads (bs ++ [b]))).command .nackAndStop := by
      rw [RefBus.after_append]
      rfl
    rw [hafter, (command_stop_idle hbus).2]

/-- SEND and RECV on a bus this master does not own make the read of their check and nothing else. -/
theorem check_fails {limit : Count} {p : Prim} {o : TxOutcome} {es : List Event} {r : RefBus} (h : StepEnds limit p o es)
    (hp : (∃ q, p = .recv q) ∨ ∃ x, p = .send x) (hk : r.Answers es) (hbus : r.bus ≠ .owner) :
    o = .busBusy r.bus ∧ ∃ b, es = [.readStatus b] := by
  have hno {b0 : Byte} (h0 : b0 = r.tick.status) (hb : busOf b0 = .owner) : False := hbus (by simpa [h0] using hb)
  cases h with
  | sendBusBusy _ b _ | recvBusBusy _ b _ =>
    have hb : b = r.tick.status := hk.1
    exact ⟨by simp [hb], b, rfl⟩
  | sendTimeout _ _ _ hb _ | sendNack _ _ _ _ hb _ _ | sendOk _ _ _ _ hb _ _ | recvTimeout _ _ _ hb _
  | recvOk _ _ _ _ _ hb _ => exact (hno hk.1 hb).elim
  | _ => simp at hp

/-- Settles O46: the last read leaves the bus idle, so the check of a further RECV or SEND fails. -/
theorem readAfterTheLastReadFails : Obligations.ReadAfterTheLastReadFails := by
  intro s t r hr _ ht ho i hi
  obtain ⟨o, u, es, hexec, hrun, hanswers, henv⟩ := exec_refBus (i := .recv .nack) hr
  cases hexec.symm.trans ht
  rw [rspOutcome_respond, TxOutcome.code_ok] at ho
  subst ho
  have hidle := recv_nack_idle hrun.ends.single hanswers
  obtain ⟨o', v, fs, hexec', hrun', hanswers', -⟩ := exec_refBus (i := i) henv
  obtain ⟨p, hp, hkind⟩ : ∃ p, primsOf i = [p] ∧ ((∃ q, p = .recv q) ∨ ∃ x, p = .send x) := by
    rcases hi with ⟨p, rfl⟩ | ⟨x, rfl⟩ <;> simp [primsOf]
  have hends := hrun'.ends
  rw [hp] at hends
  obtain ⟨rfl, b, rfl⟩ := check_fails hends.single hkind hanswers' (by simp [hidle])
  rw [hidle] at hexec' hrun'
  refine ⟨_, b, hexec', hrun'.ran_respond _, ?_⟩
  simpa using hrun'.answered (returnsByte i)

/-! ### A slave that answers within the bound (O47) -/

/-- The completion of the flag `f` will show after `k` more reads (R60). -/
def CompletionFlag.pendAfter (k : Nat) : CompletionFlag → Pend
  | .wif => .w k
  | .rif => .r k

/-- The countdown is driven by the reads, so the flag shows within `k + 1` of them (R65). -/
theorem reads_show_flag {f : CompletionFlag} {k : Nat} : ∀ {r : RefBus} {bs : List Byte}, r.pend = f.pendAfter k →
    r.Answers (statusReads bs) → k < bs.length → ∃ x ∈ bs, f.seenIn x = true := by
  induction k with
  | zero =>
    rintro r (_ | ⟨b, bs⟩) hp hk hlt
    · simp at hlt
    · refine ⟨b, by simp, ?_⟩
      rw [hk.1]
      cases f <;> simp [CompletionFlag.seenIn, RefBus.tick, hp, CompletionFlag.pendAfter]
  | succ k ih =>
    rintro r (_ | ⟨b, bs⟩) hp hk hlt
    · simp at hlt
    · obtain ⟨x, hx, hseen⟩ := ih (r := r.tick) (bs := bs)
        (by cases f <;> simp [RefBus.tick, hp, CompletionFlag.pendAfter]) hk.2 (by simpa using hlt)
      exact ⟨x, by simp [hx], hseen⟩

/-- So a wait for a completion within the bound does not expire. -/
theorem wait_not_expired {f : CompletionFlag} {k : Nat} {limit : Count} {r : RefBus} {bs : List Byte}
    (hp : r.pend = f.pendAfter k) (hk : k < limit.toNat) (hanswers : r.Answers (statusReads bs)) :
    ¬ WaitExpires f limit bs := by
  rintro ⟨hlen, hno⟩
  obtain ⟨x, hx, hseen⟩ := reads_show_flag hp hanswers (hlen ▸ hk)
  simp [hno x hx] at hseen

/-- The last of a wait's samples shows `rxnack` as the reads found it. -/
theorem rxnackOf_last {r : RefBus} {bs : List Byte} {b : Byte} (h : r.Answers (statusReads (bs ++ [b]))) :
    rxnackOf b = r.rxnack := by
  rw [last_sample h, RefBus.rxnackOf_status, (sameButFlags_reads r (bs ++ [b])).rxnack]

/-- The slave that is addressed on an idle or owned bus acknowledges, and completes after its latency (R61). -/
theorem writeAddr_addressed {r : RefBus} {k : Nat} (hbus : r.bus = .idle ∨ r.bus = .owner) (hlat : r.lat = some k)
    (d : Direction) : (r.writeAddr (compose r.saddr d)).pend = (addressFlag d).pendAfter k ∧
      (r.writeAddr (compose r.saddr d)).rxnack = false ∧ (r.writeAddr (compose r.saddr d)).bus = .owner ∧
      (d = .read → (r.writeAddr (compose r.saddr d)).dreg = r.mem.read r.ptr.toNat) := by
  obtain ⟨-, haddr, hbit, -⟩ := composedByteHoldsAddressAndDirection r.saddr d
  unfold RefBus.writeAddr
  rw [if_pos hbus, if_pos haddr, hbit]
  cases d <;> simp [RefBus.fetch, RefBus.pendR, RefBus.pendW, hlat, addressFlag, CompletionFlag.pendAfter, RefBus.pointed]

/-- A slave in the receiving mode acknowledges a data byte (R62). -/
theorem writeData_receiving {r : RefBus} {k : Nat} (hbus : r.bus = .owner) (hmode : r.mode = .rx) (hlat : r.lat = some k)
    (x : Byte) : (r.writeData x).pend = CompletionFlag.wif.pendAfter k ∧ (r.writeData x).rxnack = false := by
  unfold RefBus.writeData RefBus.take
  cases hf : r.first <;> simp [hbus, hmode, RefBus.pendW, hlat, CompletionFlag.pendAfter]

theorem start_write_ok {limit : Count} {o : TxOutcome} {es : List Event} {r : RefBus} {k : Nat}
    (h : StepEnds limit (.start r.saddr (dirField .write)) o es) (ha : r.Answers es) (hbus : r.bus = .idle)
    (hlat : r.lat = some k) (hk : k < limit.toNat) : o = .ok := by
  have haddressed := writeAddr_addressed (r := r.tick) (k := k) (.inl (by simpa using hbus)) (by simpa using hlat)
  rw [RefBus.tick_saddr] at haddressed
  cases h with
  | startInvalid _ _ hd => simp [direction_write] at hd
  | startBusBusy _ _ d b hd hb =>
    rw [show b = r.tick.status from ha.1] at hb
    simp [hbus] at hb
  | startTimeout _ _ d b0 bs hd hb hw => exact absurd hw (wait_not_expired (haddressed d).1 hk ha.2)
  | startNack _ _ d b0 bs b hd hb hw hn =>
    obtain ⟨hreads, -⟩ := (RefBus.answers_append (r.tick.writeAddr (compose r.saddr d)) _ _).1 ha.2
    rw [rxnackOf_last hreads, (haddressed d).2.1] at hn
    cases hn
  | startOk => rfl

theorem send_ok {limit : Count} {x : Byte} {o : TxOutcome} {es : List Event} {r : RefBus} {k : Nat}
    (h : StepEnds limit (.send x) o es) (ha : r.Answers es) (hbus : r.bus = .owner) (hmode : r.mode = .rx)
    (hlat : r.lat = some k) (hk : k < limit.toNat) : o = .ok := by
  have hreceiving := writeData_receiving (r := r.tick) (k := k) (by simpa using hbus) (by simpa using hmode)
    (by simpa using hlat) x
  cases h with
  | sendBusBusy _ b hb =>
    rw [show b = r.tick.status from ha.1] at hb
    simp [hbus] at hb
  | sendTimeout _ b0 bs hb hw => exact absurd hw (wait_not_expired hreceiving.1 hk ha.2)
  | sendNack _ b0 bs b hb hw hn =>
    rw [rxnackOf_last (r := r.tick.writeData x) ha.2, hreceiving.2] at hn
    cases hn
  | sendOk => rfl

/-- After RSTART for reading the pointed byte stands in the data register, ready (R61). -/
theorem rstart_read_ok {limit : Count} {o : TxOutcome} {es : List Event} {r : RefBus} {k : Nat}
    (h : StepEnds limit (.rstart r.saddr (dirField .read)) o es) (ha : r.Answers es) (hbus : r.bus = .owner)
    (hlat : r.lat = some k) (hk : k < limit.toNat) :
    o = .ok ∧ (r.after es).bus = .owner ∧ (r.after es).rif = true ∧ (r.after es).dreg = r.mem.read r.ptr.toNat := by
  have haddressed := writeAddr_addressed (r := r.tick) (k := k) (.inr (by simpa using hbus)) (by simpa using hlat)
  rw [RefBus.tick_saddr] at haddressed
  cases h with
  | rstartInvalid _ _ hd => simp [direction_read] at hd
  | rstartBusBusy _ _ d b hd hb =>
    rw [show b = r.tick.status from ha.1] at hb
    simp [hbus] at hb
  | rstartTimeout _ _ d b0 bs hd hb hw => exact absurd hw (wait_not_expired (haddressed d).1 hk ha.2)
  | rstartNack _ _ d b0 bs b hd hb hw hn =>
    rw [rxnackOf_last (r := r.tick.writeAddr (compose r.saddr d)) ha.2, (haddressed d).2.1] at hn
    cases hn
  | rstartOk _ _ d b0 bs b hd hb hw hn =>
    cases direction_read.symm.trans hd
    obtain ⟨-, -, hbus', hdreg⟩ := haddressed .read
    have hsame := sameButFlags_reads (r.tick.writeAddr (compose r.saddr .read)) (bs ++ [b])
    have hlast := last_sample (r := r.tick.writeAddr (compose r.saddr .read)) ha.2
    refine ⟨rfl, hsame.bus.trans hbus', ?_, (hsame.dreg.trans (hdreg rfl)).trans (by simp)⟩
    have hseen : rifOf b = true := hw.2.2
    rw [hlast, RefBus.rifOf_status] at hseen
    exact hseen

/-- A flag that stands stays under the clock (R65). -/
theorem tick_rif {r : RefBus} (h : r.rif = true) : r.tick.rif = true := by
  unfold RefBus.tick
  split <;> simp [h]

/-- RECV reads the byte that stands ready in the data register (R63). -/
theorem recv_ok {limit : Count} {q : AckPolicy} {o : TxOutcome} {es : List Event} {r : RefBus}
    (h : StepEnds limit (.recv q) o es) (ha : r.Answers es) (hbus : r.bus = .owner) (hrif : r.rif = true)
    (hlimit : 0 < limit.toNat) : o = .ok ∧ lastByte? es = some r.dreg := by
  cases h with
  | recvBusBusy _ b hb =>
    rw [show b = r.tick.status from ha.1] at hb
    simp [hbus] at hb
  | recvTimeout _ b0 bs hb hw =>
    obtain ⟨hlen, hno⟩ := hw
    rcases bs with _ | ⟨b, bs⟩
    · simp at hlen
      omega
    · have hb : b = r.tick.tick.status := ha.2.1
      have hfalse : rifOf b = false := hno b (by simp)
      simp [hb, tick_rif (tick_rif hrif)] at hfalse
  | recvOk _ b0 bs b x hb hw =>
    have ha' : r.tick.Answers (statusReads (bs ++ [b]) ++ [.readData x, .command (receiveCmd q)]) := ha.2
    obtain ⟨-, hx, -⟩ := (RefBus.answers_append _ _ _).1 ha'
    rw [(sameButFlags_reads r.tick (bs ++ [b])).dreg, RefBus.tick_dreg] at hx
    exact ⟨rfl, by simp [lastByte?_cons, lastByte?_append, hx]⟩

/-- A step that can only return Ok is followed by the next one. -/
theorem uncons_of_ok {limit : Count} {p q : Prim} {ps : List Prim} {o : TxOutcome} {es : List Event} {r : RefBus}
    (h : StepsEnd limit (p :: q :: ps) o es) (ha : r.Answers es)
    (hok : ∀ o' fs, StepEnds limit p o' fs → r.Answers fs → o' = .ok) :
    ∃ fs gs, es = fs ++ gs ∧ StepEnds limit p .ok fs ∧ r.Answers fs ∧ StepsEnd limit (q :: ps) o gs ∧
      (r.after fs).Answers gs := by
  cases h with
  | fails _ _ _ _ _ hp hne => exact absurd (hok _ _ hp ha) hne
  | goesOn _ _ _ _ fs gs hp hrest =>
    obtain ⟨ha1, ha2⟩ := (RefBus.answers_append r fs gs).1 ha
    exact ⟨fs, gs, rfl, hp, ha1, hrest, ha2⟩

/-- The slave is addressed for writing and takes its pointer. -/
theorem start_send_ok {limit : Count} {x : Byte} {q : Prim} {ps : List Prim} {o : TxOutcome} {es : List Event} {r : RefBus}
    {k : Nat} (h : StepsEnd limit (.start r.saddr (dirField .write) :: .send x :: q :: ps) o es) (ha : r.Answers es)
    (hbus : r.bus = .idle) (hlat : r.lat = some k) (hk : k < limit.toNat) :
    ∃ fs gs, es = fs ++ gs ∧ StepsEnd limit (q :: ps) o gs ∧ Pointed x r (r.after fs) ∧ (r.after fs).Answers gs := by
  obtain ⟨fs, gs, rfl, hstart, ha1, hrest, ha2⟩ := uncons_of_ok h ha fun _ _ hp ha => start_write_ok hp ha hbus hlat hk
  obtain ⟨hmem, hmode, hfirst, hbus', hsaddr, -, hlat'⟩ := start_ok_addresses hstart ha1
  obtain ⟨gs', hs, rfl, hsend, ha3, hrest', ha4⟩ := uncons_of_ok hrest ha2 fun _ _ hp ha =>
    send_ok hp ha hbus' hmode (hlat'.trans hlat) hk
  obtain ⟨hmem', hmode', hfirst', hbus'', hptr, hsaddr', hlat''⟩ := send_sets_pointer hsend ha3 hmode hfirst hbus'
  refine ⟨fs ++ gs', hs, by simp, hrest', ?_, by rwa [RefBus.after_append]⟩
  rw [RefBus.after_append]
  exact ⟨⟨hmem'.trans hmem, hsaddr'.trans hsaddr, hlat''.trans hlat'⟩, hbus'', hmode', hfirst', hptr⟩

/-- A stop leaves the slave's memory, address and latency alone. -/
theorem command_stop_sameSlave (r : RefBus) : SameSlave r (r.command .stop) := by
  unfold RefBus.command
  split <;> exact ⟨rfl, rfl, rfl⟩

/-- WRREG to a slave that answers within the bound stores its byte and leaves the bus idle. -/
theorem wrreg_ok {limit : Count} {reg data : Byte} {o : TxOutcome} {es : List Event} {r : RefBus} {k : Nat}
    (h : StepsEnd limit (primsOf (.wrreg r.saddr reg data)) o es) (ha : r.Answers es) (hbus : r.bus = .idle)
    (hlat : r.lat = some k) (hk : k < limit.toNat) :
    o = .ok ∧ (r.after es).bus = .idle ∧ (r.after es).mem = r.mem.write reg.toNat data ∧ (r.after es).saddr = r.saddr ∧
      (r.after es).lat = r.lat := by
  obtain ⟨fs, gs, rfl, hrest, hp, ha1⟩ := start_send_ok h ha hbus hlat hk
  obtain ⟨gs', hs, rfl, hsend, ha2, hstop, ha3⟩ := uncons_of_ok hrest ha1 fun _ _ h ha =>
    send_ok h ha hp.bus hp.mode (hp.lat.trans hlat) hk
  obtain ⟨hmem, hbus', hsaddr, hlat'⟩ := send_stores hsend ha2 hp.mode hp.first hp.bus
  cases hstop.single
  rw [RefBus.after_append, RefBus.after_append]
  have hidle := command_stop_idle hbus'
  have hsame := command_stop_sameSlave ((r.after fs).after gs')
  exact ⟨rfl, hidle.1, hsame.mem.trans (by rw [hmem, hp.mem, hp.ptr]), hsame.saddr.trans (hsaddr.trans hp.saddr),
    hsame.lat.trans (hlat'.trans hp.lat)⟩

/-- RDREG from a slave that answers within the bound reads the byte at its register. -/
theorem rdreg_ok {limit : Count} {reg : Byte} {o : TxOutcome} {es : List Event} {r : RefBus} {k : Nat}
    (h : StepsEnd limit (primsOf (.rdreg r.saddr reg)) o es) (ha : r.Answers es) (hbus : r.bus = .idle)
    (hlat : r.lat = some k) (hk : k < limit.toNat) : o = .ok ∧ lastByte? es = some (r.mem.read reg.toNat) := by
  obtain ⟨fs, gs, rfl, hrest, hp, ha1⟩ := start_send_ok h ha hbus hlat hk
  rw [← hp.saddr] at hrest
  obtain ⟨gs', hs, rfl, hrstart, ha2, hrecv, ha3⟩ := uncons_of_ok hrest ha1 fun _ _ h ha =>
    (rstart_read_ok h ha hp.bus (hp.lat.trans hlat) hk).1
  obtain ⟨-, hbus', hrif, hdreg⟩ := rstart_read_ok hrstart ha2 hp.bus (hp.lat.trans hlat) hk
  obtain ⟨rfl, hbyte⟩ := recv_ok hrecv.single ha3 hbus' hrif (by omega)
  refine ⟨rfl, ?_⟩
  simp [lastByte?_append, hbyte, hdreg, hp.mem, hp.ptr]

/-- Settles O47: WRREG stores the byte at its register and leaves the slave on an idle bus, where RDREG reads it. -/
theorem writeThenReadBack : Obligations.WriteThenReadBack := by
  intro s r reg data k hr hwf hbus hlat hk
  obtain ⟨o, t, es, hexec, hrun, ha, henv⟩ := exec_refBus (i := .wrreg r.saddr reg data) hr
  obtain ⟨rfl, hbus', hmem, hsaddr, hlat'⟩ := wrreg_ok hrun.ends ha hbus hlat hk
  obtain ⟨o', u, fs, hexec', hrun', ha', -⟩ := exec_refBus (i := .rdreg r.saddr reg) henv
  have hends := hrun'.ends
  rw [show (t.respond (returnsByte (.wrreg r.saddr reg data)) .ok).limit = s.limit from hrun.limit, ← hsaddr] at hends
  obtain ⟨rfl, hbyte⟩ := rdreg_ok hends ha' hbus' (hlat'.trans hlat) hk
  have hdv : rspDv (u.respond (returnsByte (.rdreg r.saddr reg)) .ok).rsp = true := by simp [returnsByte]
  obtain ⟨hdata, hlast⟩ := hrun'.byte_of_dv hdv
  refine ⟨_, _, hexec, rspOutcome_respond _ _ _, hexec', rspOutcome_respond _ _ _, hdv, ?_⟩
  rw [hdata]
  rw [hbyte, hmem, Memory.read_write_same data (RefBus.mem_wf hwf)] at hlast
  exact (Option.some.inj hlast).symm

end Sys2Proof.Machine
end


section
/-!
Runs with an adapter that keeps the contract (20_memory.md section 4): what a primitive command leaves on the bus.
-/

namespace Sys2Proof.Machine

/-- The outcome and the events of a command of one step, from its states. -/
theorem StepEnds.of_exec {i : Instr} {p : Prim} {s t : State} {es : List Event} (hp : primsOf i = [p])
    (ht : exec i s = .next t) (htrace : t.trace = s.trace ++ es) : ∃ o, rspOutcome t.rsp = o.code ∧ StepEnds s.limit p o es := by
  obtain ⟨o, u, fs, hexec, hrun⟩ := exec_spec i s
  cases hexec.symm.trans ht
  have hes : fs = es := List.append_cancel_left (hrun.ran.1.symm.trans htrace)
  exact ⟨o, rspOutcome_respond _ _ _, hes ▸ (hp ▸ hrun.ends).single⟩

namespace Adapter

variable {A : Adapter} {e e' : A.State}

/-! ### Reads -/

/-- A status read shows the status of a state that only own moves and reads lead to. -/
theorem Plays.read_inv {b : Byte} {evs : List Event} (pure : A.StatusReadsPure) (h : A.Plays e (.readStatus b :: evs) e') :
    ∃ e1, A.Quiet e e1 ∧ A.status e1 = b ∧ A.Plays e1 evs e' := by
  obtain ⟨e1, e2, hq, hm, hp⟩ := h.cons_inv
  obtain ⟨rfl, rfl⟩ := pure _ _ _ hm
  exact ⟨e2, hq, rfl, hp⟩

/-- The last read of a wait. -/
theorem Plays.wait_inv {bs : List Byte} {b : Byte} (pure : A.StatusReadsPure) (h : A.Plays e (statusReads (bs ++ [b])) e') :
    ∃ e1, A.Quiet e e1 ∧ A.status e1 = b ∧ A.Quiet e1 e' := by
  rw [statusReads, List.map_append] at h
  obtain ⟨e0, hreads, hlast⟩ := h.append_inv
  obtain ⟨e1, hq, hb, hend⟩ := hlast.read_inv pure
  exact ⟨e1, hreads.reads_inv.trans hq, hb, hend.nil_inv⟩

/-! ### What stays -/

/-- An owned bus stays owned while nothing but own moves and reads happens. -/
theorem Quiet.owner (keeps : A.Keeps) (sound : A.NoFault) (h : A.Quiet e e') (hbus : A.bus e = .owner) : A.bus e' = .owner := by
  refine h.keeps keeps.pure (A.bus · = .owner) (fun act e e' ho hm => keeps.bus.stays act e e' hm (.inl ho) ?_ ?_) hbus
  · rintro rfl
    exact sound.noFault _ _ hm
  · rintro rfl
    exact sound.noFail _ _ hm

/-- Nothing is under way on a bus that no one else takes: it is this master's, or free with no other participant. -/
def Settled (A : Adapter) (w : Wire) : Prop :=
  w.pending = .none ∧ (w.holder = .ours ∨ (w.holder = .free ∧ A.NoOtherParticipant))

/-- When nothing is under way, the adapter puts nothing on the bus on its own. -/
theorem settled_own (keeps : A.Keeps) (sound : A.NoFault) {act : Act} (ho : act.own = true) (hm : A.move act e e')
    (h : A.Settled (A.wire e)) : A.wire e' = A.wire e := by
  obtain ⟨hpend, hholder⟩ := h
  have hfollows := keeps.record.follows act e e' hm
  have hadmits := keeps.record.admits act e e' hm
  cases act with
  | engine => cases ho
  | time => exact hfollows
  | startMade => simp [Wire.Admits, hpend] at hadmits
  | sentOver => simp [Wire.Admits, hpend] at hadmits
  | readOver => simp [Wire.Admits, hpend] at hadmits
  | startFails => exact absurd hm (sound.noFail _ _)
  | fault => exact absurd hm (sound.noFault _ _)
  | otherStarts =>
    rcases hholder with hours | ⟨-, alone⟩
    · exact absurd hours hadmits
    · exact absurd hm (alone.noStart _ _)
  | busFreed =>
    rcases hholder with hours | ⟨hfree, -⟩
    · exact absurd hours hadmits
    · have hfreed : A.wire e' = { A.wire e with holder := .free } := hfollows
      rw [hfreed, ← hfree]

theorem Quiet.settled (keeps : A.Keeps) (sound : A.NoFault) (h : A.Quiet e e') (hs : A.Settled (A.wire e)) :
    A.wire e' = A.wire e := by
  refine h.keeps keeps.pure (A.wire · = A.wire e) (fun act e1 e2 ho hm he => ?_) rfl
  rw [settled_own keeps sound ho hm (he ▸ hs), he]

/-- A flag rises with the end of a byte only. -/
theorem flag_stays_down (rise : A.FlagsRise) {f : CompletionFlag} {act : Act} (hm : A.move act e e')
    (hsent : ∀ a, act ≠ .sentOver a) (hread : ∀ x, act ≠ .readOver x) (h : A.shows f e = false) : A.shows f e' = false := by
  refine Bool.eq_false_iff.2 fun hup => ?_
  cases f with
  | wif =>
    obtain ⟨a, hact, -⟩ := rise.wif act e e' hm h hup
    exact hsent a hact
  | rif =>
    rcases rise.rif act e e' hm h hup with ⟨a, -, -, hact, -⟩ | ⟨x, hact⟩
    · exact hsent a hact
    · exact hread x hact

/-! ### A stop -/

/-- This master's stop leaves the bus idle and its record as it is. -/
theorem released_settles (keeps : A.Keeps) (alone : A.NoOtherParticipant) (sound : A.NoFault) {w : Wire} {l : List BusItem}
    (hw : A.wire e = w.released l) (h : A.Quiet e e') : A.bus e' = .idle ∧ A.wire e' = w.released l := by
  have hwire := (h.settled keeps sound ⟨by rw [hw]; rfl, .inr ⟨by rw [hw]; rfl, alone⟩⟩).trans hw
  exact ⟨keeps.stop.released e' (by rw [hwire]; rfl), hwire⟩

/-- A stop command on an owned bus. -/
theorem stop_settles (keeps : A.Keeps) (alone : A.NoOtherParticipant) (sound : A.NoFault)
    (h : A.Plays e [.command .stop] e') (hbus : A.bus e = .owner) :
    ∃ e1, A.Quiet e e1 ∧ A.bus e' = .idle ∧ A.wire e' = (A.wire e1).released [] := by
  obtain ⟨e1, e2, hq, hm, hend⟩ := h.cons_inv
  have hw := keeps.record.follows _ _ _ hm
  simp only [Wire.Follows, if_pos (hq.owner keeps sound hbus)] at hw
  exact ⟨e1, hq, released_settles keeps alone sound hw hend.nil_inv⟩

/-! ### An address byte -/

/-- The condition an address write makes on a bus held as in `w`. -/
def startItem (w : Wire) : BusItem := if w.holder = .ours then .repeatedStart else .start

/-- How far the address byte `b`, written when the record was `w`, has come: the condition is not yet made, it is made, or the byte is over
(with direction Read and acknowledged, the slave's first byte too). While it is not over the flag awaited does not stand (R54). -/
inductive AddressPhase (A : Adapter) (b : Byte) (f : CompletionFlag) (w : Wire) (e : A.State) : Prop where
  | asked : (A.wire e).pending = .address b false → A.shows f e = false → (A.wire e).items = w.items →
      ((A.wire e).holder = .ours ↔ w.holder = .ours) → AddressPhase A b f w e
  | begun : (A.wire e).pending = .address b true → A.shows f e = false → (A.wire e).items = w.items ++ [startItem w] →
      (A.wire e).holder = .ours → AddressPhase A b f w e
  | sent (a : Bool) : (A.wire e).pending = .none → (A.wire e).last = some ⟨b, true, a⟩ →
      (A.wire e).items = w.items ++ [startItem w, .sent b a] → (A.wire e).holder = .ours →
      (b.getLsbD 0 = false ∨ a = false) → AddressPhase A b f w e
  | read (x : Byte) : (A.wire e).pending = .none → (A.wire e).last = some ⟨b, true, true⟩ →
      (A.wire e).items = w.items ++ [startItem w, .sent b true, .received x] → (A.wire e).holder = .ours →
      b.getLsbD 0 = true → (A.wire e).byte = some x → AddressPhase A b f w e

theorem AddressPhase.own (keeps : A.Keeps) (sound : A.NoFault) {b : Byte} {f : CompletionFlag} {w : Wire} {act : Act}
    (ho : act.own = true) (hm : A.move act e e') (h : A.AddressPhase b f w e) : A.AddressPhase b f w e' := by
  have hfollows := keeps.record.follows act e e' hm
  have hadmits := keeps.record.admits act e e' hm
  have hdown := flag_stays_down keeps.rise (f := f) hm
  cases h with
  | asked hpend hflag hitems hholder =>
    cases act with
    | engine => cases ho
    | time =>
      have hw : A.wire e' = A.wire e := hfollows
      exact .asked (hw ▸ hpend) (hdown nofun nofun hflag) (hw ▸ hitems) (hw ▸ hholder)
    | startMade =>
      have hw : A.wire e' = (A.wire e).started := hfollows
      rw [Wire.started, hpend] at hw
      exact .begun (by rw [hw]) (hdown nofun nofun hflag) (by simp only [hw, hitems, hholder, startItem]) (by rw [hw])
    | sentOver => simp [Wire.Admits, hpend] at hadmits
    | readOver => simp [Wire.Admits, hpend] at hadmits
    | startFails => exact absurd hm (sound.noFail _ _)
    | fault => exact absurd hm (sound.noFault _ _)
    | otherStarts =>
      have hw : A.wire e' = { A.wire e with holder := .theirs, stopped := false } := hfollows
      have hours : w.holder ≠ .ours := fun hours => hadmits (hholder.2 hours)
      exact .asked (by rw [hw, ← hpend]) (hdown nofun nofun hflag) (by rw [hw, ← hitems]) (by simp [hw, hours])
    | busFreed =>
      have hw : A.wire e' = { A.wire e with holder := .free } := hfollows
      have hours : w.holder ≠ .ours := fun hours => hadmits (hholder.2 hours)
      exact .asked (by rw [hw, ← hpend]) (hdown nofun nofun hflag) (by rw [hw, ← hitems]) (by simp [hw, hours])
  | begun hpend hflag hitems hholder =>
    cases act with
    | engine => cases ho
    | time =>
      have hw : A.wire e' = A.wire e := hfollows
      exact .begun (hw ▸ hpend) (hdown nofun nofun hflag) (hw ▸ hitems) (hw ▸ hholder)
    | startMade => simp [Wire.Admits, hpend] at hadmits
    | sentOver a =>
      have hw : A.wire e' = (A.wire e).sentOver a := hfollows
      rw [Wire.sentOver, hpend] at hw
      exact .sent a (by rw [hw]) (by rw [hw]) (by simp [hw, hitems]) (by rw [hw, hholder])
        (by simpa [Wire.Admits, hpend] using hadmits)
    | readOver x =>
      have hw : A.wire e' = (A.wire e).readOver x := hfollows
      rw [Wire.readOver, hpend] at hw
      exact .read x (by rw [hw]) (by rw [hw]) (by simp [hw, hitems]) (by rw [hw, hholder])
        (by simpa [Wire.Admits, hpend] using hadmits) (by rw [hw])
    | startFails => exact absurd hm (sound.noFail _ _)
    | fault => exact absurd hm (sound.noFault _ _)
    | otherStarts => exact absurd hholder hadmits
    | busFreed => exact absurd hholder hadmits
  | sent a hpend hlast hitems hholder hack =>
    have hw := settled_own keeps sound ho hm ⟨hpend, .inl hholder⟩
    rw [← hw] at hpend hlast hitems hholder
    exact .sent a hpend hlast hitems hholder hack
  | read x hpend hlast hitems hholder hbit hbyte =>
    have hw := settled_own keeps sound ho hm ⟨hpend, .inl hholder⟩
    rw [← hw] at hpend hlast hitems hholder hbyte
    exact .read x hpend hlast hitems hholder hbit hbyte

/-- The access that writes an address byte on an idle or owned bus begins its phase. -/
theorem AddressPhase.begin (keeps : A.Keeps) {b : Byte} (f : CompletionFlag) (hm : A.move (.engine (.writeAddr b)) e e')
    (hbus : A.bus e = .idle ∨ A.bus e = .owner) : A.AddressPhase b f (A.wire e) e' := by
  have hfollows := keeps.record.follows _ _ _ hm
  simp only [Wire.Follows, if_pos hbus] at hfollows
  obtain ⟨hwif, hrif⟩ := keeps.cleared.byAddress e e' b hm
  have hflag : A.shows f e' = false := by cases f <;> assumption
  rcases hfollows with hw | hw
  · exact .asked (by rw [hw]; rfl) hflag (by rw [hw]; rfl) (by rw [hw]; rfl)
  · exact .begun (by rw [hw]; rfl) hflag (by rw [hw]; rfl) (by rw [hw]; rfl)

/-- The record `w'` when the address byte `Compose(addr, d)`, written when the record was `w`, is over, acknowledged or not: the condition and
the byte have been put on the bus and, acknowledged with direction Read, the slave's first byte too. -/
structure Addressed (addr : SlaveAddr) (d : Direction) (acked : Bool) (w w' : Wire) : Prop where
  pending : w'.pending = .none
  holder  : w'.holder = .ours
  sent    : d = .write ∨ acked = false → w'.items = w.items ++ [startItem w, .sent (compose addr d) acked]
  read    : d = .read → acked = true → ∃ x, w'.byte = some x ∧
    w'.items = w.items ++ [startItem w, .sent (compose addr d) true, .received x]

/-- The flag awaited says that the byte is over, and `rxnack` what its slot said (R53, R55). -/
theorem AddressPhase.addressed (keeps : A.Keeps) {addr : SlaveAddr} {d : Direction} {w : Wire}
    (h : A.AddressPhase (compose addr d) (addressFlag d) w e) (hflag : A.shows (addressFlag d) e = true) :
    Addressed addr d (!rxnackOf (A.status e)) w (A.wire e) := by
  obtain ⟨-, -, hbit, -⟩ := composedByteHoldsAddressAndDirection addr d
  have hslot {a : Bool} (hlast : (A.wire e).last = some ⟨compose addr d, true, a⟩) : rxnackOf (A.status e) = !a := by
    refine keeps.rxnack.valid e _ hlast ?_
    cases d with
    | write => exact .inl hflag
    | read => exact .inr ⟨hflag, rfl, by rw [hbit]; rfl⟩
  cases h with
  | asked _ hno => cases hflag.symm.trans hno
  | begun _ hno => cases hflag.symm.trans hno
  | sent a hpend hlast hitems hholder hack =>
    rw [hslot hlast, Bool.not_not]
    refine ⟨hpend, hholder, fun _ => hitems, fun hd ha => ?_⟩
    rw [hbit] at hack
    simp [hd, ha] at hack
  | read x hpend hlast hitems hholder hread hbyte =>
    rw [hslot hlast, Bool.not_not]
    rw [hbit] at hread
    refine ⟨hpend, hholder, fun hd => ?_, fun _ _ => ⟨x, hbyte, hitems⟩⟩
    simp [of_decide_eq_true hread] at hd

/-- An address byte written on an idle or owned bus, and the wait that saw its flag. -/
theorem address_phase (keeps : A.Keeps) (sound : A.NoFault) {addr : SlaveAddr} {d : Direction} {bs : List Byte} {b : Byte}
    {e1 : A.State} (hm : A.move (.engine (.writeAddr (compose addr d))) e e1) (hbus : A.bus e = .idle ∨ A.bus e = .owner)
    (hwait : A.Plays e1 (statusReads (bs ++ [b])) e') (hseen : (addressFlag d).seenIn b = true) :
    Addressed addr d (!rxnackOf b) (A.wire e) (A.wire e') := by
  obtain ⟨e2, hq, rfl, hend⟩ := hwait.wait_inv keeps.pure
  have hphase := hq.keeps keeps.pure (A.AddressPhase (compose addr d) (addressFlag d) (A.wire e))
    (fun _ _ _ ho hm => .own keeps sound ho hm) (.begin keeps _ hm hbus)
  have haddressed := hphase.addressed keeps hseen
  rwa [hend.settled keeps sound ⟨haddressed.pending, .inl haddressed.holder⟩]

theorem Addressed.bus (keeps : A.Keeps) {addr : SlaveAddr} {d : Direction} {a : Bool} {w : Wire}
    (h : Addressed addr d a w (A.wire e)) : A.bus e = .owner :=
  keeps.bus.held e h.holder h.pending

/-! ### START and RSTART -/

/-- A bus that reads Idle stays free for an address write: the only change of its own is a start this master has asked for. -/
theorem Quiet.idle_or_owner (keeps : A.Keeps) (alone : A.NoOtherParticipant) (sound : A.NoFault) (h : A.Quiet e e')
    (hbus : A.bus e = .idle) : A.bus e' = .idle ∨ A.bus e' = .owner := by
  refine h.keeps keeps.pure (fun e => A.bus e = .idle ∨ A.bus e = .owner) (fun act e1 e2 ho hm hb => ?_) (.inl hbus)
  rcases hb with hb | hb
  · exact (alone.idleStays act e1 e2 ho hm hb).imp_right And.left
  · exact .inr (Quiet.owner keeps sound (.own act e1 e2 e2 ho hm (.refl e2)) hb)

/-- A START that went beyond its check: the address byte is over when the last read of its wait has been made. -/
theorem start_addressed (keeps : A.Keeps) (alone : A.NoOtherParticipant) (sound : A.NoFault) {addr : SlaveAddr} {d : Direction}
    {b0 b : Byte} {bs : List Byte} (h : A.Plays e (.readStatus b0 :: .writeAddr (compose addr d) :: statusReads (bs ++ [b])) e')
    (hidle : busOf b0 = .idle) (hseen : (addressFlag d).seenIn b = true) :
    ∃ e0 e1, A.Quiet e e0 ∧ A.bus e0 = .idle ∧ A.Quiet e0 e1 ∧ Addressed addr d (!rxnackOf b) (A.wire e1) (A.wire e') := by
  obtain ⟨e0, hq0, rfl, hwrite⟩ := h.read_inv keeps.pure
  obtain ⟨e1, e2, hq1, hm, hwait⟩ := hwrite.cons_inv
  exact ⟨e0, e1, hq0, hidle, hq1, address_phase keeps sound hm (hq1.idle_or_owner keeps alone sound hidle) hwait hseen⟩

end Adapter

open Adapter

/-- What START leaves on the bus, by its outcome: the address byte over after Ok; after Nack that too, and then a stop. -/
theorem start_leaves {A : Adapter} (keeps : A.Keeps) (alone : A.NoOtherParticipant) (sound : A.NoFault) {limit : Count}
    {addr : SlaveAddr} {dir : DirField} {o : TxOutcome} {es : List Event} {e e' : A.State}
    (h : StepEnds limit (.start addr dir) o es) (hplay : A.Plays e es e') (ho : o = .ok ∨ o = .nack) :
    ∃ d e0 e1, direction? dir = some d ∧ A.Quiet e e0 ∧ A.bus e0 = .idle ∧ A.Quiet e0 e1 ∧
      (o = .ok → Addressed addr d true (A.wire e1) (A.wire e')) ∧
      (o = .nack → A.bus e' = .idle ∧ ∃ w, Addressed addr d false (A.wire e1) w ∧ A.wire e' = w.released []) := by
  cases h with
  | startOk _ _ d b0 bs b hd hidle hw hack =>
    obtain ⟨e0, e1, hcheck, hbus, hq, haddressed⟩ := start_addressed keeps alone sound hplay hidle hw.2.2
    exact ⟨d, e0, e1, hd, hcheck, hbus, hq, fun _ => by simpa [hack] using haddressed, nofun⟩
  | startNack _ _ d b0 bs b hd hidle hw hack =>
    obtain ⟨e2, hreads, hstop⟩ := hplay.append_inv
    obtain ⟨e0, e1, hcheck, hbus, hq, haddressed⟩ := start_addressed keeps alone sound hreads hidle hw.2.2
    obtain ⟨e3, hq', hend, hw⟩ := stop_settles keeps alone sound hstop (haddressed.bus keeps)
    rw [hq'.settled keeps sound ⟨haddressed.pending, .inl haddressed.holder⟩] at hw
    exact ⟨d, e0, e1, hd, hcheck, hbus, hq, nofun, fun _ => ⟨hend, _, by simpa [hack] using haddressed, hw⟩⟩
  | _ => simp at ho

/-- Settles O43: after Ok the address byte is over and the bus this master's, after Nack the stop is made. -/
theorem startLeavesTheBusOwnedOrIdle : Obligations.StartLeavesTheBusOwnedOrIdle := by
  intro A keeps alone sound addr dir s t es e e' ht htrace hplay
  obtain ⟨o, ho, hends⟩ := StepEnds.of_exec (p := .start addr dir) rfl ht htrace
  rw [ho, TxOutcome.code_ok, TxOutcome.code_nack]
  refine ⟨fun hok => ?_, fun hnack => ?_⟩
  · obtain ⟨d, e0, e1, -, -, -, -, haddressed, -⟩ := start_leaves keeps alone sound hends hplay (.inl hok)
    exact (haddressed hok).bus keeps
  · obtain ⟨d, e0, e1, -, -, -, -, -, hstop⟩ := start_leaves keeps alone sound hends hplay (.inr hnack)
    exact (hstop hnack).1

/-- Settles O44: RSTART is on an owned bus, and its address byte is over. -/
theorem rstartKeepsTheBus : Obligations.RstartKeepsTheBus := by
  intro A keeps sound addr dir s t es e e' ht htrace hplay ho
  obtain ⟨o, hcode, hends⟩ := StepEnds.of_exec (p := .rstart addr dir) rfl ht htrace
  rw [hcode, TxOutcome.code_ok, TxOutcome.code_nack] at ho
  cases hends with
  | rstartNack _ _ d b0 bs b hd hbus hw | rstartOk _ _ d b0 bs b hd hbus hw =>
    obtain ⟨e0, -, rfl, hwrite⟩ := hplay.read_inv keeps.pure
    obtain ⟨e1, e2, hq, hm, hwait⟩ := hwrite.cons_inv
    exact (address_phase keeps sound hm (.inr (hq.owner keeps sound hbus)) hwait hw.2.2).bus keeps
  | _ => simp at ho

/-- Settles O45: an owned bus stays owned up to the stop, after which it reads Idle. -/
theorem stopAndLastReadReleaseTheBus : Obligations.StopAndLastReadReleaseTheBus := by
  intro A keeps alone sound s t es e e' htrace hplay
  refine ⟨fun ht hbus => ?_, fun ht hok => ?_⟩
  · obtain ⟨o, -, hends⟩ := StepEnds.of_exec (p := .stop) rfl ht htrace
    cases hends
    obtain ⟨-, -, hidle, -⟩ := stop_settles keeps alone sound hplay hbus
    exact hidle
  · obtain ⟨o, ho, hends⟩ := StepEnds.of_exec (p := .recv .nack) rfl ht htrace
    rw [ho, TxOutcome.code_ok] at hok
    subst hok
    cases hends with
    | recvOk _ b0 bs b x hbus hw =>
      obtain ⟨e0, -, rfl, hplay'⟩ := hplay.read_inv keeps.pure
      obtain ⟨e1, hreads, haccesses⟩ := hplay'.append_inv
      obtain ⟨e2, e3, hq, hread, hlast⟩ := haccesses.cons_inv
      obtain ⟨e4, e5, hq', hcommand, hend⟩ := hlast.cons_inv
      have howner := (hreads.reads_inv.trans hq).owner keeps sound hbus
      have howner' := keeps.bus.stays _ _ _ hread (.inr ⟨x, .inr rfl⟩) nofun nofun howner
      have hw := keeps.record.follows _ _ _ hcommand
      simp only [receiveCmd, Wire.Follows, if_pos (hq'.owner keeps sound howner')] at hw
      exact (released_settles keeps alone sound hw hend.nil_inv).1

/-! ### SEND -/

/-- How far the data byte `x` has come on a bus this master holds; while it is not over `wif` does not stand (R54). -/
def Adapter.DataPhase (A : Adapter) (x : Byte) (e : A.State) : Prop :=
  (A.wire e).holder = .ours ∧ (((A.wire e).pending = .data x ∧ A.shows .wif e = false) ∨ (A.wire e).pending = .none)

theorem Adapter.DataPhase.own {A : Adapter} {e e' : A.State} (keeps : A.Keeps) (sound : A.NoFault) {x : Byte} {act : Act}
    (ho : act.own = true) (hm : A.move act e e') (h : A.DataPhase x e) : A.DataPhase x e' := by
  have hfollows := keeps.record.follows act e e' hm
  have hadmits := keeps.record.admits act e e' hm
  have hdown := flag_stays_down keeps.rise (f := .wif) hm
  obtain ⟨hholder, ⟨hpend, hflag⟩ | hpend⟩ := h
  · cases act with
    | engine => cases ho
    | time =>
      have hw : A.wire e' = A.wire e := hfollows
      exact ⟨hw ▸ hholder, .inl ⟨hw ▸ hpend, hdown nofun nofun hflag⟩⟩
    | startMade => simp [Wire.Admits, hpend] at hadmits
    | sentOver a =>
      have hw : A.wire e' = (A.wire e).sentOver a := hfollows
      rw [Wire.sentOver, hpend] at hw
      exact ⟨by rw [hw, hholder], .inr (by rw [hw])⟩
    | readOver => simp [Wire.Admits, hpend] at hadmits
    | startFails => exact absurd hm (sound.noFail _ _)
    | fault => exact absurd hm (sound.noFault _ _)
    | otherStarts => exact absurd hholder hadmits
    | busFreed => exact absurd hholder hadmits
  · have hw := settled_own keeps sound ho hm ⟨hpend, .inl hholder⟩
    exact ⟨by rw [hw, hholder], .inr (by rw [hw, hpend])⟩

/-- A data byte written on an owned bus, and the wait that saw its flag. -/
theorem data_phase {A : Adapter} {e e1 e' : A.State} (keeps : A.Keeps) (sound : A.NoFault) {x b : Byte} {bs : List Byte}
    (hm : A.move (.engine (.writeData x)) e e1) (hbus : A.bus e = .owner) (hwait : A.Plays e1 (statusReads (bs ++ [b])) e')
    (hseen : wifOf b = true) : A.bus e' = .owner := by
  have hw := keeps.record.follows _ _ _ hm
  simp only [Wire.Follows, if_pos hbus] at hw
  have hbegin : A.DataPhase x e1 :=
    ⟨by rw [hw]; exact keeps.bus.owner e hbus, .inl ⟨by rw [hw]; rfl, keeps.cleared.byData _ _ _ hm⟩⟩
  obtain ⟨e2, hq, rfl, hend⟩ := hwait.wait_inv keeps.pure
  obtain ⟨hholder, ⟨-, hno⟩ | hpend⟩ := hq.keeps keeps.pure (A.DataPhase x) (fun _ _ _ ho hm => .own keeps sound ho hm) hbegin
  · exact absurd hseen (Bool.eq_false_iff.1 hno)
  · exact hend.owner keeps sound (keeps.bus.held e2 hholder hpend)

/-- Settles O53: SEND is on an owned bus, and its data byte is over. -/
theorem sendKeepsTheBus : Obligations.SendKeepsTheBus := by
  intro A keeps sound x s t es e e' ht htrace hplay ho
  obtain ⟨o, hcode, hends⟩ := StepEnds.of_exec (p := .send x) rfl ht htrace
  rw [hcode, TxOutcome.code_ok, TxOutcome.code_nack] at ho
  cases hends with
  | sendNack _ b0 bs b hbus hw | sendOk _ b0 bs b hbus hw =>
    obtain ⟨e0, -, rfl, hwrite⟩ := hplay.read_inv keeps.pure
    obtain ⟨e1, e2, hq, hm, hwait⟩ := hwrite.cons_inv
    exact data_phase keeps sound hm (hq.owner keeps sound hbus) hwait hw.2.2
  | _ => simp at ho

/-! ### Failed checks -/

/-- A step that returns BusBusy has made the read of its check, one that returns InvalidDirection nothing. -/
theorem StepEnds.failed_check {limit : Count} {p : Prim} {o : TxOutcome} {es : List Event} (h : StepEnds limit p o es) :
    ((∃ c, o = .busBusy c) → ∃ b, es = [.readStatus b]) ∧ (o = .invalidDirection → es = []) := by
  cases h <;> simp

/-- Settles O54: with one status read or no event at all, only own moves lie between the two states. -/
theorem failedChecksTouchNothing : Obligations.FailedChecksTouchNothing := by
  intro A i s t es e e' hone ht htrace hplay
  obtain ⟨p, hp⟩ := List.length_eq_one_iff.1 hone
  obtain ⟨o, ho, hends⟩ := StepEnds.of_exec hp ht htrace
  obtain ⟨hbusy, hinvalid⟩ := hends.failed_check
  rw [ho, TxOutcome.code_busBusy, TxOutcome.code_invalidDirection]
  refine ⟨fun h => ?_, fun h => ?_⟩
  · obtain ⟨b, rfl⟩ := hbusy h
    exact ⟨Plays.reads_inv (bs := [b]) hplay, b, rfl⟩
  · obtain rfl := hinvalid h
    exact ⟨hplay.nil_inv, rfl⟩

/-! ### What START puts on the bus -/

/-- Nothing is put on a bus by itself while nothing is under way, no one else acts and nothing fails. -/
theorem Adapter.Quiet.nothing_new {A : Adapter} {e e' : A.State} (keeps : A.Keeps) (alone : A.NoOtherParticipant)
    (sound : A.NoFault) (h : A.Quiet e e') (hpend : (A.wire e).pending = .none) :
    (A.wire e').pending = .none ∧ (A.wire e').items = (A.wire e).items := by
  refine h.keeps keeps.pure (fun e' => (A.wire e').pending = .none ∧ (A.wire e').items = (A.wire e).items)
    (fun act e1 e2 ho hm ⟨hpend, hitems⟩ => ?_) ⟨hpend, rfl⟩
  have hfollows := keeps.record.follows act e1 e2 hm
  have hadmits := keeps.record.admits act e1 e2 hm
  cases act with
  | engine => cases ho
  | time =>
    have hw : A.wire e2 = A.wire e1 := hfollows
    rw [hw]
    exact ⟨hpend, hitems⟩
  | startMade => simp [Wire.Admits, hpend] at hadmits
  | sentOver => simp [Wire.Admits, hpend] at hadmits
  | readOver => simp [Wire.Admits, hpend] at hadmits
  | startFails => exact absurd hm (sound.noFail _ _)
  | fault => exact absurd hm (sound.noFault _ _)
  | otherStarts => exact absurd hm (alone.noStart _ _)
  | busFreed =>
    have hw : A.wire e2 = { A.wire e1 with holder := .free } := hfollows
    rw [hw]
    exact ⟨hpend, hitems⟩

/-- Settles O55: the bus is idle with nothing under way up to the address write, which makes a start; its byte is over after Ok and Nack. -/
theorem startPutsItsAddressOnTheBus : Obligations.StartPutsItsAddressOnTheBus := by
  intro A keeps alone sound addr dir d s t es e e' hd hpend ht htrace hplay
  obtain ⟨o, ho, hends⟩ := StepEnds.of_exec (p := .start addr dir) rfl ht htrace
  rw [ho, TxOutcome.code_ok, TxOutcome.code_nack]
  have hstart {e0 e1 : A.State} (hcheck : A.Quiet e e0) (hbus : A.bus e0 = .idle) (hq : A.Quiet e0 e1) :
      (A.wire e1).items = (A.wire e).items ∧ startItem (A.wire e1) = .start := by
    obtain ⟨hpend0, hitems0⟩ := hcheck.nothing_new keeps alone sound hpend
    have hfree := keeps.bus.idle e0 hbus
    rw [hq.settled keeps sound ⟨hpend0, .inr ⟨hfree, alone⟩⟩]
    exact ⟨hitems0, by simp [startItem, hfree]⟩
  refine ⟨fun hok => ?_, fun hnack => ?_⟩
  · obtain ⟨d', e0, e1, hd', hcheck, hbus, hq, haddressed, -⟩ := start_leaves keeps alone sound hends hplay (.inl hok)
    cases hd.symm.trans hd'
    obtain ⟨hitems, hitem⟩ := hstart hcheck hbus hq
    obtain ⟨-, -, hsent, hread⟩ := haddressed hok
    rw [hitems, hitem] at hsent hread
    refine ⟨fun hwrite => hsent (.inl hwrite), fun hdir => ?_⟩
    obtain ⟨x, hbyte, hitems'⟩ := hread hdir rfl
    exact ⟨x, hitems', keeps.receives.holds e' x hbyte⟩
  · obtain ⟨d', e0, e1, hd', hcheck, hbus, hq, -, hstop⟩ := start_leaves keeps alone sound hends hplay (.inr hnack)
    cases hd.symm.trans hd'
    obtain ⟨hitems, hitem⟩ := hstart hcheck hbus hq
    obtain ⟨-, w, haddressed, hw⟩ := hstop hnack
    rw [hw]
    simp [Wire.released, haddressed.sent (.inr rfl), hitems, hitem]

end Sys2Proof.Machine
end


section
/-!
`RefBus` as an environment (20_memory.md section 5): it keeps the adapter contract, and every command's run is one it takes part in.
-/

namespace Sys2Proof.Machine

variable {r : RefBus} {w : Wire}

/-! ### The clock as a move of its own -/

/-- What a tick of the clock is on the bus, and what it does to `RefBus`. -/
inductive RefBus.Ticks (r : RefBus) (w : Wire) : Act → Prop where
  | time : r.tick.wif = r.wif → r.tick.rif = r.rif → r.tick.pendingMatches w → Ticks r w .time
  | addressWritten (b : Byte) : w.pending = .address b true → b.getLsbD 0 = false →
      r.tick = { r with wif := true, pend := .none } → Ticks r w (.sentOver (!r.rxnack))
  | dataWritten (b : Byte) : w.pending = .data b → r.tick = { r with wif := true, pend := .none } → Ticks r w (.sentOver (!r.rxnack))
  | addressRefused (b : Byte) : w.pending = .address b true → b.getLsbD 0 = true → r.rxnack = true →
      r.tick = { r with rif := true, pend := .none } → Ticks r w (.sentOver false)
  | firstByte (b : Byte) : w.pending = .address b true → b.getLsbD 0 = true → r.rxnack = false →
      r.tick = { r with rif := true, pend := .none } → Ticks r w (.readOver r.dreg)
  | received : w.pending = .receive → r.tick = { r with rif := true, pend := .none } → Ticks r w (.readOver r.dreg)

theorem RefBus.Linked.ticks (h : r.Linked w) : r.Ticks w (r.tickAct w) := by
  have hmatches := h.pend
  unfold RefBus.pendingMatches at hmatches
  match hpend : r.pend with
  | .none =>
    have htick : r.tick = r := by simp [RefBus.tick, hpend]
    simp only [RefBus.tickAct, hpend]
    exact .time (by rw [htick]) (by rw [htick]) (by rw [htick]; exact h.pend)
  | .w (k + 1) =>
    have htick : r.tick = { r with pend := .w k } := by simp [RefBus.tick, hpend]
    simp only [RefBus.tickAct, hpend] at hmatches ⊢
    exact .time (by rw [htick]) (by rw [htick]) (by rw [htick]; exact hmatches)
  | .r (k + 1) =>
    have htick : r.tick = { r with pend := .r k } := by simp [RefBus.tick, hpend]
    simp only [RefBus.tickAct, hpend] at hmatches ⊢
    exact .time (by rw [htick]) (by rw [htick]) (by rw [htick]; exact hmatches)
  | .w 0 =>
    have htick : r.tick = { r with wif := true, pend := .none } := by simp [RefBus.tick, hpend]
    simp only [RefBus.tickAct, hpend] at hmatches ⊢
    rcases hmatches with ⟨b, hb, hbit⟩ | ⟨b, hb⟩
    · exact .addressWritten b hb hbit htick
    · exact .dataWritten b hb htick
  | .r 0 =>
    have htick : r.tick = { r with rif := true, pend := .none } := by simp [RefBus.tick, hpend]
    simp only [RefBus.tickAct, hpend] at hmatches ⊢
    rcases hmatches with ⟨b, hb, hbit⟩ | hb
    · cases hack : r.rxnack
      · simpa [hb] using RefBus.Ticks.firstByte b hb hbit hack htick
      · simpa [hb] using RefBus.Ticks.addressRefused b hb hbit hack htick
    · simpa [hb] using RefBus.Ticks.received hb htick

theorem RefBus.tickAct_own (r : RefBus) (w : Wire) : (r.tickAct w).own = true := by
  unfold RefBus.tickAct
  repeat' split
  all_goals rfl

/-- When a byte is over, the record of it goes with the state after the tick. -/
theorem RefBus.Linked.tick_over {w' : Wire} (h : r.Linked w) (htick : r.tick.pend = .none) (hholder : w'.holder = w.holder)
    (hstop : w'.stopped = w.stopped) (hbyte : ∀ x, w'.byte = some x → r.dreg = x)
    (hlast : ∀ o, w'.last = some o → r.rxnack = !o.acked) : r.tick.Linked w' where
  wf := RefBus.tick_wf h.wf
  owner := by simpa [hholder] using h.owner
  idle := by simpa [hholder] using h.idle
  busy := by simpa [hholder] using h.busy
  stopped := by simpa [hstop] using h.stopped
  pend := by simp [RefBus.pendingMatches, htick]
  byte := by simpa using hbyte
  last o ho _ := by simpa using hlast o ho

/-- The record after a tick. -/
theorem RefBus.Linked.tick (h : r.Linked w) : ∃ w', w.Follows r.bus (r.tickAct w) w' ∧ r.tick.Linked w' := by
  have hticks := h.ticks
  generalize r.tickAct w = act at hticks
  cases hticks with
  | time hwif hrif hpend =>
    obtain ⟨hwf, howner, hidle, hbusy, hstopped, -, hbyte, hlast⟩ := h
    exact ⟨w, rfl, RefBus.tick_wf hwf, by simpa using howner, by simpa using hidle, by simpa using hbusy, by simpa using hstopped,
      hpend, by simpa using hbyte, by simpa [hwif, hrif] using hlast⟩
  | addressWritten b hb hbit htick =>
    refine ⟨_, rfl, h.tick_over (by rw [htick]) ?_ ?_ ?_ ?_⟩ <;> simp [Wire.sentOver, hb]
    exact h.byte
  | dataWritten b hb htick =>
    refine ⟨_, rfl, h.tick_over (by rw [htick]) ?_ ?_ ?_ ?_⟩ <;> simp [Wire.sentOver, hb]
    exact h.byte
  | addressRefused b hb hbit hack htick =>
    refine ⟨_, rfl, h.tick_over (by rw [htick]) ?_ ?_ ?_ ?_⟩ <;> simp [Wire.sentOver, hb, hack]
    exact h.byte
  | firstByte b hb hbit hack htick =>
    refine ⟨_, rfl, h.tick_over (by rw [htick]) ?_ ?_ ?_ ?_⟩ <;> simp [Wire.readOver, hb, hack]
  | received hb htick =>
    refine ⟨_, rfl, h.tick_over (by rw [htick]) ?_ ?_ ?_ ?_⟩ <;> simp [Wire.readOver, hb]

/-! ### The accesses -/

/-- While the bus is not owned no flag stands and no completion is pending. -/
theorem RefBus.Linked.quiet (h : r.Linked w) (hbus : r.bus ≠ .owner) : r.wif = false ∧ r.rif = false ∧ r.pend = .none := by
  obtain ⟨hwif, hrif, hpend, -⟩ := ((RefBus.wf_iff r).1 h.wf).2.resolve_left hbus
  exact ⟨hwif, hrif, hpend⟩

/-- An address write on an idle or owned bus clears the flags and makes the slave's completion pending (R61). -/
theorem RefBus.writeAddr_starts (b : Byte) (h : r.bus = .idle ∨ r.bus = .owner) :
    (r.writeAddr b).wif = false ∧ (r.writeAddr b).rif = false ∧
      ((r.writeAddr b).pend = .none ∨ (b.getLsbD 0 = false ∧ ∃ k, (r.writeAddr b).pend = .w k) ∨
        (b.getLsbD 0 = true ∧ ∃ k, (r.writeAddr b).pend = .r k)) := by
  unfold RefBus.writeAddr
  rw [if_pos h]
  cases hbit : b.getLsbD 0 <;> cases hlat : r.lat <;> by_cases haddr : b.extractLsb' 1 7 = r.saddr <;>
    simp [RefBus.fetch, RefBus.pendR, RefBus.pendW, hlat, haddr]

theorem RefBus.Linked.writeAddr (h : r.Linked w) (b : Byte) :
    ∃ w', w.Follows r.bus (.engine (.writeAddr b)) w' ∧ (r.writeAddr b).Linked w' := by
  by_cases hbus : r.bus = .idle ∨ r.bus = .owner
  · obtain ⟨hwif, hrif, hpend⟩ := RefBus.writeAddr_starts b hbus
    have howner := RefBus.writeAddr_bus r b hbus
    refine ⟨(w.asked b).started, by simp [Wire.Follows, hbus], RefBus.writeAddr_wf b h.wf, ?_, ?_, ?_, nofun, ?_, nofun, nofun⟩
    · exact ⟨fun _ => howner, fun _ => rfl⟩
    · simp [howner]
    · simp [howner]
    · rcases hpend with hpend | ⟨hbit, k, hpend⟩ | ⟨hbit, k, hpend⟩
      · simp [RefBus.pendingMatches, hpend]
      · simp only [RefBus.pendingMatches, hpend]
        exact .inl ⟨b, rfl, hbit⟩
      · simp only [RefBus.pendingMatches, hpend]
        exact .inl ⟨b, rfl, hbit⟩
  · have hsame : r.writeAddr b = r := if_neg hbus
    exact ⟨w, by simp [Wire.Follows, hbus, Wire.SameBus], by rwa [hsame]⟩

/-- A data write on an owned bus clears `wif` and makes the slave's completion pending (R62). -/
theorem RefBus.writeData_starts (b : Byte) (h : r.bus = .owner) :
    (r.writeData b).wif = false ∧ (r.writeData b).pend = r.pendW := by
  unfold RefBus.writeData RefBus.take
  cases hf : r.first <;> by_cases hmode : r.mode = .rx <;> simp [h, hmode, RefBus.pendW]

theorem RefBus.Linked.writeData (h : r.Linked w) (b : Byte) :
    ∃ w', w.Follows r.bus (.engine (.writeData b)) w' ∧ (r.writeData b).Linked w' := by
  by_cases hbus : r.bus = .owner
  · obtain ⟨-, hpend⟩ := RefBus.writeData_starts b hbus
    refine ⟨w.handed b, by simp [Wire.Follows, hbus], RefBus.writeData_wf b h.wf, ?_, ?_, ?_, ?_, ?_, nofun, nofun⟩
    · simpa [Wire.handed] using h.owner
    · simp [hbus]
    · simp [hbus]
    · simpa [Wire.handed] using h.stopped
    · cases hlat : r.lat <;> simp [RefBus.pendingMatches, hpend, RefBus.pendW, hlat, Wire.handed]
  · have hsame : r.writeData b = r := if_neg hbus
    exact ⟨w, by simp [Wire.Follows, hbus, Wire.SameBus], by rwa [hsame]⟩

/-- A stop on an owned bus, whatever is sent before it. -/
theorem RefBus.Linked.released (h : r.Linked w) (hbus : r.bus = .owner) (l : List BusItem) :
    (r.command .stop).Linked (w.released l) where
  wf := RefBus.command_wf .stop h.wf
  owner := by simp [RefBus.command, hbus, Wire.released]
  idle _ := rfl
  busy := by simp [RefBus.command, hbus]
  stopped _ := (command_stop_idle hbus).1
  pend := by simp [RefBus.pendingMatches, RefBus.command, hbus]
  byte := nofun
  last := nofun

/-- A continue-receive command on an owned bus clears the flags; a slave that sends puts its next byte there, and another slave does nothing
(R64). -/
theorem RefBus.continue_starts (hbus : r.bus = .owner) :
    (r.command .continueReceive).wif = false ∧ (r.command .continueReceive).rif = false ∧
      (r.command .continueReceive).bus = .owner ∧
      ((r.mode = .tx ∧ (r.command .continueReceive).pend = r.pendR) ∨
        (r.mode ≠ .tx ∧ (r.command .continueReceive).pend = r.pend ∧ (r.command .continueReceive).dreg = r.dreg)) := by
  by_cases hmode : r.mode = .tx <;> simp [RefBus.command, RefBus.fetch, RefBus.pendR, hbus, hmode]

/-- The next byte is awaited in the record `w'`. -/
theorem RefBus.Linked.awaiting {w' : Wire} (h : r.Linked w) (hbus : r.bus = .owner) (hholder : w'.holder = w.holder)
    (hstop : w'.stopped = w.stopped) (hpend : w'.pending = .receive) (hbyte : w'.byte = none) (hlast : w'.last = none)
    (hcompletes : ∀ k, (r.command .continueReceive).pend ≠ .w k) : (r.command .continueReceive).Linked w' := by
  obtain ⟨-, -, howner, -⟩ := RefBus.continue_starts hbus
  refine ⟨RefBus.command_wf _ h.wf, ?_, ?_, ?_, ?_, ?_, ?_, ?_⟩
  · simpa [hholder, howner, hbus] using h.owner
  · simp [howner]
  · simp [howner]
  · simpa [hstop, howner, hbus] using h.stopped
  · cases hp : (r.command .continueReceive).pend with
    | none => simp [RefBus.pendingMatches, hp]
    | w k => exact absurd hp (hcompletes k)
    | r k => simp [RefBus.pendingMatches, hp, hpend]
  · simp [hbyte]
  · simp [hlast]

theorem RefBus.Linked.continued (h : r.Linked w) (hbus : r.bus = .owner) :
    ∃ w', w.Follows r.bus (.engine (.command .continueReceive)) w' ∧ (r.command .continueReceive).Linked w' := by
  obtain ⟨hwif, hrif, howner, hpend⟩ := RefBus.continue_starts hbus
  have hsending (hpendR : (r.command .continueReceive).pend = r.pendR) : ∀ k, (r.command .continueReceive).pend ≠ .w k := by
    intro k
    rw [hpendR]
    cases hlat : r.lat <;> simp [RefBus.pendR, hlat]
  by_cases hreceives : w.reading = true ∧ w.pending = .none
  · refine ⟨w.continued, by simp only [Wire.Follows, if_pos (And.intro hbus hreceives)],
      h.awaiting hbus rfl rfl rfl rfl rfl ?_⟩
    rcases hpend with ⟨-, hpend⟩ | ⟨-, hpend, -⟩
    · exact hsending hpend
    · intro k hk
      have hmatches := h.pend
      simp [RefBus.pendingMatches, hpend.symm.trans hk, hreceives.2] at hmatches
  · have hneg : ¬(r.bus = .owner ∧ w.reading = true ∧ w.pending = .none) := fun hc => hreceives hc.2
    rcases hpend with ⟨-, hpend⟩ | ⟨-, hpend, hdreg⟩
    · exact ⟨{ w with pending := .receive, last := none, byte := none },
        by simp only [Wire.Follows, if_neg hneg]; exact ⟨rfl, rfl, rfl⟩, h.awaiting hbus rfl rfl rfl rfl rfl (hsending hpend)⟩
    · refine ⟨w, by simp only [Wire.Follows, if_neg hneg]; exact ⟨rfl, rfl, rfl⟩, RefBus.command_wf _ h.wf, ?_, ?_, ?_, ?_, ?_,
        ?_, ?_⟩
      · simpa [howner, hbus] using h.owner
      · simp [howner]
      · simp [howner]
      · simpa [howner, hbus] using h.stopped
      · simpa [RefBus.pendingMatches, hpend] using h.pend
      · simpa [hdreg] using h.byte
      · simp [hwif, hrif]

/-- A command on a bus this master does not own does nothing. -/
theorem RefBus.Linked.command_unowned (h : r.Linked w) (hbus : r.bus ≠ .owner) (c : AdapterCmd) : r.command c = r := by
  obtain ⟨hwif, hrif, -⟩ := h.quiet hbus
  have hcleared : { r with rif := false, wif := false } = r := by cases r; simp_all
  cases c <;> simp [RefBus.command, hbus, hcleared]

theorem RefBus.Linked.command (h : r.Linked w) (c : AdapterCmd) :
    ∃ w', w.Follows r.bus (.engine (.command c)) w' ∧ (r.command c).Linked w' := by
  by_cases hbus : r.bus = .owner
  · cases c with
    | none => exact ⟨w, rfl, h⟩
    | stop => exact ⟨_, by simp only [Wire.Follows, if_pos hbus], h.released hbus []⟩
    | nackAndStop => exact ⟨_, by simp only [Wire.Follows, if_pos hbus], h.released hbus [.nack]⟩
    | continueReceive => exact h.continued hbus
  · exact ⟨w, by cases c <;> simp [Wire.Follows, hbus, Wire.SameBus], by rwa [h.command_unowned hbus]⟩

/-! ### The moves of `RefBus` -/

/-- `RefBus` answers every access of the engine, a read with what it shows. -/
theorem refBus_answers (x : { x : RefBus × Wire // x.1.Linked x.2 }) {ev : Event}
    (hstatus : ∀ b, ev = .readStatus b → b = x.1.1.status) (hdata : ∀ b, ev = .readData b → b = x.1.1.dreg) :
    ∃ y, refBusAdapter.move (.engine ev) x y := by
  obtain ⟨⟨r, w⟩, h⟩ := x
  cases ev with
  | readStatus b => exact ⟨⟨(r, w), h⟩, ⟨rfl, hstatus b rfl⟩, rfl⟩
  | readData b => exact ⟨⟨(r, w), h⟩, ⟨rfl, hdata b rfl⟩, rfl⟩
  | writeAddr b =>
    obtain ⟨w', hf, h'⟩ := h.writeAddr b
    exact ⟨⟨(_, w'), h'⟩, rfl, hf⟩
  | writeData b =>
    obtain ⟨w', hf, h'⟩ := h.writeData b
    exact ⟨⟨(_, w'), h'⟩, rfl, hf⟩
  | command c =>
    obtain ⟨w', hf, h'⟩ := h.command c
    exact ⟨⟨(_, w'), h'⟩, rfl, hf⟩

/-- The clock of `RefBus` can tick. -/
theorem refBus_ticks (x : { x : RefBus × Wire // x.1.Linked x.2 }) :
    ∃ y : { y : RefBus × Wire // y.1.Linked y.2 }, refBusAdapter.move (x.1.1.tickAct x.1.2) x y ∧ y.1.1 = x.1.1.tick := by
  obtain ⟨w', hf, h'⟩ := x.2.tick
  have hown := x.1.1.tickAct_own x.1.2
  refine ⟨⟨(_, w'), h'⟩, ⟨?_, hf⟩, rfl⟩
  generalize hact : x.1.1.tickAct x.1.2 = act at hown
  cases act with
  | engine => cases hown
  | _ => exact ⟨hact.symm, rfl⟩

/-- A move of `RefBus`'s own is a tick. -/
theorem refBus_own {x y : { x : RefBus × Wire // x.1.Linked x.2 }} {act : Act} (ho : act.own = true)
    (h : refBusAdapter.move act x y) : x.1.1.Ticks x.1.2 act ∧ y.1.1 = x.1.1.tick := by
  obtain ⟨hmove, -⟩ := h
  cases act with
  | engine => cases ho
  | _ => exact ⟨hmove.1 ▸ x.2.ticks, hmove.2⟩

/-! ### The contract -/

section
variable (x : { x : RefBus × Wire // x.1.Linked x.2 })

theorem refBus_wif : refBusAdapter.shows .wif x = x.1.1.wif := RefBus.wifOf_status _
theorem refBus_rif : refBusAdapter.shows .rif x = x.1.1.rif := RefBus.rifOf_status _
theorem refBus_rxnack : rxnackOf (refBusAdapter.status x) = x.1.1.rxnack := RefBus.rxnackOf_status _
theorem refBus_bus : refBusAdapter.bus x = x.1.1.bus := RefBus.busOf_status _

end

/-- No access raises a flag. -/
theorem refBus_access {x y : { x : RefBus × Wire // x.1.Linked x.2 }} {ev : Event} (h : refBusAdapter.move (.engine ev) x y) :
    (y.1.1.wif = true → x.1.1.wif = true) ∧ (y.1.1.rif = true → x.1.1.rif = true) := by
  have hmove := h.1
  cases ev with
  | readStatus b | readData b => rw [hmove.1]; exact ⟨id, id⟩
  | writeAddr b =>
    rw [show y.1.1 = _ from hmove]
    by_cases hbus : x.1.1.bus = .idle ∨ x.1.1.bus = .owner
    · obtain ⟨hwif, hrif, -⟩ := RefBus.writeAddr_starts b hbus
      simp [hwif, hrif]
    · simp [RefBus.writeAddr, hbus]
  | writeData b =>
    rw [show y.1.1 = _ from hmove]
    unfold RefBus.writeData RefBus.take
    cases hf : x.1.1.first <;> by_cases hbus : x.1.1.bus = .owner <;> by_cases hmode : x.1.1.mode = .rx <;> simp [hbus, hmode]
  | command c =>
    rw [show y.1.1 = _ from hmove]
    by_cases hbus : x.1.1.bus = .owner
    · cases c with
      | continueReceive =>
        obtain ⟨hwif, hrif, -⟩ := RefBus.continue_starts hbus
        simp [hwif, hrif]
      | _ => simp [RefBus.command, hbus]
    · rw [x.2.command_unowned hbus]
      exact ⟨id, id⟩

theorem refBus_keepsRecord : refBusAdapter.KeepsRecord where
  follows act x y h := by
    rw [refBus_bus]
    exact h.2
  admits act x y h := by
    by_cases ho : act.own = true
    · obtain ⟨hticks, -⟩ := refBus_own ho h
      cases hticks with
      | time => trivial
      | addressWritten b hb hbit => exact .inl ⟨b, hb, .inl hbit⟩
      | dataWritten b hb => exact .inr ⟨b, hb⟩
      | addressRefused b hb => exact .inl ⟨b, hb, .inr rfl⟩
      | firstByte b hb hbit => exact .inl ⟨b, hb, hbit⟩
      | received hb => exact .inr hb
    · cases act with
      | engine => trivial
      | _ => exact absurd rfl ho

theorem refBus_statusReadsPure : refBusAdapter.StatusReadsPure := by
  intro x y b ⟨⟨hr, hb⟩, hw⟩
  exact ⟨Subtype.ext (Prod.ext hr hw), hb⟩

/-- A bus this master holds reads Owner after a tick too. -/
theorem refBus_tick_owner {x y : { x : RefBus × Wire // x.1.Linked x.2 }} (htick : y.1.1 = x.1.1.tick)
    (hholder : x.1.2.holder = .ours) : refBusAdapter.bus y = .owner := by
  rw [refBus_bus, htick, RefBus.tick_bus]
  exact x.2.owner.1 hholder

theorem refBus_addressStarts : refBusAdapter.AddressStarts where
  completes x y b g a h hpend := by
    have hpend : x.1.2.pending = .address b g := hpend
    obtain ⟨hticks, htick⟩ := refBus_own rfl h
    refine ⟨?_, ?_, refBus_tick_owner htick⟩
    · cases hticks with
      | addressWritten b' hb hbit htick' =>
        cases hpend.symm.trans hb
        rw [if_neg (Bool.eq_false_iff.1 hbit)]
        exact (refBus_wif y).trans (by rw [htick, htick'])
      | dataWritten b' hb => cases hpend.symm.trans hb
      | addressRefused b' hb hbit _ htick' =>
        cases hpend.symm.trans hb
        rw [if_pos hbit]
        exact (refBus_rif y).trans (by rw [htick, htick'])
    · rw [refBus_rxnack, htick, RefBus.tick_rxnack]
      cases hticks with
      | addressWritten | dataWritten => simp
      | addressRefused _ _ _ hack => simpa using hack
  firstByte x y b g v h hpend := by
    have hpend : x.1.2.pending = .address b g := hpend
    obtain ⟨hticks, htick⟩ := refBus_own rfl h
    rw [refBus_rif, refBus_rxnack, htick, RefBus.tick_rxnack]
    cases hticks with
    | firstByte b' _ _ hack htick' => exact ⟨by rw [htick'], hack, refBus_tick_owner htick⟩
    | received hb => cases hpend.symm.trans hb

theorem refBus_flagsRise : refBusAdapter.FlagsRise where
  wif act x y h hno hup := by
    rw [refBus_wif] at hno hup
    by_cases ho : act.own = true
    · obtain ⟨hticks, htick⟩ := refBus_own ho h
      rw [htick] at hup
      cases hticks with
      | time hwif => simp [hwif, hno] at hup
      | addressWritten b hb hbit => exact ⟨_, rfl, .inl ⟨b, true, hb, hbit⟩⟩
      | dataWritten b hb => exact ⟨_, rfl, .inr ⟨b, hb⟩⟩
      | addressRefused _ _ _ _ htick' | firstByte _ _ _ _ htick' | received _ htick' => simp [htick', hno] at hup
    · cases act with
      | engine => simp [(refBus_access h).1 hup] at hno
      | _ => exact absurd rfl ho
  rif act x y h hno hup := by
    rw [refBus_rif] at hno hup
    by_cases ho : act.own = true
    · obtain ⟨hticks, htick⟩ := refBus_own ho h
      rw [htick] at hup
      cases hticks with
      | time _ hrif => simp [hrif, hno] at hup
      | addressWritten _ _ _ htick' | dataWritten _ _ htick' => simp [htick', hno] at hup
      | addressRefused b hb hbit => exact .inl ⟨_, b, true, rfl, hb, hbit⟩
      | firstByte | received => exact .inr ⟨_, rfl⟩
    · cases act with
      | engine => simp [(refBus_access h).2 hup] at hno
      | _ => exact absurd rfl ho

theorem refBus_flagsCleared : refBusAdapter.FlagsCleared where
  byAddress x y b h := by
    rw [refBus_wif, refBus_rif, show y.1.1 = _ from h.1]
    by_cases hbus : x.1.1.bus = .idle ∨ x.1.1.bus = .owner
    · obtain ⟨hwif, hrif, -⟩ := RefBus.writeAddr_starts b hbus
      exact ⟨hwif, hrif⟩
    · obtain ⟨hwif, hrif, -⟩ := x.2.quiet fun howner => hbus (.inr howner)
      simp [RefBus.writeAddr, hbus, hwif, hrif]
  byData x y b h := by
    rw [refBus_wif, show y.1.1 = _ from h.1]
    by_cases hbus : x.1.1.bus = .owner
    · exact (RefBus.writeData_starts b hbus).1
    · simp [RefBus.writeData, hbus, (x.2.quiet hbus).1]
  byCommand x y c hc h := by
    rw [refBus_wif, refBus_rif, show y.1.1 = _ from h.1]
    by_cases hbus : x.1.1.bus = .owner
    · cases c with
      | none => exact absurd rfl hc
      | stop | nackAndStop => simp [RefBus.command, hbus]
      | continueReceive =>
        obtain ⟨hwif, hrif, -⟩ := RefBus.continue_starts hbus
        exact ⟨hwif, hrif⟩
    · obtain ⟨hwif, hrif, -⟩ := x.2.quiet hbus
      rw [x.2.command_unowned hbus]
      exact ⟨hwif, hrif⟩

theorem refBus_rxnackValid : refBusAdapter.RxnackValid where
  valid x o ho hflag := by
    rw [refBus_wif, refBus_rif] at hflag
    rw [refBus_rxnack]
    exact x.2.last o ho hflag
  dataOver x y b a h hpend := by
    have hpend : x.1.2.pending = .data b := hpend
    obtain ⟨hticks, htick⟩ := refBus_own rfl h
    rw [refBus_wif, refBus_rxnack, htick, RefBus.tick_rxnack]
    cases hticks with
    | addressWritten _ hb | addressRefused _ hb => cases hpend.symm.trans hb
    | dataWritten _ _ htick' => simp [htick']

theorem refBus_busMeans : refBusAdapter.BusMeans where
  idle x h := x.2.idle ((refBus_bus x).symm.trans h)
  owner x h := x.2.owner.2 ((refBus_bus x).symm.trans h)
  busy x h := x.2.busy ((refBus_bus x).symm.trans h)
  held x h _ := (refBus_bus x).trans (x.2.owner.1 h)
  stays act x y h hact _ _ hbus := by
    rw [refBus_bus] at hbus ⊢
    rcases hact with ho | ⟨b, rfl | rfl⟩
    · rw [(refBus_own ho h).2, RefBus.tick_bus, hbus]
    · rw [show y.1.1 = x.1.1 from h.1.1, hbus]
    · rw [show y.1.1 = x.1.1 from h.1.1, hbus]

theorem refBus_stopReleases : refBusAdapter.StopReleases where
  released x h := (refBus_bus x).trans (x.2.stopped h)
  harmless x y hbus h := by
    rw [refBus_bus] at hbus
    have hsame : y.1.1 = x.1.1 := (show y.1.1 = _ from h.1).trans (x.2.command_unowned hbus .stop)
    exact ⟨congrArg RefBus.status hsame, congrArg RefBus.dreg hsame⟩

theorem refBus_receives : refBusAdapter.Receives where
  ready x y v h := by
    obtain ⟨hticks, htick⟩ := refBus_own rfl h
    rw [refBus_rif, htick]
    cases hticks with
    | firstByte _ _ _ _ htick' | received _ htick' => rw [htick']
  holds x v h := x.2.byte v h
  answers x y b h := h.1.2

theorem refBus_keeps : refBusAdapter.Keeps :=
  ⟨refBus_keepsRecord, refBus_statusReadsPure, refBus_addressStarts, refBus_flagsRise, refBus_flagsCleared, refBus_rxnackValid,
    refBus_busMeans, refBus_stopReleases, refBus_receives⟩

theorem refBus_noOtherParticipant : refBusAdapter.NoOtherParticipant where
  noStart _ _ h := nomatch (refBus_own rfl h).1
  idleStays act x y ho h hbus := by
    rw [refBus_bus] at hbus ⊢
    rw [(refBus_own ho h).2, RefBus.tick_bus]
    exact .inl hbus

theorem refBus_noFault : refBusAdapter.NoFault where
  noFault _ _ h := nomatch (refBus_own rfl h).1
  noFail _ _ h := nomatch (refBus_own rfl h).1

/-- A record for a state of `RefBus` of which nothing is known but what it shows. -/
def RefBus.freshRecord (r : RefBus) : Wire where
  items := []
  holder :=
    match r.bus with
    | .idle => .free
    | .owner => .ours
    | .busy => .theirs
    | .unknown => .unclear
  pending :=
    match r.pend with
    | .none => .none
    | .w _ => .data 0x00#8
    | .r _ => .receive
  last := none
  reading := false
  byte := none
  stopped := false

theorem RefBus.linked_freshRecord (h : r.wf = true) : r.Linked r.freshRecord := by
  refine ⟨h, ?_, ?_, ?_, nofun, ?_, nofun, nofun⟩
  · cases hbus : r.bus <;> simp [RefBus.freshRecord, hbus]
  · intro hbus
    simp [RefBus.freshRecord, hbus]
  · intro hbus
    simp [RefBus.freshRecord, hbus]
  · cases hpend : r.pend <;> simp [RefBus.pendingMatches, RefBus.freshRecord, hpend]

/-- Settles O41: the moves of `RefBus` are its accesses and the ticks of its clock, each with its record. -/
theorem refBusKeepsTheContract : Obligations.RefBusKeepsTheContract := by
  refine ⟨refBus_keeps, refBus_noOtherParticipant, refBus_noFault, fun r h => ⟨_, RefBus.linked_freshRecord h⟩,
    fun x ev => refBus_answers x, fun x => ?_⟩
  obtain ⟨y, hmove, htick⟩ := refBus_ticks x
  exact ⟨_, y, x.1.1.tickAct_own x.1.2, hmove, htick⟩

/-! ### Commands -/

/-- `RefBus` takes part in every run whose answers are its own: its clock ticks before each status read (R65). -/
theorem refBus_plays (es : List Event) (x : { x : RefBus × Wire // x.1.Linked x.2 }) (h : x.1.1.Answers es) :
    ∃ y : { y : RefBus × Wire // y.1.Linked y.2 }, refBusAdapter.Plays x es y ∧ y.1.1 = x.1.1.after es := by
  induction es generalizing x with
  | nil => exact ⟨x, .nil (A := refBusAdapter) x, rfl⟩
  | cons ev es ih =>
    have haccess {x' : { x : RefBus × Wire // x.1.Linked x.2 }} (hstatus : ∀ b, ev = .readStatus b → b = x'.1.1.status)
        (hdata : ∀ b, ev = .readData b → b = x'.1.1.dreg) (h' : ∀ y, refBusAdapter.move (.engine ev) x' y →
          y.1.1.Answers es ∧ y.1.1.after es = x.1.1.after (ev :: es)) :
        ∃ y : { y : RefBus × Wire // y.1.Linked y.2 }, refBusAdapter.Plays x' (ev :: es) y ∧ y.1.1 = x.1.1.after (ev :: es) := by
      obtain ⟨x1, hmove⟩ := refBus_answers x' hstatus hdata
      obtain ⟨hanswers, hafter⟩ := h' x1 hmove
      obtain ⟨y, hplays, hy⟩ := ih x1 hanswers
      exact ⟨y, .event _ _ _ _ _ hmove hplays, hy.trans hafter⟩
    cases ev with
    | readStatus b =>
      obtain ⟨x', htick, hx'⟩ := refBus_ticks x
      obtain ⟨hb, hrest⟩ := h
      obtain ⟨y, hplays, hy⟩ := haccess (x' := x') (by rintro _ ⟨⟩; rw [hb, hx']) nofun
        (fun y hm => by rw [show y.1.1 = x'.1.1 from hm.1.1, hx']; exact ⟨hrest, rfl⟩)
      exact ⟨y, .own _ _ _ _ _ (x.1.1.tickAct_own x.1.2) htick hplays, hy⟩
    | readData b =>
      obtain ⟨hb, hrest⟩ := h
      exact haccess nofun (by rintro _ ⟨⟩; exact hb)
        (fun y hm => by rw [show y.1.1 = x.1.1 from hm.1.1]; exact ⟨hrest, rfl⟩)
    | writeAddr b =>
      exact haccess nofun nofun (fun y hm => by rw [show y.1.1 = _ from hm.1]; exact ⟨h, rfl⟩)
    | writeData b =>
      exact haccess nofun nofun (fun y hm => by rw [show y.1.1 = _ from hm.1]; exact ⟨h, rfl⟩)
    | command c =>
      exact haccess nofun nofun (fun y hm => by rw [show y.1.1 = _ from hm.1]; exact ⟨h, rfl⟩)

/-- Settles O42: the answers in a command's run are the ones `RefBus` gives. -/
theorem commandsPlayWithRefBus : Obligations.CommandsPlayWithRefBus := by
  intro i s x hs
  obtain ⟨o, u, es, hexec, hrun, hanswers, henv⟩ := exec_refBus (i := i) hs
  obtain ⟨y, hplays, hy⟩ := refBus_plays es x hanswers
  exact ⟨_, es, y, hexec, hrun.ran.1, by rw [hy]; exact henv, hplays⟩

end Sys2Proof.Machine
end
